-- ==== Sys2Proof/Word.lean ====
section
/-! DEFINITION. The widths the block works in: 32-bit register words, 8-bit RAM bytes and symbols (R8, R10, R22). -/

namespace Sys2Proof

/-- A register word, and a command word: 32 bits (R22, R90). -/
abbrev Word := BitVec 32

/-- A byte of the payload RAM or the data RAM (R61, R62). -/
abbrev Byte := BitVec 8

/-- A symbol: "a byte value in [0,255]" (R15). -/
abbrev Symbol := BitVec 8

/-- A word address of the register space (R22). -/
abbrev RegAddr := BitVec 8

end Sys2Proof
end

