-- ==== Sys2Proof/Config.lean ====
section
/-! DEFINITION. What a build fixes (R8) and the values the spec leaves free (R72, R116; 93 U1, U2). -/

namespace Sys2Proof

/-- The two parameters in which builds of the block differ (R2, R8, 92 D15). -/
structure Config where
  /-- PAYLOAD_BYTES, the size of the payload RAM in bytes. -/
  payloadBytes : Nat
  /-- DATA_BYTES, the size of the data RAM in bytes. -/
  dataBytes : Nat
  deriving DecidableEq, Repr

/-- 8 × PAYLOAD_BYTES, the capacity of the payload RAM in bits. -/
abbrev Config.payloadBits (c : Config) : Nat := 8 * c.payloadBytes

/-- The build a reset state is written for: the one 95_test_vectors.md assumes "unless a vector says otherwise".
DESIGN CHOICE (log 1): R8 leaves both sizes open, so statements range over every legal configuration. -/
def Config.build : Config := { payloadBytes := 16, dataBytes := 16 }

/-- `draw32()` of R110: the word a read returns while BUSY = 1, one value for each draw.
A free value (log 4): nothing constrains it. -/
opaque Config.freeWord : Nat → Word

/-- `draw4()` of R110: STATUS bits [11:8] read while BUSY = 1, one value for each draw.
A free value (log 4): nothing constrains it. -/
opaque Config.freeNibble : Nat → BitVec 4

end Sys2Proof
end

