-- ==== Sys2Proof/Syntax.lean ====
section
/-! DEFINITION. The instructions (one constructor per row of opcode_table.json), the words that encode them, and the
names of the register map. -/

namespace Sys2Proof

/-- The instructions of the block: the 14 commands of R92, performed by the engine, and the two bus transactions of
R98, made by the host. -/
inductive Instr where
  /-- NOP (R130). -/
  | nop
  /-- CB_CLEAR (R131). -/
  | cbClear
  /-- CB_WRITE s (R132). -/
  | cbWrite (s : Symbol)
  /-- CB_READ s (R133). -/
  | cbRead (s : Symbol)
  /-- W_INIT (R150). -/
  | wInit
  /-- W_PUTBIT b (R154), b = ARG[0]. -/
  | wPutbit (b : Bool)
  /-- W_PUTBITS n (R156), n = ARG. -/
  | wPutbits (n : BitVec 8)
  /-- W_PUTSYM s (R158). -/
  | wPutsym (s : Symbol)
  /-- W_ENCODE (R160). -/
  | wEncode
  /-- W_FINAL (R162). -/
  | wFinal
  /-- R_INIT (R180). -/
  | rInit
  /-- R_GETBIT (R181). -/
  | rGetbit
  /-- R_DECSYM (R186). -/
  | rDecsym
  /-- R_DECODE (R188). -/
  | rDecode
  /-- BUS_RD a (R110). -/
  | busRd (a : RegAddr)
  /-- BUS_WR a, d (R111). -/
  | busWr (a : RegAddr) (d : Word)
  deriving DecidableEq, Repr

/-- A bus transaction as the block sees it on its pins: `we`, `address` and `write_data` (R98, 92 D3). -/
structure BusReq where
  we : Bool
  address : RegAddr
  writeData : Word
  deriving DecidableEq, Repr

/-- The words opcode_table.json gives its rows: a 32-bit command word (R90), a 9-bit BUS_RD `0aaaaaaaa` and a 41-bit
BUS_WR `1aaaaaaaad…d` (R98). -/
inductive RawWord where
  | cmdw (w : Word)
  | busRd (w : BitVec 9)
  | busWr (w : BitVec 41)
  deriving DecidableEq, Repr

/-- Why a word decodes to no instruction. -/
inductive Reject where
  /-- `ILLEGAL(opc)` of R95: one of the 242 reserved opcodes of R94. -/
  | illegal (opc : BitVec 8)
  /-- A word of the BUS_RD format with we = 1, or of the BUS_WR format with we = 0 (R98). -/
  | wrongWe
  deriving DecidableEq, Repr

/-- The mapped words of the register map (R22). -/
inductive Reg where
  | name0 | name1 | version
  | cmd | status
  | cbLen
  | cbCode (k : Fin 8)
  | wBitsval | wDatalen | wBitcnt | wPad | wDatapos
  | rNbits | origLenLo | origLenHi | rBitpos | rSymcntLo | rSymcntHi | rBit | rSym
  | plAddr | plData | dtAddr | dtData
  deriving DecidableEq, Repr

end Sys2Proof
end

