-- ==== Sys2Proof/WellFormed.lean ====
section
/-! DEFINITION. The checks on the syntax and on the configuration. Every operand of an instruction has the exact width
of its field, so the checks that can fail are those of a raw word's format bit and of the configuration's ranges. -/

namespace Sys2Proof

/-- The encoding admits every operand value of every instruction: an operand's type is its field (R91, R98).
W_PUTBITS with n = 0 or n > 32 is a word of the encoding too and completes with BAD_OPERAND (R156). -/
def Instr.wf : Instr → Bool
  | .nop | .cbClear | .wInit | .wEncode | .wFinal | .rInit | .rGetbit | .rDecsym | .rDecode => true
  | .cbWrite _ | .cbRead _ | .wPutsym _ => true
  | .wPutbit _ | .wPutbits _ => true
  | .busRd _ | .busWr _ _ => true

/-- A raw word carries the format bit of its format: we = 0 in a BUS_RD, we = 1 in a BUS_WR (R98).
Every 32-bit word is a command word (R90, R95). -/
def RawWord.wf : RawWord → Bool
  | .cmdw _ => true
  | .busRd w => !w.getLsbD 8
  | .busWr w => w.getLsbD 40

/-- PAYLOAD_BYTES is in 1 .. 2^28 (R8). -/
abbrev Config.LegalPayload (c : Config) : Prop := 1 ≤ c.payloadBytes ∧ c.payloadBytes ≤ 2 ^ 28

/-- DATA_BYTES is in 1 .. 2^28 (R8). -/
abbrev Config.LegalData (c : Config) : Prop := 1 ≤ c.dataBytes ∧ c.dataBytes ≤ 2 ^ 28

/-- Both parameters are in their legal range (R8). -/
abbrev Config.Legal (c : Config) : Prop := c.LegalPayload ∧ c.LegalData

end Sys2Proof
end

