-- ==== Sys2Proof/Decode.lean ====
section
/-! DEFINITION. Decoding, total on every word of every format (R92-R95, R98), and the encoder, from the same map. -/

namespace Sys2Proof

/-- OPC = CMDW[7:0] (R90). -/
def cmdOpc (w : Word) : BitVec 8 := w.extractLsb' 0 8

/-- ARG = CMDW[15:8] (R90). -/
def cmdArg (w : Word) : BitVec 8 := w.extractLsb' 8 8

/-- The decode function of R95, by an exact match on OPC (R93). -/
def decodeCmd (w : Word) : Except Reject Instr :=
  match cmdOpc w with
  | 0x00#8 => .ok .nop
  | 0x01#8 => .ok .cbClear
  | 0x02#8 => .ok (.cbWrite (cmdArg w))
  | 0x03#8 => .ok (.cbRead (cmdArg w))
  | 0x10#8 => .ok .wInit
  | 0x11#8 => .ok (.wPutbit ((cmdArg w).getLsbD 0))
  | 0x12#8 => .ok (.wPutbits (cmdArg w))
  | 0x13#8 => .ok (.wPutsym (cmdArg w))
  | 0x14#8 => .ok .wEncode
  | 0x15#8 => .ok .wFinal
  | 0x20#8 => .ok .rInit
  | 0x21#8 => .ok .rGetbit
  | 0x22#8 => .ok .rDecsym
  | 0x23#8 => .ok .rDecode
  | opc => .error (.illegal opc)

/-- The transaction the pins make: BUS_WR when we = 1, BUS_RD when we = 0 (R98). -/
def decodeBus (q : BusReq) : Instr :=
  if q.we then .busWr q.address q.writeData else .busRd q.address

/-- The pins of a 9-bit BUS_RD word `0aaaaaaaa`: we at [8], a at [7:0].
The write data pins are not driven by the format and are given as 0 (log 11). -/
def busRdPins (w : BitVec 9) : BusReq :=
  { we := w.getLsbD 8, address := w.extractLsb' 0 8, writeData := 0 }

/-- The pins of a 41-bit BUS_WR word: we at [40], a at [39:32], d at [31:0]. -/
def busWrPins (w : BitVec 41) : BusReq :=
  { we := w.getLsbD 40, address := w.extractLsb' 32 8, writeData := w.extractLsb' 0 32 }

/-- The decoder of the three formats, rejecting by name. -/
def decode (r : RawWord) : Except Reject Instr :=
  match r with
  | .cmdw w => decodeCmd w
  | .busRd w => if r.wf then .ok (decodeBus (busRdPins w)) else .error .wrongWe
  | .busWr w => if r.wf then .ok (decodeBus (busWrPins w)) else .error .wrongWe

/-- A command word from its fields: {16'b0, ARG, OPC} (R90, "[31:16] ignored; write 0"). -/
def cmdWord (arg opc : BitVec 8) : Word := (0#16 ++ arg) ++ opc

/-- The encoder, from the map of R92 and the formats of R98. Unused bits are written 0 (R90). -/
def encode : Instr → RawWord
  | .nop => .cmdw (cmdWord 0 0x00)
  | .cbClear => .cmdw (cmdWord 0 0x01)
  | .cbWrite s => .cmdw (cmdWord s 0x02)
  | .cbRead s => .cmdw (cmdWord s 0x03)
  | .wInit => .cmdw (cmdWord 0 0x10)
  | .wPutbit b => .cmdw (cmdWord (BitVec.setWidth 8 (BitVec.ofBool b)) 0x11)
  | .wPutbits n => .cmdw (cmdWord n 0x12)
  | .wPutsym s => .cmdw (cmdWord s 0x13)
  | .wEncode => .cmdw (cmdWord 0 0x14)
  | .wFinal => .cmdw (cmdWord 0 0x15)
  | .rInit => .cmdw (cmdWord 0 0x20)
  | .rGetbit => .cmdw (cmdWord 0 0x21)
  | .rDecsym => .cmdw (cmdWord 0 0x22)
  | .rDecode => .cmdw (cmdWord 0 0x23)
  | .busRd a => .busRd (0#1 ++ a)
  | .busWr a d => .busWr ((1#1 ++ a) ++ d)

/-- The bits of its command word that an instruction uses (R91): OPC, and of ARG what the instruction reads. A bus
transaction has no command word. -/
def usedBits : Instr → Word
  | .nop | .cbClear | .wInit | .wEncode | .wFinal | .rInit | .rGetbit | .rDecsym | .rDecode => 0x000000FF
  | .wPutbit _ => 0x000001FF
  | .cbWrite _ | .cbRead _ | .wPutsym _ | .wPutbits _ => 0x0000FFFF
  | .busRd _ | .busWr _ _ => 0

/-- The format of a table row whose bits fill `nbits` bits, in whole bytes: a command word's row has its opcode in 8
bits or all 32, a BUS_RD row 9 bits (2 bytes) and a BUS_WR row 41 bits (6 bytes). Other counts are no row (log 3). -/
def rawOfTableWord (nbits w : Nat) : Option RawWord :=
  if nbits ≤ 8 then if w < 2 ^ 32 then some (.cmdw (BitVec.ofNat 32 w)) else none
  else if nbits ≤ 16 then if w < 2 ^ 9 then some (.busRd (BitVec.ofNat 9 w)) else none
  else if nbits ≤ 32 then if w < 2 ^ 32 then some (.cmdw (BitVec.ofNat 32 w)) else none
  else if nbits ≤ 48 then if w < 2 ^ 41 then some (.busWr (BitVec.ofNat 41 w)) else none
  else none

/-- The instruction the decoder reads from a table word (bit 0 the least significant), none where it refuses. -/
def decodeTableWord (nbits w : Nat) : Option Instr :=
  match rawOfTableWord nbits w with
  | none => none
  | some r =>
    match decode r with
    | .ok i => some i
    | .error _ => none

end Sys2Proof
end

