-- ==== Sys2Proof/Machine/State.lean ====
section
/-! DEFINITION. The state of the block (R20), the reasons a step can stop, and the state after reset (R270). -/

namespace Sys2Proof.Machine

/-- The result codes of R240. Codes 10-15 are never produced and have no name (log 9). -/
inductive ErrCode where
  | ok | illegalCmd | badState | badOperand | noCode | payloadFull | exhausted | offCode | emptyCodebook | countReached
  deriving DecidableEq, Repr

/-- The writer state WSTATE (R49): IDLE, OPEN, FINAL. -/
inductive WState where
  | idle | opened | final
  deriving DecidableEq, Repr

/-- The reader state RSTATE (R51): IDLE, ACTIVE, FAILED. -/
inductive RState where
  | idle | active | failed
  deriving DecidableEq, Repr

/-- An entry of the codebook RAM (R47): the code is right-aligned, its first bit at `code[len-1]`. -/
structure CbEntry where
  len : BitVec 8
  code : BitVec 255
  deriving DecidableEq, Repr

/-- The codebook RAM CB[0..255], one entry per symbol (R47). -/
abbrev Codebook := Vector CbEntry 256

/-- A byte RAM: (address, byte) pairs, addresses strictly rising. An unlisted address holds no value (R63). -/
abbrev Memory := List Host.Cell

/-- The two byte RAMs (R60): PL and DT. -/
inductive Ram where
  | payload | data
  deriving DecidableEq, Repr

/-- What may happen next (R71, R117, R271): a bus transaction of the host, a turn of the engine, or reset.
The model's own (log 2). -/
inductive Input where
  /-- The host makes the transaction on these pins. -/
  | bus (q : BusReq)
  /-- The engine may take its step, if BUSY = 1 (R117). -/
  | engine
  /-- The reset event (R271). -/
  | reset
  deriving DecidableEq, Repr

/-- The state of the block: R20's list, the configuration (R8), and the model's own three last fields.
BUSY is `pending.isSome`: the command in progress and its word have one home (log 6). -/
structure State where
  /-- PAYLOAD_BYTES and DATA_BYTES (R8, log 1). -/
  cfg : Config
  /-- The command word issued and not yet performed; STATUS.BUSY = 1 exactly when there is one (R20, R27, R113). -/
  pending : Option Word
  /-- STATUS.DROPPED (R28). -/
  dropped : Bool
  /-- STATUS.ERR (R29). -/
  err : ErrCode
  /-- WSTATE (R30, R49). -/
  wstate : WState
  /-- RSTATE (R31, R51). -/
  rstate : RState
  /-- CB_LEN[7:0] (R32). -/
  cbLen : BitVec 8
  /-- CB_CODE0 .. CB_CODE7 (R33). -/
  cbCode : Vector Word 8
  /-- W_BITSVAL (R34). -/
  wBitsval : Word
  /-- W_DATALEN (R35). -/
  wDatalen : Word
  /-- W_BITCNT (R36). -/
  wBitcnt : Word
  /-- W_PAD[2:0] (R37). -/
  wPad : BitVec 3
  /-- W_DATAPOS (R38). -/
  wDatapos : Word
  /-- R_NBITS (R39). -/
  rNbits : Word
  /-- ORIG_LEN = {ORIG_LEN_HI, ORIG_LEN_LO} (R40). -/
  origLen : BitVec 64
  /-- R_BITPOS (R41). -/
  rBitpos : Word
  /-- R_SYMCNT = {R_SYMCNT_HI, R_SYMCNT_LO} (R42). -/
  rSymcnt : BitVec 64
  /-- R_BIT[0] (R43). -/
  rBit : BitVec 1
  /-- R_SYM[7:0] (R44). -/
  rSym : Symbol
  /-- PL_ADDR (R45). -/
  plAddr : Word
  /-- DT_ADDR (R46). -/
  dtAddr : Word
  /-- The codebook RAM CB (R47). -/
  codebook : Codebook
  /-- The payload RAM PL (R61). -/
  payload : Memory
  /-- The data RAM DT (R62). -/
  data : Memory
  /-- What the host, the engine and reset do next (model's own, log 2). -/
  inputs : List Input
  /-- The words BUS_RD has returned to the host, newest first (model's own, log 5). -/
  replies : List Word
  /-- How many free values have been drawn (model's own, log 4). -/
  draws : Nat
  deriving DecidableEq, Repr

/-- Why the machine stops. -/
inductive Fault where
  /-- A read of a RAM byte that nothing has written since reset, which "has no value" (R63, 93 U3): raised by BUS_RD of
  PL_DATA or DT_DATA, R_GETBIT, R_DECSYM, R_DECODE and W_ENCODE, and by AppendBit's merge read in states no run reaches.
  Safe: the model stops where a build would go on with an unspecified byte (log 7). -/
  | unwritten (ram : Ram) (addr : Nat)
  deriving DecidableEq, Repr

/-- Why an instruction has no meaning. No meaning of this model refuses. -/
inductive Refusal where
  /-- Raised by an arm of exec whose instruction has no meaning yet. Safe: nothing runs. -/
  | notModelled (mnemonic : String)
  deriving DecidableEq, Repr

/-- The state R270 gives a build with parameters `cfg`, with no input to come. -/
def State.resetWith (cfg : Config) : State where
  cfg := cfg
  pending := none
  dropped := false
  err := .ok
  wstate := .idle
  rstate := .idle
  cbLen := 0
  cbCode := Vector.replicate 8 0
  wBitsval := 0
  wDatalen := 0
  wBitcnt := 0
  wPad := 0
  wDatapos := 0
  rNbits := 0
  origLen := 0
  rBitpos := 0
  rSymcnt := 0
  rBit := 0
  rSym := 0
  plAddr := 0
  dtAddr := 0
  codebook := Vector.replicate 256 { len := 0, code := 0 }
  payload := []
  data := []
  inputs := []
  replies := []
  draws := 0

/-- The machine right after reset (R270), for the build of log 1. -/
def State.reset : State := State.resetWith Config.build

end Sys2Proof.Machine
end

