-- ==== Sys2Proof/Machine/Ops.lean ====
section
/-! DEFINITION. The named operations over the RAMs, the codebook and the completion of a command: the primitives of R12,
R13 and R77 and the sub-operations the command rules share (R151-R153, R182, R183, R185). -/

namespace Sys2Proof.Machine

/-- What an address no write has listed reads as: no value (R63). No byte equals it, so a write always lists its byte. -/
def Memory.unlisted : Option Byte := none

/-- The canonical form: addresses strictly rising. -/
abbrev Memory.wf (m : Memory) : Prop := m.Pairwise fun c d => c.1 < d.1

/-- `MemRead(RAM, a, 1)` (R12): the byte, or no value where nothing has been written since reset (R63). -/
def Memory.read : Memory → Nat → Option Byte
  | [], _ => Memory.unlisted
  | c :: rest, a => if c.1 = a then some c.2 else Memory.read rest a

/-- `MemWrite(RAM, a, 1, v)` (R12), keeping the canonical form. -/
def Memory.write : Memory → Nat → Byte → Memory
  | [], a, v => [(a, v)]
  | c :: rest, a, v =>
    if a < c.1 then (a, v) :: c :: rest
    else if a = c.1 then (a, v) :: rest
    else c :: Memory.write rest a v

/-- CB[s] (R11, R47). -/
def Codebook.get (cb : Codebook) (s : Symbol) : CbEntry := cb[s.toNat]'s.isLt

/-- `CB[s] <- e` (R132). -/
def Codebook.put (cb : Codebook) (s : Symbol) (e : CbEntry) : Codebook := cb.set s.toNat e s.isLt

/-- Every entry invalid (R131). -/
def Codebook.cleared : Codebook := Vector.replicate 256 { len := 0, code := 0 }

/-- "The codebook is **empty** when no entry is valid" (R48). -/
def Codebook.isEmpty (cb : Codebook) : Bool := cb.toList.all fun e => e.len == 0

/-- maxlen, "the largest CB[s].len over all s" (R48). -/
def Codebook.maxlen (cb : Codebook) : Nat := cb.toList.foldr (fun e m => max e.len.toNat m) 0

/-- The test of R183: the entry's code has `k` bits and they are `acc`. -/
def CbEntry.isCode (e : CbEntry) (k acc : Nat) : Bool := e.len.toNat == k && e.code.toNat % 2 ^ k == acc

/-- `min { s | CB[s].len = k and CB[s].code[k-1:0] = acc }`, none where no such s exists (R183). -/
def Codebook.lookup (cb : Codebook) (k acc : Nat) : Option Symbol :=
  (cb.toList.findIdx? fun e => e.isCode k acc).map (BitVec.ofNat 8)

/-- STATUS.BUSY (R27). -/
def State.busy (s : State) : Bool := s.pending.isSome

/-- The completion primitive `finish(e)` of R13, the one way an error is raised (`raise`, R250): ERR <- e, BUSY <- 0. -/
def State.finish (e : ErrCode) (s : State) : State := { s with err := e, pending := none }

/-- `issue(d)` (R113): ERR <- 0, BUSY <- 1, and the command word is held until the engine step. -/
def State.issue (d : Word) (s : State) : State := { s with err := .ok, pending := some d }

/-- A reader error (R182, R183, R245): RSTATE <- FAILED and the command ends with code `e`. -/
def State.failReader (e : ErrCode) (s : State) : State := State.finish e { s with rstate := .failed }

/-- `MemWrite(PL, a, 1, v)`. -/
def State.writePayload (a : Nat) (v : Byte) (s : State) : State := { s with payload := s.payload.write a v }

/-- `MemWrite(DT, a, 1, v)`. -/
def State.writeData (a : Nat) (v : Byte) (s : State) : State := { s with data := s.data.write a v }

/-- The host receives the word a BUS_RD returns (R98, log 5). -/
def State.reply (r : Word) (s : State) : State := { s with replies := r :: s.replies }

/-- `draw32()` and `draw4()` (R110): the draw is used up, so that the next is fresh (R116). -/
def State.nextDraw (s : State) : State := { s with draws := s.draws + 1 }

/-- What a sub-operation of a command comes to: a value and a state to go on from, an end of the command by `finish`, or
a stop at a RAM byte without a value. -/
inductive Prim (α : Type) where
  | ok (a : α) (s : State)
  | ended (s : State)
  | stopped (f : Fault)
  deriving DecidableEq, Repr

/-- Bit `7 - p mod 8` of a byte: the place of stream bit p in its byte (R64). -/
def bitOfByte (v : Byte) (p : Nat) : Bool := v.getLsbD (7 - p % 8)

/-- `PayloadBit(p)` (R12, R64), no value where its byte has none. -/
def State.payloadBit (s : State) (p : Nat) : Option Bool := (s.payload.read (p / 8)).map fun v => bitOfByte v p

/-- `b << (7 - j)` as a byte (R151). -/
def bitInByte (b : Bool) (j : Nat) : Byte := (BitVec.ofBool b).setWidth 8 <<< (7 - j)

/-- `fits(n)` (R152): the whole append is within 8 × PAYLOAD_BYTES. -/
def State.fits (s : State) (n : Nat) : Bool := s.wBitcnt.toNat + n ≤ s.cfg.payloadBits

/-- `AppendBit(b)` (R151). Called only after a capacity check. -/
def appendBit (b : Bool) (s : State) : Except Fault State :=
  let p := s.wBitcnt.toNat
  let i := p / 8
  let j := p % 8
  if j = 0 then .ok { s with payload := s.payload.write i (bitInByte b 0), wBitcnt := s.wBitcnt + 1 }
  else
    match s.payload.read i with
    | none => .error (.unwritten .payload i)
    | some v => .ok { s with payload := s.payload.write i (v ||| bitInByte b j), wBitcnt := s.wBitcnt + 1 }

/-- `AppendCode(L, v)` (R153): bits L-1 down to 0 of v. -/
def appendCode {w : Nat} (v : BitVec w) : Nat → State → Except Fault State
  | 0, s => .ok s
  | i + 1, s =>
    match appendBit (v.getLsbD i) s with
    | .error f => .error f
    | .ok s' => appendCode v i s'

/-- `ReadBit()` (R182). -/
def readBit (s : State) : Prim Bool :=
  let p := s.rBitpos.toNat
  if s.rNbits.toNat ≤ p ∨ s.cfg.payloadBits ≤ p then .ended (s.failReader .exhausted)
  else
    match s.payloadBit p with
    | none => .stopped (.unwritten .payload (p / 8))
    | some b => .ok b { s with rBitpos := s.rBitpos + 1 }

/-- The loop of R183 when `k` bits with value `acc` have been read and `left = maxlen - k` more may be: read a bit, look
for a code, and end with OFF_CODE once maxlen bits match none. `left` counts the iterations (log 16). -/
def decodeBits : Nat → Nat → Nat → State → Prim Symbol
  | 0, _, _, s => .ended (s.failReader .offCode)
  | left + 1, k, acc, s =>
    match readBit s with
    | .stopped f => .stopped f
    | .ended s' => .ended s'
    | .ok b s' =>
      let acc' := acc <<< 1 ||| b.toNat
      match s'.codebook.lookup (k + 1) acc' with
      | some sym => .ok sym s'
      | none => decodeBits left (k + 1) acc' s'

/-- `DecodeStep()` (R183). -/
def decodeStep (s : State) : Prim Symbol :=
  if s.codebook.isEmpty then .ended (s.failReader .emptyCodebook)
  else decodeBits s.codebook.maxlen 0 0 s

/-- `Emit(s)` (R185). -/
def emit (sym : Symbol) (s : State) : State :=
  { s with
    rSym := sym
    data := if s.rSymcnt.toNat < s.cfg.dataBytes then s.data.write s.rSymcnt.toNat sym else s.data
    rSymcnt := s.rSymcnt + 1 }

end Sys2Proof.Machine
end

