-- ==== Sys2Proof/Machine/Flags.lean ====
section
/-! DEFINITION. The codes of the STATUS fields, the STATUS word as the host reads it (R26, R110) and the padding count. -/

namespace Sys2Proof.Machine

/-- The 4-bit code of a result (R240). -/
def ErrCode.code : ErrCode → BitVec 4
  | .ok => 0
  | .illegalCmd => 1
  | .badState => 2
  | .badOperand => 3
  | .noCode => 4
  | .payloadFull => 5
  | .exhausted => 6
  | .offCode => 7
  | .emptyCodebook => 8
  | .countReached => 9

/-- The 2-bit code of WSTATE (R30). -/
def WState.code : WState → BitVec 2
  | .idle => 0
  | .opened => 1
  | .final => 2

/-- The 2-bit code of RSTATE (R31). -/
def RState.code : RState → BitVec 2
  | .idle => 0
  | .active => 1
  | .failed => 2

/-- STATUS read with BUSY = 0: `{20'b0, RSTATE[1:0], WSTATE[1:0], ERR[3:0], 2'b0, DROPPED, 1'b0}` (R26, R110). -/
def State.statusIdle (s : State) : Word :=
  (0#20 ++ s.rstate.code ++ s.wstate.code ++ s.err.code ++ 0#2 ++ BitVec.ofBool s.dropped ++ 0#1).cast (by decide)

/-- STATUS read with BUSY = 1: `{20'b0, draw4(), 4'b0000, 2'b0, DROPPED, 1'b1}` (R110, R116). -/
def State.statusBusy (s : State) (draw : BitVec 4) : Word :=
  (0#20 ++ draw ++ 0#4 ++ 0#2 ++ BitVec.ofBool s.dropped ++ 1#1).cast (by decide)

/-- `(8 - (W_BITCNT mod 8)) mod 8`, the padding-bit count (R37, R162). -/
def padCount (bitcnt : Word) : BitVec 3 := BitVec.ofNat 3 ((8 - bitcnt.toNat % 8) % 8)

end Sys2Proof.Machine
end

