-- ==== Sys2Proof/Machine/Operands.lean ====
section
/-! DEFINITION. The operands: the register map (R22, R24), the staging value (R33), and the one read and the one write of a
mapped register word with BUSY = 0 (R110-R115). -/

namespace Sys2Proof.Machine

/-- The register at a word address, none where the address is unmapped (R22, R23). -/
def regOfAddr (a : RegAddr) : Option Reg :=
  match a with
  | 0x00#8 => some .name0
  | 0x01#8 => some .name1
  | 0x02#8 => some .version
  | 0x08#8 => some .cmd
  | 0x09#8 => some .status
  | 0x10#8 => some .cbLen
  | 0x11#8 => some (.cbCode 0)
  | 0x12#8 => some (.cbCode 1)
  | 0x13#8 => some (.cbCode 2)
  | 0x14#8 => some (.cbCode 3)
  | 0x15#8 => some (.cbCode 4)
  | 0x16#8 => some (.cbCode 5)
  | 0x17#8 => some (.cbCode 6)
  | 0x18#8 => some (.cbCode 7)
  | 0x20#8 => some .wBitsval
  | 0x21#8 => some .wDatalen
  | 0x22#8 => some .wBitcnt
  | 0x23#8 => some .wPad
  | 0x24#8 => some .wDatapos
  | 0x30#8 => some .rNbits
  | 0x31#8 => some .origLenLo
  | 0x32#8 => some .origLenHi
  | 0x33#8 => some .rBitpos
  | 0x34#8 => some .rSymcntLo
  | 0x35#8 => some .rSymcntHi
  | 0x36#8 => some .rBit
  | 0x37#8 => some .rSym
  | 0x40#8 => some .plAddr
  | 0x41#8 => some .plData
  | 0x42#8 => some .dtAddr
  | 0x43#8 => some .dtData
  | _ => none

/-- The word address of a register (R22). -/
def regAddr : Reg → RegAddr
  | .name0 => 0x00
  | .name1 => 0x01
  | .version => 0x02
  | .cmd => 0x08
  | .status => 0x09
  | .cbLen => 0x10
  | .cbCode k => 0x11 + BitVec.ofNat 8 k.val
  | .wBitsval => 0x20
  | .wDatalen => 0x21
  | .wBitcnt => 0x22
  | .wPad => 0x23
  | .wDatapos => 0x24
  | .rNbits => 0x30
  | .origLenLo => 0x31
  | .origLenHi => 0x32
  | .rBitpos => 0x33
  | .rSymcntLo => 0x34
  | .rSymcntHi => 0x35
  | .rBit => 0x36
  | .rSym => 0x37
  | .plAddr => 0x40
  | .plData => 0x41
  | .dtAddr => 0x42
  | .dtData => 0x43

/-- The words 0x00, 0x01, 0x02 and 0x09, which a read defines even while BUSY = 1 (R110, R116). -/
def liveWhileBusy (a : RegAddr) : Bool :=
  match regOfAddr a with
  | some .name0 | some .name1 | some .version | some .status => true
  | _ => false

/-- NAME0 (R24). -/
def name0Word : Word := 0x68756666

/-- NAME1 (R24). -/
def name1Word : Word := 0x6d616e20

/-- VERSION (R24). -/
def versionWord : Word := 0x00000001

/-- STAGE = {CB_CODE7, ..., CB_CODE0}, with `STAGE[32k+31:32k] = CB_CODEk` (R33). -/
def stage (codes : Vector Word 8) : BitVec 256 :=
  codes[7] ++ codes[6] ++ codes[5] ++ codes[4] ++ codes[3] ++ codes[2] ++ codes[1] ++ codes[0]

/-- The eight staging words of a 256-bit value: `CB_CODE(k) <- V[32k+31:32k]` (R133). -/
def unstage (v : BitVec 256) : Vector Word 8 := Vector.ofFn fun k => v.extractLsb' (32 * k.val) 32

/-- The entry CB_WRITE stores: L, and `zext_255(STAGE[L-1:0])`, which is 0 for L = 0 (R132). -/
def entryOfStage (len : BitVec 8) (v : BitVec 256) : CbEntry :=
  { len := len, code := BitVec.ofNat 255 (v.toNat % 2 ^ len.toNat) }

/-- A read of the window on a RAM of `size` bytes at address `a`: 0 out of range (R45, R66), a fault at a byte without a
value (R63). -/
def windowRead (ram : Ram) (m : Memory) (size : Nat) (a : Word) : Except Fault Word :=
  if a.toNat < size then
    match m.read a.toNat with
    | none => .error (.unwritten ram a.toNat)
    | some v => .ok (v.setWidth 32)
  else .ok 0

/-- BUS_RD of a mapped word with BUSY = 0 (R110). Reserved bits read 0 (R23). -/
def readReg (s : State) : Reg → Except Fault Word
  | .name0 => .ok name0Word
  | .name1 => .ok name1Word
  | .version => .ok versionWord
  | .cmd => .ok 0
  | .status => .ok s.statusIdle
  | .cbLen => .ok (s.cbLen.setWidth 32)
  | .cbCode k => .ok s.cbCode[k]
  | .wBitsval => .ok s.wBitsval
  | .wDatalen => .ok s.wDatalen
  | .wBitcnt => .ok s.wBitcnt
  | .wPad => .ok (s.wPad.setWidth 32)
  | .wDatapos => .ok s.wDatapos
  | .rNbits => .ok s.rNbits
  | .origLenLo => .ok (s.origLen.extractLsb' 0 32)
  | .origLenHi => .ok (s.origLen.extractLsb' 32 32)
  | .rBitpos => .ok s.rBitpos
  | .rSymcntLo => .ok (s.rSymcnt.extractLsb' 0 32)
  | .rSymcntHi => .ok (s.rSymcnt.extractLsb' 32 32)
  | .rBit => .ok (s.rBit.setWidth 32)
  | .rSym => .ok (s.rSym.setWidth 32)
  | .plAddr => .ok s.plAddr
  | .plData => windowRead .payload s.payload s.cfg.payloadBytes s.plAddr
  | .dtAddr => .ok s.dtAddr
  | .dtData => windowRead .data s.data s.cfg.dataBytes s.dtAddr

/-- BUS_WR of a mapped word with BUSY = 0 (R111-R115). A write to a read-only register is ignored (R23). -/
def writeReg (d : Word) (s : State) : Reg → State
  | .name0 | .name1 | .version => s
  | .cmd => s.issue d
  | .status => if d.getLsbD 1 then { s with dropped := false } else s
  | .cbLen => { s with cbLen := d.extractLsb' 0 8 }
  | .cbCode k => { s with cbCode := s.cbCode.set k d }
  | .wBitsval => { s with wBitsval := d }
  | .wDatalen => { s with wDatalen := d }
  | .wBitcnt | .wPad | .wDatapos => s
  | .rNbits => { s with rNbits := d }
  | .origLenLo => { s with origLen := s.origLen.extractLsb' 32 32 ++ d }
  | .origLenHi => { s with origLen := d ++ s.origLen.extractLsb' 0 32 }
  | .rBitpos | .rSymcntLo | .rSymcntHi | .rBit | .rSym => s
  | .plAddr => { s with plAddr := d }
  | .plData => if s.plAddr.toNat < s.cfg.payloadBytes then s.writePayload s.plAddr.toNat (d.extractLsb' 0 8) else s
  | .dtAddr => { s with dtAddr := d }
  | .dtData => if s.dtAddr.toNat < s.cfg.dataBytes then s.writeData s.dtAddr.toNat (d.extractLsb' 0 8) else s

end Sys2Proof.Machine
end

