-- ==== Sys2Proof/Machine/Codebook.lean ====
section
/-! DEFINITION. The codebook and system commands, OPC high nibble 0x0 (R130-R133). -/

namespace Sys2Proof.Machine

/-- NOP (R130). -/
def execNop (s : State) : Host.Outcome State Fault Refusal := .next (s.finish .ok)

/-- CB_CLEAR (R131). -/
def execCbClear (s : State) : Host.Outcome State Fault Refusal :=
  .next ({ s with codebook := Codebook.cleared }.finish .ok)

/-- CB_WRITE s (R132). -/
def execCbWrite (sym : Symbol) (s : State) : Host.Outcome State Fault Refusal :=
  .next ({ s with codebook := s.codebook.put sym (entryOfStage s.cbLen (stage s.cbCode)) }.finish .ok)

/-- CB_READ s (R133; R33 and R282 name the same registers as its result). -/
def execCbRead (sym : Symbol) (s : State) : Host.Outcome State Fault Refusal :=
  let e := s.codebook.get sym
  .next ({ s with cbLen := e.len, cbCode := unstage (e.code.setWidth 256) }.finish .ok)

end Sys2Proof.Machine
end

