-- ==== Sys2Proof/Machine/HostBus.lean ====
section
/-! DEFINITION. The two bus transactions of the host (R98, R110, R111). -/

namespace Sys2Proof.Machine

/-- What BUS_RD answers while BUSY = 1 (R110, R116): the constants and the live part of STATUS, and a draw for all else. -/
def busyRead (a : RegAddr) (s : State) : Host.Outcome State Fault Refusal :=
  match regOfAddr a with
  | some .name0 => .next (s.reply name0Word)
  | some .name1 => .next (s.reply name1Word)
  | some .version => .next (s.reply versionWord)
  | some .status => .next ((s.reply (s.statusBusy (Config.freeNibble s.draws))).nextDraw)
  | _ => .next ((s.reply (Config.freeWord s.draws)).nextDraw)

/-- BUS_RD a (R110): the word returned goes to `replies` and nothing of the block changes (R68). -/
def execBusRd (a : RegAddr) (s : State) : Host.Outcome State Fault Refusal :=
  if s.busy then busyRead a s
  else
    match regOfAddr a with
    | none => .next (s.reply 0)
    | some r =>
      match readReg s r with
      | .error f => .fault f
      | .ok v => .next (s.reply v)

/-- BUS_WR a, d (R111): while BUSY it sets DROPPED and nothing else (R28). -/
def execBusWr (a : RegAddr) (d : Word) (s : State) : Host.Outcome State Fault Refusal :=
  if s.busy then .next { s with dropped := true }
  else
    match regOfAddr a with
    | none => .next s
    | some r => .next (writeReg d s r)

end Sys2Proof.Machine
end

