-- ==== Sys2Proof/Machine/Reader.lean ====
section
/-! DEFINITION. The reader (bit-unpacker) commands, OPC high nibble 0x2 (R180, R181, R186, R188). The checks stand in the
order of R246. -/

namespace Sys2Proof.Machine

/-- R_INIT (R180). -/
def execRInit (s : State) : Host.Outcome State Fault Refusal :=
  if s.rNbits.toNat > s.cfg.payloadBits then .next (s.finish .badOperand)
  else .next ({ s with rBitpos := 0, rSymcnt := 0, rBit := 0, rSym := 0, rstate := .active }.finish .ok)

/-- R_GETBIT (R181). -/
def execRGetbit (s : State) : Host.Outcome State Fault Refusal :=
  if s.rstate ≠ .active then .next (s.finish .badState)
  else
    match readBit s with
    | .stopped f => .fault f
    | .ended s' => .next s'
    | .ok b s' => .next ({ s' with rBit := BitVec.ofBool b }.finish .ok)

/-- R_DECSYM (R186). -/
def execRDecsym (s : State) : Host.Outcome State Fault Refusal :=
  if s.rstate ≠ .active then .next (s.finish .badState)
  else if s.origLen.toNat ≤ s.rSymcnt.toNat then .next (s.finish .countReached)
  else
    match decodeStep s with
    | .stopped f => .fault f
    | .ended s' => .next s'
    | .ok sym s' => .next ((emit sym s').finish .ok)

/-- The loop of R_DECODE with `left = ORIG_LEN - R_SYMCNT` symbols to go (R188, log 16). -/
def decodeLoop : Nat → State → Host.Outcome State Fault Refusal
  | 0, s => .next (s.finish .ok)
  | left + 1, s =>
    match decodeStep s with
    | .stopped f => .fault f
    | .ended s' => .next s'
    | .ok sym s' => decodeLoop left (emit sym s')

/-- R_DECODE (R188). -/
def execRDecode (s : State) : Host.Outcome State Fault Refusal :=
  if s.rstate ≠ .active then .next (s.finish .badState)
  else if s.origLen.toNat > s.cfg.dataBytes then .next (s.finish .badOperand)
  else decodeLoop (s.origLen.toNat - s.rSymcnt.toNat) s

end Sys2Proof.Machine
end

