-- ==== Sys2Proof/Machine/Writer.lean ====
section
/-! DEFINITION. The writer (bit-packer) commands, OPC high nibble 0x1 (R150, R154-R162). The checks stand in the order of
R246. -/

namespace Sys2Proof.Machine

/-- W_INIT (R150). -/
def execWInit (s : State) : Host.Outcome State Fault Refusal :=
  .next ({ s with wBitcnt := 0, wPad := 0, wDatapos := 0, wstate := .opened }.finish .ok)

/-- An append of the L bits of v that has passed the command's own checks: PAYLOAD_FULL where it does not fit, else the
bits and success (R152, R153). -/
def appendAll {w : Nat} (len : Nat) (v : BitVec w) (s : State) : Host.Outcome State Fault Refusal :=
  if !s.fits len then .next (s.finish .payloadFull)
  else
    match appendCode v len s with
    | .error f => .fault f
    | .ok s' => .next (s'.finish .ok)

/-- W_PUTBIT b (R154). -/
def execWPutbit (b : Bool) (s : State) : Host.Outcome State Fault Refusal :=
  if s.wstate ≠ .opened then .next (s.finish .badState)
  else if !s.fits 1 then .next (s.finish .payloadFull)
  else
    match appendBit b s with
    | .error f => .fault f
    | .ok s' => .next (s'.finish .ok)

/-- W_PUTBITS n (R156). -/
def execWPutbits (n : BitVec 8) (s : State) : Host.Outcome State Fault Refusal :=
  if s.wstate ≠ .opened then .next (s.finish .badState)
  else if n.toNat = 0 ∨ n.toNat > 32 then .next (s.finish .badOperand)
  else appendAll n.toNat s.wBitsval s

/-- W_PUTSYM s (R158). -/
def execWPutsym (sym : Symbol) (s : State) : Host.Outcome State Fault Refusal :=
  let e := s.codebook.get sym
  if s.wstate ≠ .opened then .next (s.finish .badState)
  else if e.len.toNat = 0 then .next (s.finish .noCode)
  else appendAll e.len.toNat e.code s

/-- The loop of W_ENCODE at byte `i` with `left = N - i` bytes to go (R160). -/
def encodeLoop : Nat → Nat → State → Host.Outcome State Fault Refusal
  | 0, i, s => .next ({ s with wDatapos := BitVec.ofNat 32 i }.finish .ok)
  | left + 1, i, s =>
    let s1 := { s with wDatapos := BitVec.ofNat 32 i }
    match s1.data.read i with
    | none => .fault (.unwritten .data i)
    | some sym =>
      let e := s1.codebook.get sym
      if e.len.toNat = 0 then .next (s1.finish .noCode)
      else if !s1.fits e.len.toNat then .next (s1.finish .payloadFull)
      else
        match appendCode e.code e.len.toNat s1 with
        | .error f => .fault f
        | .ok s2 => encodeLoop left (i + 1) s2

/-- W_ENCODE (R160). -/
def execWEncode (s : State) : Host.Outcome State Fault Refusal :=
  if s.wstate ≠ .opened then .next (s.finish .badState)
  else if s.wDatalen.toNat > s.cfg.dataBytes then .next (s.finish .badOperand)
  else encodeLoop s.wDatalen.toNat 0 { s with wDatapos := 0 }

/-- W_FINAL (R162). -/
def execWFinal (s : State) : Host.Outcome State Fault Refusal :=
  if s.wstate ≠ .opened then .next (s.finish .badState)
  else .next ({ s with wPad := padCount s.wBitcnt, wstate := .final }.finish .ok)

end Sys2Proof.Machine
end

