-- ==== Sys2Proof/Machine/Dispatch.lean ====
section
/-! DEFINITION. One arm per instruction. -/

namespace Sys2Proof.Machine

def exec (i : Instr) (s : State) : Host.Outcome State Fault Refusal :=
  match i with
  -- codebook and system commands (41_codebook.md)
  | .nop => Sys2Proof.Machine.execNop s
  | .cbClear => Sys2Proof.Machine.execCbClear s
  | .cbWrite sym => Sys2Proof.Machine.execCbWrite sym s
  | .cbRead sym => Sys2Proof.Machine.execCbRead sym s
  -- writer commands (42_writer.md)
  | .wInit => Sys2Proof.Machine.execWInit s
  | .wPutbit b => Sys2Proof.Machine.execWPutbit b s
  | .wPutbits n => Sys2Proof.Machine.execWPutbits n s
  | .wPutsym sym => Sys2Proof.Machine.execWPutsym sym s
  | .wEncode => Sys2Proof.Machine.execWEncode s
  | .wFinal => Sys2Proof.Machine.execWFinal s
  -- reader commands (43_reader.md)
  | .rInit => Sys2Proof.Machine.execRInit s
  | .rGetbit => Sys2Proof.Machine.execRGetbit s
  | .rDecsym => Sys2Proof.Machine.execRDecsym s
  | .rDecode => Sys2Proof.Machine.execRDecode s
  -- bus transactions (40_host_bus.md)
  | .busRd a => Sys2Proof.Machine.execBusRd a s
  | .busWr a d => Sys2Proof.Machine.execBusWr a d s

end Sys2Proof.Machine
end

