-- ==== Sys2Proof/Machine/Engine.lean ====
section
/-! DEFINITION. The turns of the three agents (R71, R117, R271), and where the next instruction is placed. -/

namespace Sys2Proof.Machine

/-- `perform(decode(w))` (R117): the decoded command, or `perform(ILLEGAL(opc)) = finish(1)` (R94, R248, log 12). -/
def perform (w : Word) (s : State) : Host.Outcome State Fault Refusal :=
  match decodeCmd w with
  | .ok i => exec i s
  | .error _ => .next (s.finish .illegalCmd)

/-- The engine step, "enabled iff reg.STATUS.BUSY = 1" (R117). With BUSY = 0 a turn of the engine changes nothing: an idle
block keeps all its state (R259, log 2). -/
def engineTurn (s : State) : Host.Outcome State Fault Refusal :=
  match s.pending with
  | some w => perform w s
  | none => .next s

/-- A bus transaction of the host (R98). -/
def hostTurn (q : BusReq) (s : State) : Host.Outcome State Fault Refusal := exec (decodeBus q) s

/-- The reset event (R270, R271). The build's parameters stay, and so does what lies outside the block: the inputs still
to come, the words the host has read, and the draws used up (log 8). -/
def resetTurn (s : State) : Host.Outcome State Fault Refusal :=
  .next { State.resetWith s.cfg with inputs := s.inputs, replies := s.replies, draws := s.draws }

/-- The next turn: the first input, taken off the list; with none left, the engine's (log 2). -/
def nextTurn (s : State) : Host.Outcome State Fault Refusal :=
  match s.inputs with
  | [] => engineTurn s
  | .bus q :: rest => hostTurn q { s with inputs := rest }
  | .engine :: rest => engineTurn { s with inputs := rest }
  | .reset :: rest => resetTurn { s with inputs := rest }

/-- A command word placed where the engine fetches it: issued as R113 issues it, the engine's turn next (log 3). -/
def State.placeCommand (w : Word) (s : State) : State := { s.issue w with inputs := .engine :: s.inputs }

/-- A bus transaction placed as the host's next turn (log 3). -/
def State.placeBus (q : BusReq) (s : State) : State := { s with inputs := .bus q :: s.inputs }

/-- A word of a table row placed as the next instruction: a command with the engine, a transaction on the bus. A word of a
bus format whose we bit is wrong is no transaction and is not placed. -/
def State.placeRaw (r : RawWord) (s : State) : State :=
  match r with
  | .cmdw w => s.placeCommand w
  | .busRd w => if r.wf then s.placeBus (busRdPins w) else s
  | .busWr w => if r.wf then s.placeBus (busWrPins w) else s

end Sys2Proof.Machine
end

