-- ==== Sys2Proof/Machine/Step.lean ====
section
/-! DEFINITION. One step of the machine, and the placing of the next instruction. -/

namespace Sys2Proof.Machine

/-- One step: the next turn of the host, the engine or reset. -/
def step (s : State) : Host.Outcome State Fault Refusal := nextTurn s

/-- `s` with the instruction of a table word placed so that the very next step runs it. -/
def State.withFetchWord (s : State) (nbits w : Nat) : State :=
  match rawOfTableWord nbits w with
  | none => s
  | some r => s.placeRaw r

end Sys2Proof.Machine
end

