-- ==== Sys2Proof/Machine/HostProgram.lean ====
section
/-! DEFINITION. The host-program notation and its pseudo-instructions (R100-R104), as lists of inputs. A WAIT polls STATUS
`polls` times while the engine is busy, takes the engine's turn and polls once more: the duration of a command is
unspecified (R290), so `polls` is an argument (log 14). -/

namespace Sys2Proof.Machine

/-- `WR a, v` (R100). -/
def wr (r : Reg) (v : Word) : Input := .bus { we := true, address := regAddr r, writeData := v }

/-- `RD a` (R100); the word comes back in `replies`. -/
def rd (r : Reg) : Input := .bus { we := false, address := regAddr r, writeData := 0 }

/-- How the host gives instruction `i`: a command by a write of its word to CMD (`CMD op, a`, R101), a bus transaction by
its pins (R98). -/
def give (i : Instr) : Input :=
  match encode i with
  | .cmdw w => wr .cmd w
  | .busRd w => .bus (busRdPins w)
  | .busWr w => .bus (busWrPins w)

/-- `WAIT` (R102): polls of STATUS until BUSY = 0. -/
def wait (polls : Nat) : List Input := List.replicate polls (rd .status) ++ [.engine, rd .status]

/-- `CMDW op, a` (R102). -/
def cmdw (polls : Nat) (i : Instr) : List Input := give i :: wait polls

/-- `EXPECT e` (R102), on the STATUS word that was read. -/
def expect (e : ErrCode) (st : Word) : Bool := st.extractLsb' 4 4 == e.code

/-- The code of a bit string as an integer, its first bit at the top (R33, R65, R103). -/
def codeValue (bits : List Bool) : Nat := bits.foldl (fun v b => v <<< 1 ||| b.toNat) 0

/-- `CBLOAD s, L, c` (R103), with L the length of c; all eight staging words are written. -/
def cbload (polls : Nat) (sym : Symbol) (bits : List Bool) : List Input :=
  let v := BitVec.ofNat 256 (codeValue bits)
  wr .cbLen (BitVec.ofNat 32 bits.length)
    :: (List.ofFn fun k : Fin 8 => wr (.cbCode k) (v.extractLsb' (32 * k.val) 32)) ++ cmdw polls (.cbWrite sym)

/-- `PLLOAD a, [b0, b1, ...]` (R104). -/
def plload : Nat → List Byte → List Input
  | _, [] => []
  | a, b :: rest => wr .plAddr (BitVec.ofNat 32 a) :: wr .plData (b.setWidth 32) :: plload (a + 1) rest

/-- `DTLOAD a, [...]` (R104). -/
def dtload : Nat → List Byte → List Input
  | _, [] => []
  | a, b :: rest => wr .dtAddr (BitVec.ofNat 32 a) :: wr .dtData (b.setWidth 32) :: dtload (a + 1) rest

/-- `PLDUMP a, n` (R104). -/
def pldump (a n : Nat) : List Input :=
  (List.range n).flatMap fun i => [wr .plAddr (BitVec.ofNat 32 (a + i)), rd .plData]

/-- `DTDUMP a, n` (R104). -/
def dtdump (a n : Nat) : List Input :=
  (List.range n).flatMap fun i => [wr .dtAddr (BitVec.ofNat 32 (a + i)), rd .dtData]

/-- `WR64 ORIG_LEN, v` (R104). -/
def wr64OrigLen (v : BitVec 64) : List Input :=
  [wr .origLenLo (v.extractLsb' 0 32), wr .origLenHi (v.extractLsb' 32 32)]

end Sys2Proof.Machine
end

