-- ==== Sys2Proof/Machine/Tree.lean ====
section
/-! DEFINITION. The reference firmware's data model and precomputation: frequency table, tree builder, codebook derivation
(R210-R218), and the tree walk of §4.6 over the payload (R184). Not hardware (R5, log 15). -/

namespace Sys2Proof.Machine

/-- A node of the tree (R210). -/
inductive Node where
  | leaf (s : Symbol) (weight : Nat)
  | internal (weight : Nat) (left right : Node)
  deriving DecidableEq, Repr

/-- A tree: one whose internal nodes all have two children, or the one-leaf tree, an internal root with the leaf as its
left child and no right child (R212, R217). -/
inductive Tree where
  | full (root : Node)
  | oneLeaf (s : Symbol) (weight : Nat)
  deriving DecidableEq, Repr

/-- A frequency table: the symbols with count > 0, in ascending order, with their counts (R210, R213). -/
abbrev FrequencyTable := List (Symbol × Nat)

/-- Symbols and their codes, each code first bit first (R15, R218). -/
abbrev CodeTable := List (Symbol × List Bool)

/-- The alphabet 0..255 in ascending order (R8). -/
def allSymbols : List Symbol := (List.range 256).map (BitVec.ofNat 8)

/-- `freq(x)` with the zero counts left out (R213). -/
def freq (x : List Byte) : FrequencyTable := (allSymbols.map fun s => (s, x.count s)).filter fun e => 0 < e.2

/-- The weight of a node (R210). -/
def Node.weight : Node → Nat
  | .leaf _ w => w
  | .internal w _ _ => w

/-- A node in the queue with its sequence number (R215). -/
structure QueueItem where
  node : Node
  seq : Nat
  deriving DecidableEq, Repr

/-- "Node A is **lower** than node B iff (A.weight, A.seq) < (B.weight, B.seq) lexicographically" (R215). -/
def QueueItem.lower (a b : QueueItem) : Bool :=
  a.node.weight < b.node.weight || (a.node.weight == b.node.weight && a.seq < b.seq)

/-- Insertion into a queue kept lowest first. -/
def enqueue (a : QueueItem) : List QueueItem → List QueueItem
  | [] => [a]
  | b :: rest => if a.lower b then a :: b :: rest else b :: enqueue a rest

/-- The merge loop of R216: the first node removed becomes the left child. `fuel` bounds the merges, of which there are
one fewer than the nodes. -/
def mergeLoop : Nat → Nat → List QueueItem → Option Node
  | _, _, [] => none
  | _, _, [a] => some a.node
  | 0, _, _ :: _ :: _ => none
  | fuel + 1, next, a :: b :: rest =>
    mergeLoop fuel (next + 1)
      (enqueue { node := .internal (a.node.weight + b.node.weight) a.node b.node, seq := next } rest)

/-- The k leaves in the queue, with seq 0 .. k-1 in ascending symbol order (R215). -/
def leafQueue (f : FrequencyTable) : List QueueItem :=
  (f.zipIdx.map fun e => ({ node := .leaf e.1.1 e.1.2, seq := e.2 } : QueueItem)).foldr enqueue []

/-- `buildTree(F)` (R214, R216, R217); no tree for the empty table. -/
def buildTree (f : FrequencyTable) : Option Tree :=
  match f with
  | [] => none
  | [(s, w)] => some (.oneLeaf s w)
  | _ :: _ :: _ => (mergeLoop f.length f.length (leafQueue f)).map .full

/-- The entries of a code table in ascending symbol order, `for s in 0 .. 255 with s in C` (R219). -/
def CodeTable.ascending (c : CodeTable) : CodeTable := allSymbols.filterMap fun s => c.find? fun e => e.1 == s

/-- `walk` of R218 below a node whose path is `path`. -/
def Node.codes : Node → List Bool → CodeTable
  | .leaf s _, path => [(s, path)]
  | .internal _ l r, path => l.codes (path ++ [false]) ++ r.codes (path ++ [true])

/-- `codebook(T)` (R218): left = 0, right = 1; an absent child contributes nothing. -/
def Tree.codes : Tree → CodeTable
  | .full root => root.codes []
  | .oneLeaf s _ => [(s, [false])]

/-- The codebook of a frequency table, empty for the empty table (R221, R226); it is the function whose properties R220
lists. -/
def codesOf (f : FrequencyTable) : CodeTable :=
  match buildTree f with
  | none => []
  | some t => t.codes

/-- The walk of §4.6 from a node: "repeatedly read one bit from BitReader, descend left on `0` / right on `1`", to a leaf,
whose symbol it emits (R184). -/
def Node.descend : Node → State → Prim Symbol
  | .leaf s _, st => .ok s st
  | .internal _ l r, st =>
    match readBit st with
    | .stopped f => .stopped f
    | .ended st' => .ended st'
    | .ok b st' => if b then r.descend st' else l.descend st'

/-- The walk of §4.6 from the root (R184). A bit that leads to the missing child of the one-leaf tree is OFF_CODE. -/
def Tree.descend : Tree → State → Prim Symbol
  | .full root, st => root.descend st
  | .oneLeaf s _, st =>
    match readBit st with
    | .stopped f => .stopped f
    | .ended st' => .ended st'
    | .ok b st' => if b then .ended (st'.failReader .offCode) else .ok s st'

/-- The codebook RAM that holds a code table and nothing else (R219). A later entry of a symbol replaces an earlier. -/
def Codebook.ofCodes (c : CodeTable) : Codebook :=
  c.foldl (fun cb e => cb.put e.1 { len := BitVec.ofNat 8 e.2.length, code := BitVec.ofNat 255 (codeValue e.2) })
    Codebook.cleared

end Sys2Proof.Machine
end

