-- ==== Sys2Proof/Machine/Container.lean ====
section
/-! DEFINITION. The reference firmware's container: its bit-exact layout and its header checks (R224, R228). Not hardware
(R5, log 15). -/

namespace Sys2Proof.Machine

/-- Why the firmware fails (R223, R229), or why the block stopped under it. -/
inductive FwError where
  /-- InvalidFormatError (R228, R229). -/
  | invalidFormat
  /-- CorruptPayloadError (R229). -/
  | corruptPayload
  /-- CapacityError, a limit of the build (R223, R226). -/
  | capacity
  /-- "Any other nonzero ERR is a firmware fault" (R229). -/
  | firmwareFault
  /-- The block stopped at a byte without a value (R63). -/
  | stopped (f : Fault)
  /-- The block refused an instruction. -/
  | refused (r : Refusal)
  deriving DecidableEq, Repr

/-- The fields of a container (R224). symbol_count is the length of the table. -/
structure Container where
  originalLength : BitVec 64
  symbolTable : List (Symbol × Word)
  paddingBits : Byte
  payload : List Byte
  deriving DecidableEq, Repr

/-- A big-endian integer of `n` bytes (R224). -/
def beBytes : Nat → Nat → List Byte
  | 0, _ => []
  | n + 1, v => BitVec.ofNat 8 (v / 256 ^ n) :: beBytes n v

/-- The value of big-endian bytes (R224). -/
def beValue (b : List Byte) : Nat := b.foldl (fun v x => v * 256 + x.toNat) 0

/-- The magic bytes, 0x48 0x55 0x46 0x46 (R224). -/
def magicBytes : List Byte := [0x48, 0x55, 0x46, 0x46]

/-- The version byte (R224). -/
def versionByte : Byte := 0x01

/-- The bytes of a container (R224). -/
def Container.bytes (c : Container) : List Byte :=
  magicBytes ++ [versionByte] ++ beBytes 8 c.originalLength.toNat ++ beBytes 2 c.symbolTable.length
    ++ c.symbolTable.flatMap (fun e => e.1 :: beBytes 4 e.2.toNat) ++ [c.paddingBits] ++ c.payload

/-- `k` entries of the symbol table, five bytes each (R224). -/
def parseTable : Nat → List Byte → List (Symbol × Word)
  | 0, _ => []
  | k + 1, b => (b.headD 0, BitVec.ofNat 32 (beValue ((b.drop 1).take 4))) :: parseTable k (b.drop 5)

/-- The symbols of a table are strictly ascending (R228 check 5). -/
def strictlyAscending (t : List (Symbol × Word)) : Bool := decide (t.Pairwise fun a b => a.1.toNat < b.1.toNat)

/-- The header checks of R228, in its order, and the parsed container. -/
def parseContainer (b : List Byte) : Except FwError Container :=
  let n := BitVec.ofNat 64 (beValue ((b.drop 5).take 8))
  let k := beValue ((b.drop 13).take 2)
  let table := parseTable k (b.drop 15)
  let pad := (b.drop (15 + 5 * k)).headD 0
  if b.length < 15 ∨ b.length < 16 + 5 * k then .error .invalidFormat
  else if b.take 4 ≠ magicBytes then .error .invalidFormat
  else if b[4]? ≠ some versionByte then .error .invalidFormat
  else if k > 256 then .error .invalidFormat
  else if !strictlyAscending table then .error .invalidFormat
  else if table.any (fun e => e.2 == 0) then .error .invalidFormat
  else if (k = 0 ∧ n ≠ 0) ∨ (k ≠ 0 ∧ n = 0) then .error .invalidFormat
  else if (table.map fun e => e.2.toNat).sum ≠ n.toNat then .error .invalidFormat
  else if pad.toNat > 7 then .error .invalidFormat
  else .ok { originalLength := n, symbolTable := table, paddingBits := pad, payload := b.drop (16 + 5 * k) }

end Sys2Proof.Machine
end

