-- ==== Sys2Proof/Machine/Firmware.lean ====
section
/-! DEFINITION. The reference firmware on the block: encode and decode (R219, R221-R223, R226, R229, R230), as host programs
run by the machine's own step. Not hardware (R5, log 15). -/

namespace Sys2Proof.Machine

/-- The block run on a list of inputs, one step each; whatever inputs the state held are replaced. -/
def runInputs : List Input → State → Except FwError State
  | [], s => .ok s
  | i :: rest, s =>
    match step { s with inputs := [i] } with
    | .next s' => runInputs rest s'
    | .fault f => .error (.stopped f)
    | .refused r => .error (.refused r)

/-- `RD a -> x`: the word the block returned. -/
def readWord (r : Reg) (s : State) : Except FwError (Word × State) :=
  match runInputs [rd r] s with
  | .error e => .error e
  | .ok s' => .ok (s'.replies.headD 0, s')

/-- `CMDW op, a`, and the ERR field of its last STATUS read (R102). -/
def command (polls : Nat) (i : Instr) (s : State) : Except FwError (BitVec 4 × State) :=
  match runInputs (cmdw polls i) s with
  | .error e => .error e
  | .ok s' => .ok ((s'.replies.headD 0).extractLsb' 4 4, s')

/-- The firmware's error for a result code (R229); none for OK. PAYLOAD_FULL is CapacityError (R221, R223). -/
def errorOf (err : BitVec 4) : Option FwError :=
  if err = ErrCode.ok.code then none
  else if err = ErrCode.exhausted.code ∨ err = ErrCode.offCode.code then some .corruptPayload
  else if err = ErrCode.emptyCodebook.code then some .invalidFormat
  else if err = ErrCode.payloadFull.code then some .capacity
  else some .firmwareFault

/-- A command whose error ends the call: "A real firmware checks ERR after each command" (R221). -/
def checked (polls : Nat) (i : Instr) (s : State) : Except FwError State :=
  match command polls i s with
  | .error e => .error e
  | .ok (err, s') =>
    match errorOf err with
    | some e => .error e
    | none => .ok s'

/-- `checked` for each instruction of a list. -/
def checkedAll (polls : Nat) : List Instr → State → Except FwError State
  | [], s => .ok s
  | i :: rest, s =>
    match checked polls i s with
    | .error e => .error e
    | .ok s' => checkedAll polls rest s'

/-- `loadCodebook(C)` (R219), in ascending symbol order. -/
def loadCodebook (polls : Nat) (c : CodeTable) (s : State) : Except FwError State :=
  runInputs (cmdw polls .cbClear ++ (CodeTable.ascending c).flatMap fun e => cbload polls e.1 e.2) s

/-- `n` dumped bytes, in order: the last of the replies, each a zero-extended byte (R45, R104). -/
def dumped (n : Nat) (s : State) : List Byte := ((s.replies.take n).reverse).map fun w => w.extractLsb' 0 8

/-- `encode(x)` on the block (R221). -/
def fwEncode (polls : Nat) (x : List Byte) (s : State) : Except FwError (List Byte × State) := do
  let f := freq x
  if f.any (fun e => decide (e.2 > 2 ^ 32 - 1)) then throw .capacity
  let s ← loadCodebook polls (codesOf f) s
  let s ← checked polls .wInit s
  let s ←
    if x.length ≤ s.cfg.dataBytes then do
      let s ← runInputs (dtload 0 x ++ [wr .wDatalen (BitVec.ofNat 32 x.length)]) s
      checked polls .wEncode s
    else checkedAll polls (x.map .wPutsym) s
  let s ← checked polls .wFinal s
  let (bitcnt, s) ← readWord .wBitcnt s
  let (pad, s) ← readWord .wPad s
  let p := (bitcnt.toNat + 7) / 8
  let s ← runInputs (pldump 0 p) s
  let c : Container :=
    { originalLength := BitVec.ofNat 64 x.length
      symbolTable := f.map fun e => (e.1, BitVec.ofNat 32 e.2)
      paddingBits := pad.extractLsb' 0 8
      payload := dumped p s }
  return (c.bytes, s)

/-- The valid-bit count the firmware declares (R230). -/
def nbits (p pad : Nat) : Nat := if 8 * p ≥ pad then 8 * p - pad else 0

/-- The streamed decode of R226: `n` times R_DECSYM, then a read of R_SYM. -/
def decodeStream (polls : Nat) : Nat → State → Except FwError (List Byte × State)
  | 0, s => .ok ([], s)
  | n + 1, s => do
    let s ← checked polls .rDecsym s
    let (w, s) ← readWord .rSym s
    let (out, s) ← decodeStream polls n s
    return (w.extractLsb' 0 8 :: out, s)

/-- `decode(c)` on the block (R226). -/
def fwDecode (polls : Nat) (b : List Byte) (s : State) : Except FwError (List Byte × State) := do
  let c ← parseContainer b
  let n := c.originalLength.toNat
  if c.payload.length > s.cfg.payloadBytes then throw .capacity
  let s ← loadCodebook polls (codesOf (c.symbolTable.map fun e => (e.1, e.2.toNat))) s
  let s ← runInputs (plload 0 c.payload) s
  let s ← runInputs (wr .rNbits (BitVec.ofNat 32 (nbits c.payload.length c.paddingBits.toNat))
    :: wr64OrigLen c.originalLength) s
  let s ← checked polls .rInit s
  if n ≤ s.cfg.dataBytes then do
    let s ← checked polls .rDecode s
    let s ← runInputs (dtdump 0 n) s
    return (dumped n s, s)
  else decodeStream polls n s

end Sys2Proof.Machine
end

