-- ==== Sys2Proof/Safety.lean ====
section
/-! DEFINITION. The terms the claims use: the invariant of the block, what an append leaves in the payload, and codes as bit
sequences. -/

namespace Sys2Proof.Machine

/-- The low `n` bits of `v`, the most significant first: the order in which they are appended and matched (R65, R153). -/
def msbFirst {w : Nat} (v : BitVec w) (n : Nat) : List Bool := (List.range n).map fun j => v.getLsbD (n - 1 - j)

/-- The code of an entry as a bit sequence, root bit first (R47, R48); empty for an invalid entry. -/
def CbEntry.bits (e : CbEntry) : List Bool := msbFirst e.code e.len.toNat

/-- "The invariant is code[254:len] = 0" (R47). -/
abbrev CbEntry.wf (e : CbEntry) : Prop := e.code.toNat < 2 ^ e.len.toNat

/-- "The set of codes is prefix-free — no code is a proper prefix of another" and no two symbols share one (R132, R134). -/
def Codebook.PrefixFree (cb : Codebook) : Prop :=
  ∀ a b : Symbol, (cb.get a).len ≠ 0 → (cb.get a).bits <+: (cb.get b).bits → a = b

/-- The concatenated codes of a list of symbols (R164). -/
def Codebook.stream (cb : Codebook) (syms : List Symbol) : List Bool := syms.flatMap fun a => (cb.get a).bits

/-- `a` is what a decode step returns at the bits of its own code: it has a code, and any code that is a prefix of it is the
whole of it and belongs to no lower symbol (R183). In a prefix-free codebook every coded symbol is (R134). -/
def Codebook.Decodes (cb : Codebook) (a : Symbol) : Prop :=
  (cb.get a).len ≠ 0 ∧
    ∀ b : Symbol, (cb.get b).len ≠ 0 → (cb.get b).bits <+: (cb.get a).bits →
      (cb.get b).len = (cb.get a).len ∧ a.toNat ≤ b.toNat

/-- Payload bits p, p+1, … are `bits` (R64). -/
def State.holdsBits (s : State) (p : Nat) (bits : List Bool) : Prop :=
  ∀ i, i < bits.length → s.payloadBit (p + i) = bits[i]?

/-- Data RAM bytes a, a+1, … are `syms` (R62). -/
def State.holdsData (s : State) (a : Nat) (syms : List Symbol) : Prop :=
  ∀ i, i < syms.length → s.data.read (a + i) = syms[i]?

/-- The bit that AppendBit leaves at stream position q when it puts b there: b alone in a byte the append starts, b ORed
with what the byte held in the partly filled byte (R151, R283). -/
def State.mergedBit (s : State) (q : Nat) (b : Bool) : Bool :=
  b || (decide (s.wBitcnt.toNat % 8 ≠ 0) && decide (q / 8 = s.wBitcnt.toNat / 8) && (s.payloadBit q == some true))

/-- `t` is `s` with `bits` appended at W_BITCNT, as far as PL and W_BITCNT go (R151, R153): every bit below is as it was,
every bit of the bytes the append touches is the merged bit, with zeros after the last appended, and every other byte is
as it was. -/
def State.Appended (s t : State) (bits : List Bool) : Prop :=
  t.wBitcnt.toNat = s.wBitcnt.toNat + bits.length ∧
  (∀ q, q < s.wBitcnt.toNat → t.payloadBit q = s.payloadBit q) ∧
  (∀ q, s.wBitcnt.toNat ≤ q → 8 * (q / 8) < s.wBitcnt.toNat + bits.length →
    t.payloadBit q = some (s.mergedBit q (bits.getD (q - s.wBitcnt.toNat) false))) ∧
  (∀ a, a < s.wBitcnt.toNat / 8 ∨ s.wBitcnt.toNat + bits.length ≤ 8 * a → t.payload.read a = s.payload.read a)

/-- The bits of the partly filled byte that are not yet written are 0 (R50, invariant 3). The host can break it (R283). -/
def State.ZeroTail (s : State) : Prop :=
  s.wBitcnt.toNat % 8 ≠ 0 →
    ∀ q, s.wBitcnt.toNat ≤ q → q / 8 = s.wBitcnt.toNat / 8 → s.payloadBit q = some false

/-- Stream bits 0 .. W_BITCNT-1 (R50, invariant 2; R164), no value for a bit whose byte has none. -/
def State.streamBits (s : State) : List (Option Bool) := (List.range s.wBitcnt.toNat).map s.payloadBit

/-- What a successful command appends to the stream (R164). -/
def appendedBits (i : Instr) (s : State) : List Bool :=
  match i with
  | .wPutbit b => [b]
  | .wPutbits n => msbFirst s.wBitsval n.toNat
  | .wPutsym a => (s.codebook.get a).bits
  | .wEncode => s.codebook.stream ((List.range s.wDatalen.toNat).map fun j => (s.data.read j).getD 0)
  | .nop | .cbClear | .cbWrite _ | .cbRead _ | .wInit | .wFinal => []
  | .rInit | .rGetbit | .rDecsym | .rDecode | .busRd _ | .busWr _ _ => []

/-- `Packs is s bits t`: the instructions run one after another from `s` to `t`, each ending with ERR = 0, and `bits` is the
concatenation of what they append (R164). -/
def Packs : List Instr → State → List Bool → State → Prop
  | [], s, bits, t => s = t ∧ bits = []
  | i :: rest, s, bits, t =>
    ∃ s' more, exec i s = .next s' ∧ s'.err = .ok ∧ bits = appendedBits i s ++ more ∧ Packs rest s' more t

/-- The invariant of the block: what R36, R37, R38, R47, R50 and R52 say of every state a run reaches, with the canonical
form of the RAMs and the legal range of the parameters. -/
structure State.Inv (s : State) : Prop where
  /-- R8. -/
  cfgLegal : s.cfg.Legal
  /-- The payload RAM is in canonical form. -/
  payloadWf : s.payload.wf
  /-- PL has the addresses 0 .. PAYLOAD_BYTES-1 (R61). -/
  payloadWithin : ∀ c ∈ s.payload, c.1 < s.cfg.payloadBytes
  /-- The data RAM is in canonical form. -/
  dataWf : s.data.wf
  /-- DT has the addresses 0 .. DATA_BYTES-1 (R62). -/
  dataWithin : ∀ c ∈ s.data, c.1 < s.cfg.dataBytes
  /-- `code[254:len] = 0` in every entry (R47). -/
  codebookWf : ∀ a : Symbol, (s.codebook.get a).wf
  /-- `W_BITCNT ≤ 8 × PAYLOAD_BYTES` (R50, invariant 1). -/
  bitcnt : s.wBitcnt.toNat ≤ s.cfg.payloadBits
  /-- The partly filled byte has a value (R151). -/
  partialByte : s.wBitcnt.toNat % 8 ≠ 0 → (s.payload.read (s.wBitcnt.toNat / 8)).isSome
  /-- `W_PAD = 0` unless WSTATE = FINAL (R50, invariant 4). -/
  padOpen : s.wstate ≠ .final → s.wPad = 0
  /-- W_PAD is the padding count once the stream is closed (R37). -/
  padFinal : s.wstate = .final → s.wPad.toNat = (8 - s.wBitcnt.toNat % 8) % 8
  /-- W_DATAPOS is an index into DT or its end (R38, R160). -/
  datapos : s.wDatapos.toNat ≤ s.cfg.dataBytes
  /-- `R_BITPOS ≤ 8 × PAYLOAD_BYTES` (R52, invariant 1). -/
  bitpos : s.rBitpos.toNat ≤ s.cfg.payloadBits
  /-- `R_SYMCNT ≤ R_BITPOS` (R52, invariant 2). -/
  symcnt : s.rSymcnt.toNat ≤ s.rBitpos.toNat
  /-- While a command is in progress ERR is 0 (R29, R113, R116). -/
  busyErr : s.busy = true → s.err = .ok

end Sys2Proof.Machine
end

