-- ==== Sys2Proof/Certificates/Slice0/Obligations.lean ====
section
/-! DEFINITION. The statements for the provers. Each docstring names the rules of spec/ it formalises or rests on.
`next t` with `t = { s with … }` is a frame: every field not named is unchanged. -/

open Sys2Proof Sys2Proof.Machine

/-! ### Encoding -/

/-- Encoding and decoding agree in both directions (30_encoding.md §1-§4): every instruction is read back from its words, and
a word that decodes to `i` is `encode i` on the bits `i` uses, so no operand bit is dropped or moved. -/
def Obligations.DecodeAndEncodeAgree : Prop :=
  (∀ i : Instr, i.wf = true → (encode i).wf = true ∧ decode (encode i) = .ok i) ∧
  (∀ (w : Word) (i : Instr), decodeCmd w = .ok i → encode i = .cmdw (w &&& usedBits i)) ∧
  (∀ (w : BitVec 9) (i : Instr), decode (.busRd w) = .ok i → encode i = .busRd w) ∧
  (∀ (w : BitVec 41) (i : Instr), decode (.busWr w) = .ok i → encode i = .busWr w)

/-- The decode function of R95: OPC = w[7:0] alone selects the command, arg = w[15:8] is its argument, and every other OPC
is ILLEGAL(opc). -/
def Obligations.DecodeFunctionOfTheOpcodeMap : Prop :=
  ∀ w : Word,
    let opc := w.toNat % 256
    let arg := BitVec.ofNat 8 (w.toNat / 256)
    (opc = 0x00 → decodeCmd w = .ok .nop) ∧ (opc = 0x01 → decodeCmd w = .ok .cbClear) ∧
    (opc = 0x02 → decodeCmd w = .ok (.cbWrite arg)) ∧ (opc = 0x03 → decodeCmd w = .ok (.cbRead arg)) ∧
    (opc = 0x10 → decodeCmd w = .ok .wInit) ∧
    (opc = 0x11 → decodeCmd w = .ok (.wPutbit (w.toNat.testBit 8))) ∧
    (opc = 0x12 → decodeCmd w = .ok (.wPutbits arg)) ∧ (opc = 0x13 → decodeCmd w = .ok (.wPutsym arg)) ∧
    (opc = 0x14 → decodeCmd w = .ok .wEncode) ∧ (opc = 0x15 → decodeCmd w = .ok .wFinal) ∧
    (opc = 0x20 → decodeCmd w = .ok .rInit) ∧ (opc = 0x21 → decodeCmd w = .ok .rGetbit) ∧
    (opc = 0x22 → decodeCmd w = .ok .rDecsym) ∧ (opc = 0x23 → decodeCmd w = .ok .rDecode) ∧
    (opc ∉ [0x00, 0x01, 0x02, 0x03, 0x10, 0x11, 0x12, 0x13, 0x14, 0x15, 0x20, 0x21, 0x22, 0x23] →
      decodeCmd w = .error (.illegal (BitVec.ofNat 8 opc)))

/-- Words written out from the map of R92 and the formats of R98 decode to the instructions they stand for (a sanity
statement on fixed words). -/
def Obligations.WrittenOutWordsDecode : Prop :=
  decodeCmd 0x00000000 = .ok .nop ∧ decodeCmd 0x00006102 = .ok (.cbWrite 0x61) ∧
  decodeCmd 0x00000111 = .ok (.wPutbit true) ∧ decodeCmd 0x0000FE11 = .ok (.wPutbit false) ∧
  decodeCmd 0x00006113 = .ok (.wPutsym 0x61) ∧ decodeCmd 0xFFFF2012 = .ok (.wPutbits 0x20) ∧
  decodeCmd 0x00000023 = .ok .rDecode ∧ decodeCmd 0x00000016 = .error (.illegal 0x16) ∧
  decode (.busRd 0b000001001#9) = .ok (.busRd 0x09) ∧
  decode (.busWr 0b10000100000000000000000000110000100010011#41) = .ok (.busWr 0x08 0x00006113)

/-- A reserved OPC completes with ILLEGAL_CMD and changes nothing else, in every state, when the engine performs it
(R94, the ranges written out; BUSY is cleared as every completion clears it). -/
def Obligations.ReservedOpcodesCompleteWithIllegalCmd : Prop :=
  ∀ (w : Word) (s : State), s.pending = some w →
    (0x04 ≤ w.toNat % 256 ∧ w.toNat % 256 ≤ 0x0F) ∨ (0x16 ≤ w.toNat % 256 ∧ w.toNat % 256 ≤ 0x1F) ∨
      0x24 ≤ w.toNat % 256 →
    engineTurn s = .next { s with err := .illegalCmd, pending := none } ∧ ErrCode.illegalCmd.code = 1

/-! ### The step -/

/-- A step runs the decoded instruction (40_host_bus.md §1-§2): a bus request next on the list runs as BUS_WR or BUS_RD by its
we pin; an engine turn runs the pending command, and one is taken too when nothing else is to come; with nothing pending it
changes nothing. The input list is the model's own (log 2). -/
def Obligations.StepRunsTheDecodedInstruction : Prop :=
  (∀ (s : State) (a : RegAddr) (d : Word) (rest : List Input),
    s.inputs = .bus { we := true, address := a, writeData := d } :: rest →
      step s = exec (.busWr a d) { s with inputs := rest }) ∧
  (∀ (s : State) (a : RegAddr) (d : Word) (rest : List Input),
    s.inputs = .bus { we := false, address := a, writeData := d } :: rest →
      step s = exec (.busRd a) { s with inputs := rest }) ∧
  (∀ (s : State) (w : Word) (i : Instr) (rest : List Input), s.pending = some w → decodeCmd w = .ok i →
    (s.inputs = .engine :: rest → step s = exec i { s with inputs := rest }) ∧
    (s.inputs = [] → step s = exec i s)) ∧
  (∀ (s : State) (rest : List Input), s.pending = none →
    (s.inputs = .engine :: rest → step s = .next { s with inputs := rest }) ∧
    (s.inputs = [] → step s = .next s))

/-- A command given to the block is performed (R113, R117): the CMD write with BUSY = 0 sets BUSY and clears ERR, and the
engine turn after it performs the command on the state it was issued in; a second CMD write before that is dropped. The
input list is the model's own (log 2). -/
def Obligations.IssuedCommandIsPerformedByTheEngineTurn : Prop :=
  ∀ (s : State) (w : Word) (rest : List Input), s.pending = none →
    s.inputs = .bus { we := true, address := 0x08, writeData := w } :: .engine :: rest →
    ∃ t, step s = .next t ∧ t = { s with pending := some w, err := .ok, inputs := .engine :: rest } ∧
      t.busy = true ∧ step t = perform w { t with inputs := rest } ∧
      ∀ d : Word, exec (.busWr 0x08 d) t = .next { t with dropped := true }

/-- No instruction is ever refused, and the only stop is a read of a RAM byte that nothing has written since reset, at an
address of that RAM (20_memory.md §1 with 10_state.md §10): under the invariant the byte is one of the state the command
started in. -/
def Obligations.OnlyUnwrittenBytesStopTheMachine : Prop :=
  ∀ (i : Instr) (s : State), s.Inv →
    (∀ r, exec i s ≠ .refused r) ∧
    (∀ f, exec i s = .fault f →
      (∃ a, f = .unwritten .payload a ∧ s.payload.read a = none ∧ a < s.cfg.payloadBytes ∧
        (i = .rGetbit ∨ i = .rDecsym ∨ i = .rDecode ∨ i = .busRd 0x41)) ∨
      (∃ a, f = .unwritten .data a ∧ s.data.read a = none ∧ a < s.cfg.dataBytes ∧
        (i = .wEncode ∨ i = .busRd 0x43)))

/-- A command completes once its turn comes (40_host_bus.md §2): after as many steps as there are inputs to come and one more,
the block is idle, unless it stopped at an unwritten byte. The turn after the last input is the model's form of the weak
fairness of the engine step (log 2, log 14). -/
def Obligations.BlockIsIdleOnceTheInputsAreUsedUp : Prop :=
  ∀ s : State,
    (∃ ram a, Host.Core.run Sys2Proof.core (s.inputs.length + 1) s = .fault (.unwritten ram a)) ∨
    ∃ t : State, Host.Core.run Sys2Proof.core (s.inputs.length + 1) s = .next t ∧ t.busy = false ∧ t.inputs = []

/-! ### Reset -/

/-- What reset leaves (R270), for a build with any parameters: every register word of the map reads its reset value, BUSY,
DROPPED and ERR are 0, WSTATE and RSTATE are IDLE, every codebook entry is (len 0, code 0), no command is pending, and no
byte of PL or DT has a value. -/
def Obligations.ResetLeavesTheResetValues : Prop :=
  ∀ cfg : Config,
    let s := State.resetWith cfg
    s.pending = none ∧ s.busy = false ∧ s.dropped = false ∧ s.err = .ok ∧ s.wstate = .idle ∧ s.rstate = .idle ∧
    readReg s .status = .ok 0 ∧ readReg s .name0 = .ok 0x68756666 ∧ readReg s .name1 = .ok 0x6d616e20 ∧
    readReg s .version = .ok 1 ∧ readReg s .cmd = .ok 0 ∧
    (∀ r : Reg, r ∉ [.name0, .name1, .version, .plData, .dtData] → readReg s r = .ok 0) ∧
    (∀ a : Symbol, s.codebook.get a = { len := 0, code := 0 }) ∧
    (∀ a, s.payload.read a = none ∧ s.data.read a = none)

/-- Reset in any state, a command in progress or not (R271): one step replaces everything inside the block by the values of
reset; the parameters stay. What lies outside the block (inputs to come, words read, draws) is the model's own (log 8). -/
def Obligations.ResetMayComeAtAnyTime : Prop :=
  ∀ (s : State) (rest : List Input), s.inputs = .reset :: rest →
    ∃ t, step s = .next t ∧ t = { State.resetWith s.cfg with inputs := rest, replies := s.replies, draws := s.draws } ∧
      t.busy = false ∧ ∀ a, t.payload.read a = none ∧ t.data.read a = none

/-- Which commands are accepted after reset (R272): six at once; every other writer command completes with BAD_STATE in every
state with WSTATE = IDLE, which reset leaves and only a performed W_INIT ends, and every other reader command in every state
with RSTATE = IDLE, which reset leaves and only a performed R_INIT ends. -/
def Obligations.CommandsAcceptedAfterReset : Prop :=
  (∀ (cfg : Config) (i : Instr),
    i = .nop ∨ i = .cbClear ∨ (∃ a, i = .cbWrite a) ∨ (∃ a, i = .cbRead a) ∨ i = .wInit ∨ i = .rInit →
      ∃ t, exec i (State.resetWith cfg) = .next t ∧ t.err = .ok) ∧
  (∀ cfg : Config, (State.resetWith cfg).wstate = .idle ∧ (State.resetWith cfg).rstate = .idle) ∧
  (∀ (i : Instr) (s : State), s.wstate = .idle →
    ((∃ b, i = .wPutbit b) ∨ (∃ n, i = .wPutbits n) ∨ (∃ a, i = .wPutsym a) ∨ i = .wEncode ∨ i = .wFinal) →
    exec i s = .next { s with err := .badState, pending := none }) ∧
  (∀ (i : Instr) (s : State), s.rstate = .idle → (i = .rGetbit ∨ i = .rDecsym ∨ i = .rDecode) →
    exec i s = .next { s with err := .badState, pending := none }) ∧
  (∀ s t : State, step s = .next t → s.wstate = .idle → t.wstate ≠ .idle →
    ∃ w, s.pending = some w ∧ decodeCmd w = .ok .wInit) ∧
  ∀ s t : State, step s = .next t → s.rstate = .idle → t.rstate ≠ .idle →
    ∃ w, s.pending = some w ∧ decodeCmd w = .ok .rInit

/-! ### The host bus -/

/-- The numbers of the result codes, of WSTATE and of RSTATE as STATUS shows them (60_exceptions.md §1, 10_state.md §4): no
code above 9 and no state 3. -/
def Obligations.StatusCodesAsNumbered : Prop :=
  ErrCode.ok.code = 0 ∧ ErrCode.illegalCmd.code = 1 ∧ ErrCode.badState.code = 2 ∧ ErrCode.badOperand.code = 3 ∧
  ErrCode.noCode.code = 4 ∧ ErrCode.payloadFull.code = 5 ∧ ErrCode.exhausted.code = 6 ∧ ErrCode.offCode.code = 7 ∧
  ErrCode.emptyCodebook.code = 8 ∧ ErrCode.countReached.code = 9 ∧ (∀ e : ErrCode, e.code.toNat ≤ 9) ∧
  WState.idle.code = 0 ∧ WState.opened.code = 1 ∧ WState.final.code = 2 ∧ (∀ w : WState, w.code.toNat ≤ 2) ∧
  RState.idle.code = 0 ∧ RState.active.code = 1 ∧ RState.failed.code = 2 ∧ (∀ r : RState, r.code.toNat ≤ 2)

/-- BUS_RD with BUSY = 0 (40_host_bus.md §1): for every address but the two RAM windows (`RamWindowsReadAndWriteOneByte`) the
word returned, and nothing of the block changes; an unmapped word reads 0. The returned word goes to `replies` (log 5). -/
def Obligations.BusReadReturnsTheRegister : Prop :=
  ∀ s : State, s.pending = none →
    let returns := fun (a : RegAddr) (v : Word) => exec (.busRd a) s = .next { s with replies := v :: s.replies }
    returns 0x00 0x68756666 ∧ returns 0x01 0x6d616e20 ∧ returns 0x02 0x00000001 ∧ returns 0x08 0 ∧
    returns 0x09 (BitVec.ofNat 32 (s.rstate.code.toNat * 1024 + s.wstate.code.toNat * 256 + s.err.code.toNat * 16 +
      s.dropped.toNat * 2)) ∧
    returns 0x10 (s.cbLen.setWidth 32) ∧
    (∀ k : Fin 8, returns (BitVec.ofNat 8 (0x11 + k.val)) s.cbCode[k]) ∧
    returns 0x20 s.wBitsval ∧ returns 0x21 s.wDatalen ∧ returns 0x22 s.wBitcnt ∧ returns 0x23 (s.wPad.setWidth 32) ∧
    returns 0x24 s.wDatapos ∧ returns 0x30 s.rNbits ∧
    returns 0x31 (BitVec.ofNat 32 s.origLen.toNat) ∧ returns 0x32 (BitVec.ofNat 32 (s.origLen.toNat / 2 ^ 32)) ∧
    returns 0x33 s.rBitpos ∧
    returns 0x34 (BitVec.ofNat 32 s.rSymcnt.toNat) ∧ returns 0x35 (BitVec.ofNat 32 (s.rSymcnt.toNat / 2 ^ 32)) ∧
    returns 0x36 (s.rBit.setWidth 32) ∧ returns 0x37 (s.rSym.setWidth 32) ∧ returns 0x40 s.plAddr ∧
    returns 0x42 s.dtAddr ∧
    (∀ a : RegAddr, (0x03 ≤ a.toNat ∧ a.toNat ≤ 0x07) ∨ (0x0A ≤ a.toNat ∧ a.toNat ≤ 0x0F) ∨
        (0x19 ≤ a.toNat ∧ a.toNat ≤ 0x1F) ∨ (0x25 ≤ a.toNat ∧ a.toNat ≤ 0x2F) ∨ (0x38 ≤ a.toNat ∧ a.toNat ≤ 0x3F) ∨
        0x44 ≤ a.toNat → returns a 0)

/-- The RAM windows (20_memory.md §3 with 10_state.md §8), BUSY = 0: a read in range returns the zero-extended byte, stops at
a byte without a value, and returns 0 out of range; a write in range stores data[7:0] at that address and no other, and out
of range changes nothing. -/
def Obligations.RamWindowsReadAndWriteOneByte : Prop :=
  ∀ s : State, s.pending = none →
    (∀ v, s.plAddr.toNat < s.cfg.payloadBytes → s.payload.read s.plAddr.toNat = some v →
      exec (.busRd 0x41) s = .next { s with replies := v.setWidth 32 :: s.replies }) ∧
    (s.plAddr.toNat < s.cfg.payloadBytes → s.payload.read s.plAddr.toNat = none →
      exec (.busRd 0x41) s = .fault (.unwritten .payload s.plAddr.toNat)) ∧
    (s.cfg.payloadBytes ≤ s.plAddr.toNat → exec (.busRd 0x41) s = .next { s with replies := 0 :: s.replies }) ∧
    (∀ v, s.dtAddr.toNat < s.cfg.dataBytes → s.data.read s.dtAddr.toNat = some v →
      exec (.busRd 0x43) s = .next { s with replies := v.setWidth 32 :: s.replies }) ∧
    (s.dtAddr.toNat < s.cfg.dataBytes → s.data.read s.dtAddr.toNat = none →
      exec (.busRd 0x43) s = .fault (.unwritten .data s.dtAddr.toNat)) ∧
    (s.cfg.dataBytes ≤ s.dtAddr.toNat → exec (.busRd 0x43) s = .next { s with replies := 0 :: s.replies }) ∧
    (∀ d : Word, s.plAddr.toNat < s.cfg.payloadBytes →
      ∃ t, exec (.busWr 0x41 d) s = .next t ∧ t = { s with payload := t.payload } ∧
        t.payload.read s.plAddr.toNat = some (BitVec.ofNat 8 d.toNat) ∧
        ∀ a, a ≠ s.plAddr.toNat → t.payload.read a = s.payload.read a) ∧
    (∀ d : Word, s.cfg.payloadBytes ≤ s.plAddr.toNat → exec (.busWr 0x41 d) s = .next s) ∧
    (∀ d : Word, s.dtAddr.toNat < s.cfg.dataBytes →
      ∃ t, exec (.busWr 0x43 d) s = .next t ∧ t = { s with data := t.data } ∧
        t.data.read s.dtAddr.toNat = some (BitVec.ofNat 8 d.toNat) ∧
        ∀ a, a ≠ s.dtAddr.toNat → t.data.read a = s.data.read a) ∧
    (∀ d : Word, s.cfg.dataBytes ≤ s.dtAddr.toNat → exec (.busWr 0x43 d) s = .next s)

/-- BUS_WR with BUSY = 0 to every word but the RAM windows (40_host_bus.md §1): what it writes, and that it writes nothing
else; writes to read-only registers and unmapped words change nothing. -/
def Obligations.BusWriteWritesTheRegister : Prop :=
  ∀ (s : State) (d : Word), s.pending = none →
    exec (.busWr 0x08 d) s = .next { s with pending := some d, err := .ok } ∧
    exec (.busWr 0x09 d) s = .next { s with dropped := s.dropped && !d.toNat.testBit 1 } ∧
    exec (.busWr 0x10 d) s = .next { s with cbLen := BitVec.ofNat 8 d.toNat } ∧
    (∀ k : Fin 8, exec (.busWr (BitVec.ofNat 8 (0x11 + k.val)) d) s = .next { s with cbCode := s.cbCode.set k d }) ∧
    exec (.busWr 0x20 d) s = .next { s with wBitsval := d } ∧
    exec (.busWr 0x21 d) s = .next { s with wDatalen := d } ∧
    exec (.busWr 0x30 d) s = .next { s with rNbits := d } ∧
    exec (.busWr 0x31 d) s =
      .next { s with origLen := BitVec.ofNat 64 (s.origLen.toNat / 2 ^ 32 * 2 ^ 32 + d.toNat) } ∧
    exec (.busWr 0x32 d) s =
      .next { s with origLen := BitVec.ofNat 64 (d.toNat * 2 ^ 32 + s.origLen.toNat % 2 ^ 32) } ∧
    exec (.busWr 0x40 d) s = .next { s with plAddr := d } ∧
    exec (.busWr 0x42 d) s = .next { s with dtAddr := d } ∧
    (∀ a : RegAddr,
      a ∉ [0x08, 0x09, 0x10, 0x11, 0x12, 0x13, 0x14, 0x15, 0x16, 0x17, 0x18, 0x20, 0x21, 0x30, 0x31, 0x32, 0x40, 0x41,
        0x42, 0x43] → exec (.busWr a d) s = .next s)

/-- DROPPED (R28): a write while BUSY, at any address, sets it and changes nothing else; a write of STATUS with data[1] = 1
and BUSY = 0 clears it and with data[1] = 0 leaves it, changing nothing else; no step clears it otherwise but reset,
which does. -/
def Obligations.DroppedIsSetByWritesWhileBusy : Prop :=
  (∀ (s : State) (a : RegAddr) (d : Word), s.busy = true →
    exec (.busWr a d) s = .next { s with dropped := true }) ∧
  (∀ (s : State) (d : Word), s.busy = false →
    exec (.busWr 0x09 d) s = .next (if d.getLsbD 1 then { s with dropped := false } else s)) ∧
  (∀ s t : State, step s = .next t → s.dropped = true → t.dropped = false →
    (∃ d rest, s.inputs = .bus { we := true, address := 0x09, writeData := d } :: rest ∧ d.getLsbD 1 = true ∧
      s.busy = false) ∨
    ∃ rest, s.inputs = .reset :: rest) ∧
  ∀ (s t : State) (rest : List Input), s.inputs = .reset :: rest → step s = .next t → t.dropped = false

/-- Reads while BUSY (40_host_bus.md §1): the identification words; STATUS with BUSY = 1, DROPPED as it stands, ERR 0 and a
drawn nibble at [11:8]; a drawn word anywhere else. A draw is a free value (log 4), used once. -/
def Obligations.ReadsWhileBusyAreLiveOrDrawn : Prop :=
  ∀ s : State, s.busy = true →
    exec (.busRd 0x00) s = .next { s with replies := 0x68756666 :: s.replies } ∧
    exec (.busRd 0x01) s = .next { s with replies := 0x6d616e20 :: s.replies } ∧
    exec (.busRd 0x02) s = .next { s with replies := 0x00000001 :: s.replies } ∧
    (∃ st : Word, exec (.busRd 0x09) s = .next { s with replies := st :: s.replies, draws := s.draws + 1 } ∧
      st.getLsbD 0 = true ∧ st.getLsbD 1 = s.dropped ∧ (∀ k, 2 ≤ k → k < 8 → st.getLsbD k = false) ∧
      (∀ k, k < 4 → st.getLsbD (8 + k) = (Config.freeNibble s.draws).getLsbD k) ∧
      ∀ k, 12 ≤ k → st.getLsbD k = false) ∧
    (∀ a : RegAddr, a ∉ [0x00, 0x01, 0x02, 0x09] →
      exec (.busRd a) s =
        .next { s with replies := Config.freeWord s.draws :: s.replies, draws := s.draws + 1 })

/-- "No read anywhere has a side effect" (20_memory.md §3): a read leaves every field of the block as it was, and with BUSY = 0
a second read of the same address, or a read after a read of any other, returns the same word. -/
def Obligations.ReadsHaveNoSideEffect : Prop :=
  ∀ (a : RegAddr) (s t : State), exec (.busRd a) s = .next t →
    (∃ v, t = { s with replies := v :: s.replies, draws := t.draws }) ∧
    (s.busy = false → t.draws = s.draws ∧
      ∀ (b : RegAddr) (u : State), exec (.busRd b) t = .next u →
        ∃ v, exec (.busRd b) s = .next { s with replies := v :: s.replies } ∧
          u = { s with replies := v :: t.replies })

/-- The host reads back what it wrote (10_state.md §5-§8 and 40_host_bus.md R112's list): W_BITSVAL, W_DATALEN, R_NBITS,
ORIG_LEN_LO, ORIG_LEN_HI, PL_ADDR, DT_ADDR and CB_CODE0-7 whole, CB_LEN its bits [7:0], each other register of them as it
was. -/
def Obligations.HostRegistersReadBackWhatWasWritten : Prop :=
  ∀ (s : State) (d : Word), s.pending = none →
    (∀ a : RegAddr, a ∈ [0x11, 0x12, 0x13, 0x14, 0x15, 0x16, 0x17, 0x18, 0x20, 0x21, 0x30, 0x31, 0x32, 0x40, 0x42] →
      ∃ t, exec (.busWr a d) s = .next t ∧ exec (.busRd a) t = .next { t with replies := d :: t.replies } ∧
        ∀ (b : RegAddr) (u : State),
          b ∉ [a, 0x41, 0x43] → exec (.busRd b) s = .next u → exec (.busRd b) t = .next { t with replies := u.replies }) ∧
    ∃ t, exec (.busWr 0x10 d) s = .next t ∧
      exec (.busRd 0x10) t = .next { t with replies := BitVec.ofNat 32 (d.toNat % 256) :: t.replies }

/-! ### Codebook and system commands -/

/-- NOP (R130): it completes in every state and changes nothing apart from ERR <- 0 and BUSY <- 0; DROPPED is not cleared. -/
def Obligations.NopOnlyCompletes : Prop :=
  (∀ w : Word, w.toNat % 256 = 0 → decodeCmd w = .ok .nop) ∧
  ∀ s : State, exec .nop s = .next { s with err := .ok, pending := none }

/-- CB_CLEAR (R131): every entry becomes (len 0, code 0) and nothing else changes; the codebook is then empty with
maxlen = 0, a decode step fails with EMPTY_CODEBOOK, and W_PUTSYM of any symbol fails with NO_CODE. -/
def Obligations.CbClearInvalidatesEveryEntry : Prop :=
  (∀ w : Word, w.toNat % 256 = 0x01 → decodeCmd w = .ok .cbClear) ∧
  ∀ s : State, ∃ t, exec .cbClear s = .next t ∧
    t = { s with codebook := t.codebook, err := .ok, pending := none } ∧
    (∀ a : Symbol, t.codebook.get a = { len := 0, code := 0 }) ∧ t.codebook.isEmpty = true ∧ t.codebook.maxlen = 0 ∧
    decodeStep t = .ended { t with rstate := .failed, err := .emptyCodebook, pending := none } ∧
    ∀ a : Symbol, t.wstate = .opened →
      exec (.wPutsym a) t = .next { t with err := .noCode, pending := none }

/-- CB_WRITE s (41_codebook.md, with 10_state.md §5): entry s becomes (L, the low L bits of STAGE), with `STAGE[32k+31:32k] =
CB_CODEk`, zeros at and above L; every other entry and all else is as it was. -/
def Obligations.CbWriteStoresTheStagedCode : Prop :=
  (∀ w : Word, w.toNat % 256 = 0x02 → decodeCmd w = .ok (.cbWrite (BitVec.ofNat 8 (w.toNat / 256)))) ∧
  ∀ (s : State) (a : Symbol), ∃ t, exec (.cbWrite a) s = .next t ∧
    t = { s with codebook := t.codebook, err := .ok, pending := none } ∧
    (t.codebook.get a).len = s.cbLen ∧
    (∀ (k : Fin 8) (j : Nat), j < 32 → 32 * k.val + j < 255 →
      (t.codebook.get a).code.getLsbD (32 * k.val + j) =
        (decide (32 * k.val + j < s.cbLen.toNat) && s.cbCode[k].getLsbD j)) ∧
    ∀ b : Symbol, b ≠ a → t.codebook.get b = s.codebook.get b

/-- CB_READ s (R133): CB_LEN and CB_CODE0..7 are overwritten with entry s, zero-extended, and nothing else changes. An
invalid entry that holds the invariant reads back as all 0, CB_CODE7 bit 31 reads back 0, and a CB_READ after a CB_WRITE of
the same symbol returns the stage masked to its length. -/
def Obligations.CbReadLoadsTheStage : Prop :=
  (∀ w : Word, w.toNat % 256 = 0x03 → decodeCmd w = .ok (.cbRead (BitVec.ofNat 8 (w.toNat / 256)))) ∧
  (∀ (s : State) (a : Symbol), ∃ t, exec (.cbRead a) s = .next t ∧
    t = { s with cbLen := (s.codebook.get a).len, cbCode := t.cbCode, err := .ok, pending := none } ∧
    (∀ (k : Fin 8) (j : Nat), j < 32 → t.cbCode[k].getLsbD j = (s.codebook.get a).code.getLsbD (32 * k.val + j)) ∧
    ((s.codebook.get a).wf → (s.codebook.get a).len = 0 → t.cbLen = 0 ∧ ∀ k : Fin 8, t.cbCode[k] = 0) ∧
    t.cbCode[7].getLsbD 31 = false) ∧
  ∀ (s t u : State) (a : Symbol), exec (.cbWrite a) s = .next t → exec (.cbRead a) t = .next u →
    u.cbLen = s.cbLen ∧
    ∀ (k : Fin 8) (j : Nat), j < 32 →
      u.cbCode[k].getLsbD j =
        (decide (32 * k.val + j < s.cbLen.toNat) && s.cbCode[k].getLsbD j)

/-- The codebook is written only by CB_CLEAR and CB_WRITE, and entry by entry (10_state.md §9). -/
def Obligations.OnlyClearAndWriteChangeTheCodebook : Prop :=
  ∀ (i : Instr) (s t : State), exec i s = .next t →
    ∀ a : Symbol, t.codebook.get a ≠ s.codebook.get a → i = .cbClear ∨ i = .cbWrite a

/-! ### Writer commands -/

/-- W_INIT (R150): accepted in every writer state; the counters and W_PAD become 0, WSTATE becomes OPEN, and nothing else
changes: PL is not cleared and W_BITSVAL and W_DATALEN stay. -/
def Obligations.WInitOpensTheStream : Prop :=
  (∀ w : Word, w.toNat % 256 = 0x10 → decodeCmd w = .ok .wInit) ∧
  ∀ s : State,
    exec .wInit s =
      .next { s with wBitcnt := 0, wPad := 0, wDatapos := 0, wstate := .opened, err := .ok, pending := none }

/-- AppendBit (R151), called after the capacity check: with j = 0 the byte becomes b << 7 whatever it held; else b is ORed in
at bit 7 - j; every other byte stays, W_BITCNT counts one more, and nothing else changes. -/
def Obligations.AppendBitWritesThrough : Prop :=
  ∀ (s : State) (b : Bool), s.cfg.Legal → s.wBitcnt.toNat < s.cfg.payloadBits →
    (s.wBitcnt.toNat % 8 ≠ 0 → (s.payload.read (s.wBitcnt.toNat / 8)).isSome) →
    ∃ t, appendBit b s = .ok t ∧ t = { s with payload := t.payload, wBitcnt := t.wBitcnt } ∧
      t.wBitcnt.toNat = s.wBitcnt.toNat + 1 ∧
      (s.wBitcnt.toNat % 8 = 0 → t.payload.read (s.wBitcnt.toNat / 8) = some (BitVec.ofNat 8 (b.toNat * 2 ^ 7))) ∧
      (∀ v, s.wBitcnt.toNat % 8 ≠ 0 → s.payload.read (s.wBitcnt.toNat / 8) = some v →
        t.payload.read (s.wBitcnt.toNat / 8) =
          some (v ||| BitVec.ofNat 8 (b.toNat * 2 ^ (7 - s.wBitcnt.toNat % 8)))) ∧
      ∀ a, a ≠ s.wBitcnt.toNat / 8 → t.payload.read a = s.payload.read a

/-- W_PUTBIT b (R154): BAD_STATE, PAYLOAD_FULL, or b appended at stream position W_BITCNT and nothing else changed. -/
def Obligations.PutbitAppendsOneBit : Prop :=
  (∀ w : Word, w.toNat % 256 = 0x11 → decodeCmd w = .ok (.wPutbit (w.toNat.testBit 8))) ∧
  ∀ (s : State) (b : Bool),
    (s.wstate ≠ .opened → exec (.wPutbit b) s = .next { s with err := .badState, pending := none }) ∧
    (s.wstate = .opened → 8 * s.cfg.payloadBytes < s.wBitcnt.toNat + 1 →
      exec (.wPutbit b) s = .next { s with err := .payloadFull, pending := none }) ∧
    (s.Inv → s.wstate = .opened → s.wBitcnt.toNat < 8 * s.cfg.payloadBytes →
      ∃ t, exec (.wPutbit b) s = .next t ∧
        t = { s with payload := t.payload, wBitcnt := t.wBitcnt, err := .ok, pending := none } ∧ s.Appended t [b])

/-- W_PUTBITS n (R156): BAD_STATE, BAD_OPERAND for n = 0 or n ≥ 33, PAYLOAD_FULL, in that order and with nothing appended;
otherwise bits n-1 down to 0 of W_BITSVAL are appended and nothing else changes. -/
def Obligations.PutbitsAppendsTheLowBits : Prop :=
  (∀ w : Word, w.toNat % 256 = 0x12 → decodeCmd w = .ok (.wPutbits (BitVec.ofNat 8 (w.toNat / 256)))) ∧
  ∀ (s : State) (n : BitVec 8),
    (s.wstate ≠ .opened → exec (.wPutbits n) s = .next { s with err := .badState, pending := none }) ∧
    (s.wstate = .opened → n.toNat = 0 ∨ 33 ≤ n.toNat →
      exec (.wPutbits n) s = .next { s with err := .badOperand, pending := none }) ∧
    (s.wstate = .opened → 1 ≤ n.toNat → n.toNat ≤ 32 → 8 * s.cfg.payloadBytes < s.wBitcnt.toNat + n.toNat →
      exec (.wPutbits n) s = .next { s with err := .payloadFull, pending := none }) ∧
    (s.Inv → s.wstate = .opened → 1 ≤ n.toNat → n.toNat ≤ 32 → s.wBitcnt.toNat + n.toNat ≤ 8 * s.cfg.payloadBytes →
      ∃ t, exec (.wPutbits n) s = .next t ∧
        t = { s with payload := t.payload, wBitcnt := t.wBitcnt, err := .ok, pending := none } ∧
        s.Appended t (msbFirst s.wBitsval n.toNat))

/-- W_PUTSYM s (42_writer.md §2): BAD_STATE, NO_CODE, PAYLOAD_FULL, in that order and with nothing appended; otherwise the
code of s, root bit first, is appended and nothing else changes. -/
def Obligations.PutsymAppendsTheCode : Prop :=
  (∀ w : Word, w.toNat % 256 = 0x13 → decodeCmd w = .ok (.wPutsym (BitVec.ofNat 8 (w.toNat / 256)))) ∧
  ∀ (s : State) (a : Symbol),
    (s.wstate ≠ .opened → exec (.wPutsym a) s = .next { s with err := .badState, pending := none }) ∧
    (s.wstate = .opened → (s.codebook.get a).len = 0 →
      exec (.wPutsym a) s = .next { s with err := .noCode, pending := none }) ∧
    (s.wstate = .opened → (s.codebook.get a).len ≠ 0 →
      8 * s.cfg.payloadBytes < s.wBitcnt.toNat + (s.codebook.get a).len.toNat →
      exec (.wPutsym a) s = .next { s with err := .payloadFull, pending := none }) ∧
    (s.Inv → s.wstate = .opened → (s.codebook.get a).len ≠ 0 →
      s.wBitcnt.toNat + (s.codebook.get a).len.toNat ≤ 8 * s.cfg.payloadBytes →
      ∃ t, exec (.wPutsym a) s = .next t ∧
        t = { s with payload := t.payload, wBitcnt := t.wBitcnt, err := .ok, pending := none } ∧
        s.Appended t (s.codebook.get a).bits)

/-- W_ENCODE (42_writer.md §3) on data it can pack whole: the codes of DT[0 .. W_DATALEN-1] are appended in order after what
the stream holds, W_DATAPOS becomes W_DATALEN, and nothing else changes. W_DATALEN = 0 appends nothing and succeeds. -/
def Obligations.EncodePacksTheDataRam : Prop :=
  ∀ (s : State) (syms : List Symbol), s.Inv → s.wstate = .opened → syms.length = s.wDatalen.toNat →
    s.wDatalen.toNat ≤ s.cfg.dataBytes → s.holdsData 0 syms → (∀ a ∈ syms, (s.codebook.get a).len ≠ 0) →
    s.wBitcnt.toNat + (s.codebook.stream syms).length ≤ 8 * s.cfg.payloadBytes →
    ∃ t, exec .wEncode s = .next t ∧
      t = { s with payload := t.payload, wBitcnt := t.wBitcnt, wDatapos := s.wDatalen, err := .ok, pending := none } ∧
      s.Appended t (s.codebook.stream syms)

/-- W_ENCODE that cannot pack it all (42_writer.md §3): BAD_STATE and BAD_OPERAND change nothing but ERR; at the first byte i
whose symbol has no code, or whose code does not fit, it ends with NO_CODE or PAYLOAD_FULL, the codes of bytes 0 .. i-1 stay
appended, W_DATAPOS = i, and nothing of byte i is appended. -/
def Obligations.EncodeStopsAtTheFailingByte : Prop :=
  ∀ s : State,
    (s.wstate ≠ .opened → exec .wEncode s = .next { s with err := .badState, pending := none }) ∧
    (s.wstate = .opened → s.cfg.dataBytes < s.wDatalen.toNat →
      exec .wEncode s = .next { s with err := .badOperand, pending := none }) ∧
    ∀ (syms : List Symbol) (bad : Symbol), s.Inv → s.wstate = .opened → s.wDatalen.toNat ≤ s.cfg.dataBytes →
      syms.length < s.wDatalen.toNat → s.holdsData 0 (syms ++ [bad]) → (∀ a ∈ syms, (s.codebook.get a).len ≠ 0) →
      s.wBitcnt.toNat + (s.codebook.stream syms).length ≤ 8 * s.cfg.payloadBytes →
      ∀ e, ((s.codebook.get bad).len = 0 ∧ e = .noCode ∨
          (s.codebook.get bad).len ≠ 0 ∧
            8 * s.cfg.payloadBytes < s.wBitcnt.toNat + (s.codebook.stream (syms ++ [bad])).length ∧ e = .payloadFull) →
        ∃ t, exec .wEncode s = .next t ∧
          t = { s with payload := t.payload, wBitcnt := t.wBitcnt, wDatapos := BitVec.ofNat 32 syms.length, err := e,
                       pending := none } ∧
          s.Appended t (s.codebook.stream syms)

/-- W_FINAL (R162): BAD_STATE when not OPEN, W_PAD as it was; otherwise W_PAD becomes (8 - W_BITCNT mod 8) mod 8, WSTATE
becomes FINAL, and nothing else changes: no PL byte is written. The payload length and W_PAD add up: 8 × ((W_BITCNT + 7)
div 8) − W_BITCNT = W_PAD. -/
def Obligations.WFinalReportsThePadding : Prop :=
  (∀ w : Word, w.toNat % 256 = 0x15 → decodeCmd w = .ok .wFinal) ∧
  ∀ s : State,
    (s.wstate ≠ .opened → exec .wFinal s = .next { s with err := .badState, pending := none }) ∧
    (s.wstate = .opened → ∃ t, exec .wFinal s = .next t ∧
      t = { s with wPad := t.wPad, wstate := .final, err := .ok, pending := none } ∧
      t.wPad.toNat = (8 - s.wBitcnt.toNat % 8) % 8 ∧
      8 * ((s.wBitcnt.toNat + 7) / 8) = s.wBitcnt.toNat + t.wPad.toNat)

/-- A writer command changes only the writer's state, PL, ERR and BUSY, and no error changes WSTATE; W_INIT and W_FINAL write
no PL byte, and an append (at byte W_BITCNT div 8 of the state it is made in) writes none below the byte W_BITCNT was in and
none at or above the bit W_BITCNT comes to. Of all instructions only W_INIT and, from OPEN, W_FINAL change WSTATE
(10_state.md §10, 42_writer.md). -/
def Obligations.WriterCommandsFrame : Prop :=
  (∀ (i : Instr) (s t : State),
    (i = .wInit ∨ (∃ b, i = .wPutbit b) ∨ (∃ n, i = .wPutbits n) ∨ (∃ a, i = .wPutsym a) ∨ i = .wEncode ∨ i = .wFinal) →
    exec i s = .next t →
    t = { s with payload := t.payload, wBitcnt := t.wBitcnt, wPad := t.wPad, wDatapos := t.wDatapos,
                 wstate := t.wstate, err := t.err, pending := none } ∧
    (t.err ≠ .ok → t.wstate = s.wstate) ∧ (i = .wInit ∨ i = .wFinal → t.payload = s.payload) ∧
    (s.Inv → ∀ a, a < s.wBitcnt.toNat / 8 ∨ t.wBitcnt.toNat ≤ 8 * a → t.payload.read a = s.payload.read a)) ∧
  ∀ (i : Instr) (s t : State), exec i s = .next t → t.wstate ≠ s.wstate →
    (i = .wInit ∧ t.wstate = .opened) ∨ (i = .wFinal ∧ s.wstate = .opened ∧ t.wstate = .final)

/-- The zero padding (10_state.md §10): the bits of the last byte that the stream has not reached stay 0 through every
command, the host writing no PL byte in between. -/
def Obligations.UnwrittenTailBitsStayZero : Prop :=
  ∀ (i : Instr) (s t : State), (∀ a d, i ≠ .busWr a d) → s.Inv → s.ZeroTail → exec i s = .next t → t.ZeroTail

/-- The packed stream (42_writer.md §3): after W_INIT and any sequence of successful commands, the host writing nothing to PL in
between and no second W_INIT, stream bits 0 .. W_BITCNT-1 are the concatenation, in command order, of what each appended. -/
def Obligations.PackedStreamIsTheConcatenation : Prop :=
  ∀ (s s0 t : State) (is : List Instr) (bits : List Bool), s.Inv → exec .wInit s = .next s0 →
    (∀ i ∈ is, i ≠ .wInit ∧ ∀ d, i ≠ .busWr 0x41 d) → Packs is s0 bits t → t.streamBits = bits.map some

/-! ### Reader commands -/

/-- R_INIT (R180): BAD_OPERAND when R_NBITS > 8 × PAYLOAD_BYTES, with nothing else changed; otherwise the reader is ACTIVE at
bit 0 with its counters and results cleared, from every reader state, and nothing else changes. -/
def Obligations.RInitStartsTheReader : Prop :=
  (∀ w : Word, w.toNat % 256 = 0x20 → decodeCmd w = .ok .rInit) ∧
  ∀ s : State,
    (8 * s.cfg.payloadBytes < s.rNbits.toNat →
      exec .rInit s = .next { s with err := .badOperand, pending := none }) ∧
    (s.rNbits.toNat ≤ 8 * s.cfg.payloadBytes →
      exec .rInit s =
        .next { s with rBitpos := 0, rSymcnt := 0, rBit := 0, rSym := 0, rstate := .active, err := .ok, pending := none })

/-- R_GETBIT (43_reader.md §1): BAD_STATE, EXHAUSTED at or past R_NBITS or 8 × PAYLOAD_BYTES with RSTATE = FAILED and R_BITPOS
and R_BIT as they were, or R_BIT = PayloadBit(R_BITPOS), with R_BITPOS one more; nothing else changes. At a byte without a
value it stops. -/
def Obligations.GetbitReadsOneBit : Prop :=
  ∀ s : State, s.cfg.Legal →
    (s.rstate ≠ .active → exec .rGetbit s = .next { s with err := .badState, pending := none }) ∧
    (s.rstate = .active → s.rNbits.toNat ≤ s.rBitpos.toNat ∨ 8 * s.cfg.payloadBytes ≤ s.rBitpos.toNat →
      exec .rGetbit s = .next { s with rstate := .failed, err := .exhausted, pending := none }) ∧
    (s.rstate = .active → s.rBitpos.toNat < s.rNbits.toNat → s.rBitpos.toNat < 8 * s.cfg.payloadBytes →
      (∀ v, s.payload.read (s.rBitpos.toNat / 8) = some v →
        ∃ t, exec .rGetbit s = .next t ∧
          t = { s with rBit := t.rBit, rBitpos := t.rBitpos, err := .ok, pending := none } ∧
          t.rBitpos.toNat = s.rBitpos.toNat + 1 ∧
          t.rBit.toNat = v.toNat / 2 ^ (7 - s.rBitpos.toNat % 8) % 2) ∧
      (s.payload.read (s.rBitpos.toNat / 8) = none →
        exec .rGetbit s = .fault (.unwritten .payload (s.rBitpos.toNat / 8))))

/-- R_DECSYM (43_reader.md §2-§3) at the bits of a symbol's code: R_SYM is the symbol, R_BITPOS advances by the length of its
code, R_SYMCNT by one, DT[R_SYMCNT] is the symbol when that index is in range, and nothing else changes. A symbol decodes
when no other code is a proper prefix of its code and no lower symbol shares it. -/
def Obligations.DecsymDecodesOneSymbol : Prop :=
  ∀ (s : State) (a : Symbol), s.Inv → s.rstate = .active → s.rSymcnt.toNat < s.origLen.toNat →
    s.codebook.Decodes a → s.holdsBits s.rBitpos.toNat (s.codebook.get a).bits →
    s.rBitpos.toNat + (s.codebook.get a).len.toNat ≤ s.rNbits.toNat →
    s.rBitpos.toNat + (s.codebook.get a).len.toNat ≤ 8 * s.cfg.payloadBytes →
    ∃ t, exec .rDecsym s = .next t ∧
      t = { s with rSym := a, rBitpos := t.rBitpos, rSymcnt := t.rSymcnt, data := t.data, err := .ok, pending := none } ∧
      t.rBitpos.toNat = s.rBitpos.toNat + (s.codebook.get a).len.toNat ∧
      t.rSymcnt.toNat = s.rSymcnt.toNat + 1 ∧
      (s.rSymcnt.toNat < s.cfg.dataBytes → t.data.read s.rSymcnt.toNat = some a) ∧
      (s.cfg.dataBytes ≤ s.rSymcnt.toNat → t.data = s.data) ∧
      ∀ j, j ≠ s.rSymcnt.toNat → t.data.read j = s.data.read j

/-- R_DECODE (43_reader.md §3) over a payload that holds the codes of the symbols it must decode: they land in DT from index
R_SYMCNT, R_SYM is the last, R_BITPOS is after the last code, R_SYMCNT reaches ORIG_LEN, and nothing else changes. With
R_SYMCNT ≥ ORIG_LEN it succeeds at once. -/
def Obligations.DecodeRecoversTheSymbols : Prop :=
  ∀ (s : State) (syms : List Symbol), s.Inv → s.rstate = .active → s.origLen.toNat ≤ s.cfg.dataBytes →
    syms.length = s.origLen.toNat - s.rSymcnt.toNat → (∀ a ∈ syms, s.codebook.Decodes a) →
    s.holdsBits s.rBitpos.toNat (s.codebook.stream syms) →
    s.rBitpos.toNat + (s.codebook.stream syms).length ≤ s.rNbits.toNat ∨ syms = [] →
    s.rBitpos.toNat + (s.codebook.stream syms).length ≤ 8 * s.cfg.payloadBytes →
    ∃ t, exec .rDecode s = .next t ∧
      t = { s with rSym := syms.getLast?.getD s.rSym, rBitpos := t.rBitpos, rSymcnt := t.rSymcnt, data := t.data,
                   err := .ok, pending := none } ∧
      t.rBitpos.toNat = s.rBitpos.toNat + (s.codebook.stream syms).length ∧
      t.rSymcnt.toNat = s.rSymcnt.toNat + syms.length ∧
      t.holdsData s.rSymcnt.toNat syms ∧
      ∀ j, j < s.rSymcnt.toNat ∨ s.rSymcnt.toNat + syms.length ≤ j → t.data.read j = s.data.read j

/-- When R_DECSYM and R_DECODE turn away (43_reader.md §3, 60_exceptions.md §1-§2): BAD_STATE, COUNT_REACHED and BAD_OPERAND
change nothing but ERR; EMPTY_CODEBOOK, reached only when a symbol is needed, consumes no bit; EXHAUSTED with no bit left at
once leaves R_BITPOS as it was. -/
def Obligations.DecodeCommandsTurnAway : Prop :=
  ∀ s : State,
    (s.rstate ≠ .active →
      exec .rDecsym s = .next { s with err := .badState, pending := none } ∧
      exec .rDecode s = .next { s with err := .badState, pending := none }) ∧
    (s.rstate = .active → s.origLen.toNat ≤ s.rSymcnt.toNat →
      exec .rDecsym s = .next { s with err := .countReached, pending := none } ∧
      (s.origLen.toNat ≤ s.cfg.dataBytes → exec .rDecode s = .next { s with err := .ok, pending := none })) ∧
    (s.rstate = .active → s.cfg.dataBytes < s.origLen.toNat →
      exec .rDecode s = .next { s with err := .badOperand, pending := none }) ∧
    (s.rstate = .active → s.rSymcnt.toNat < s.origLen.toNat → (∀ a : Symbol, (s.codebook.get a).len = 0) →
      exec .rDecsym s = .next { s with rstate := .failed, err := .emptyCodebook, pending := none } ∧
      (s.origLen.toNat ≤ s.cfg.dataBytes →
        exec .rDecode s = .next { s with rstate := .failed, err := .emptyCodebook, pending := none })) ∧
    (s.rstate = .active → s.rSymcnt.toNat < s.origLen.toNat → (∃ a : Symbol, (s.codebook.get a).len ≠ 0) →
      s.rNbits.toNat ≤ s.rBitpos.toNat ∨ 8 * s.cfg.payloadBytes ≤ s.rBitpos.toNat →
      exec .rDecsym s = .next { s with rstate := .failed, err := .exhausted, pending := none } ∧
      (s.origLen.toNat ≤ s.cfg.dataBytes →
        exec .rDecode s = .next { s with rstate := .failed, err := .exhausted, pending := none }))

/-- OFF_CODE (43_reader.md §2-§3): when maxlen bits can be read and no code is a prefix of them, R_DECSYM fails with R_BITPOS
after those maxlen bits and nothing decoded; and R_DECODE, when that happens after the codes of some symbols and before the
count is reached, fails so too, with those symbols kept in DT, counted in R_SYMCNT, and the last of them in R_SYM. -/
def Obligations.DecsymOffCodeAfterMaxlenBits : Prop :=
  (∀ (s : State) (bits : List Bool), s.Inv → s.rstate = .active → s.rSymcnt.toNat < s.origLen.toNat →
    (∃ a : Symbol, (s.codebook.get a).len ≠ 0) → bits.length = s.codebook.maxlen →
    s.holdsBits s.rBitpos.toNat bits → s.rBitpos.toNat + bits.length ≤ s.rNbits.toNat →
    s.rBitpos.toNat + bits.length ≤ 8 * s.cfg.payloadBytes →
    (∀ a : Symbol, (s.codebook.get a).len ≠ 0 → ¬ (s.codebook.get a).bits <+: bits) →
    ∃ t, exec .rDecsym s = .next t ∧
      t = { s with rBitpos := t.rBitpos, rstate := .failed, err := .offCode, pending := none } ∧
      t.rBitpos.toNat = s.rBitpos.toNat + s.codebook.maxlen) ∧
  ∀ (s : State) (syms : List Symbol) (bits : List Bool), s.Inv → s.rstate = .active →
    s.origLen.toNat ≤ s.cfg.dataBytes → s.rSymcnt.toNat + syms.length < s.origLen.toNat →
    (∃ a : Symbol, (s.codebook.get a).len ≠ 0) → (∀ a ∈ syms, s.codebook.Decodes a) →
    bits.length = s.codebook.maxlen → s.holdsBits s.rBitpos.toNat (s.codebook.stream syms ++ bits) →
    s.rBitpos.toNat + (s.codebook.stream syms ++ bits).length ≤ s.rNbits.toNat →
    s.rBitpos.toNat + (s.codebook.stream syms ++ bits).length ≤ 8 * s.cfg.payloadBytes →
    (∀ a : Symbol, (s.codebook.get a).len ≠ 0 → ¬ (s.codebook.get a).bits <+: bits) →
    ∃ t, exec .rDecode s = .next t ∧
      t = { s with rSym := syms.getLast?.getD s.rSym, rBitpos := t.rBitpos, rSymcnt := t.rSymcnt, data := t.data,
                   rstate := .failed, err := .offCode, pending := none } ∧
      t.rBitpos.toNat = s.rBitpos.toNat + (s.codebook.stream syms).length + s.codebook.maxlen ∧
      t.rSymcnt.toNat = s.rSymcnt.toNat + syms.length ∧
      t.holdsData s.rSymcnt.toNat syms ∧
      ∀ j, j < s.rSymcnt.toNat ∨ s.rSymcnt.toNat + syms.length ≤ j → t.data.read j = s.data.read j

/-- After a reader error the reader stays FAILED, and every reader command but R_INIT completes with BAD_STATE
(60_exceptions.md §1): only R_INIT leaves FAILED. RSTATE changes otherwise only from ACTIVE to FAILED, with one of the three
reader errors. -/
def Obligations.ReaderFailureIsSticky : Prop :=
  (∀ (i : Instr) (s t : State), exec i s = .next t → t.rstate ≠ s.rstate →
    (i = .rInit ∧ t.rstate = .active ∧ t.err = .ok) ∨
    (s.rstate = .active ∧ t.rstate = .failed ∧ (i = .rGetbit ∨ i = .rDecsym ∨ i = .rDecode) ∧
      (t.err = .exhausted ∨ t.err = .offCode ∨ t.err = .emptyCodebook))) ∧
  (∀ (i : Instr) (s t : State), exec i s = .next t → (i = .rGetbit ∨ i = .rDecsym ∨ i = .rDecode) →
    (t.err = .exhausted ∨ t.err = .offCode ∨ t.err = .emptyCodebook) → t.rstate = .failed) ∧
  ∀ (i : Instr) (s : State), s.rstate = .failed → (i = .rGetbit ∨ i = .rDecsym ∨ i = .rDecode) →
    exec i s = .next { s with err := .badState, pending := none }

/-- A reader command changes only the reader's state, DT, ERR and BUSY (43_reader.md): PL, the codebook and the writer are
untouched, R_NBITS and ORIG_LEN are only read, and R_BITPOS does not pass R_NBITS (10_state.md §10). -/
def Obligations.ReaderCommandsFrame : Prop :=
  ∀ (i : Instr) (s t : State), (i = .rInit ∨ i = .rGetbit ∨ i = .rDecsym ∨ i = .rDecode) → exec i s = .next t →
    t = { s with rBitpos := t.rBitpos, rSymcnt := t.rSymcnt, rBit := t.rBit, rSym := t.rSym, rstate := t.rstate,
                 data := t.data, err := t.err, pending := none } ∧
    (∀ j, j < s.rSymcnt.toNat ∨ t.rSymcnt.toNat ≤ j → t.data.read j = s.data.read j) ∧
    (i = .rInit ∨ i = .rGetbit → t.data = s.data) ∧
    (s.rBitpos.toNat ≤ s.rNbits.toNat → t.rBitpos.toNat ≤ s.rNbits.toNat)

/-- Emit (R185): R_SYM, the data RAM byte when its index is in range, and the counter. -/
def Obligations.EmitRecordsTheSymbol : Prop :=
  ∀ (s : State) (a : Symbol), s.rSymcnt.toNat + 1 < 2 ^ 64 →
    ∃ t, emit a s = t ∧ t = { s with rSym := a, data := t.data, rSymcnt := t.rSymcnt } ∧
      t.rSymcnt.toNat = s.rSymcnt.toNat + 1 ∧
      (s.rSymcnt.toNat < s.cfg.dataBytes → t.data.read s.rSymcnt.toNat = some a) ∧
      (s.cfg.dataBytes ≤ s.rSymcnt.toNat → t.data = s.data) ∧
      ∀ j, j ≠ s.rSymcnt.toNat → t.data.read j = s.data.read j

/-- The decode step is the walk of the tree (43_reader.md §2): with the codebook RAM holding exactly the codes of a tree whose
leaves have distinct symbols, it reads the same bits, returns the same symbol, and ends or stops in the same way. -/
def Obligations.DecodeStepIsTheTreeWalk : Prop :=
  ∀ (t : Tree) (s : State), (t.codes.map Prod.fst).Nodup →
    (∀ e ∈ t.codes, 1 ≤ e.2.length ∧ e.2.length ≤ 255) → s.codebook = Codebook.ofCodes t.codes →
    decodeStep s = t.descend s

/-- Decoding inverts encoding (43_reader.md §4): a stream that W_ENCODE packs from W_INIT, read back with R_NBITS the number of
bits or the bits and the padding, ORIG_LEN the number of bytes and the same prefix-free codebook, decodes without error to
the original bytes, with R_BITPOS at the end of the codes. -/
def Obligations.DecodingInvertsEncoding : Prop :=
  ∀ (s : State) (syms : List Symbol), s.Inv → s.wstate = .opened → s.wBitcnt = 0 → s.codebook.PrefixFree →
    syms.length = s.wDatalen.toNat → s.wDatalen.toNat ≤ s.cfg.dataBytes → s.holdsData 0 syms →
    (∀ a ∈ syms, (s.codebook.get a).len ≠ 0) → (s.codebook.stream syms).length ≤ 8 * s.cfg.payloadBytes →
    ∃ s1 s2, exec .wEncode s = .next s1 ∧ s1.err = .ok ∧ exec .wFinal s1 = .next s2 ∧ s2.err = .ok ∧
      ∀ (nb : Word) (m : Memory), m.wf → (∀ c ∈ m, c.1 < s.cfg.dataBytes) →
        (nb.toNat = (s.codebook.stream syms).length ∨ nb.toNat = (s.codebook.stream syms).length + s2.wPad.toNat) →
        ∃ s3 s4,
          exec .rInit { s2 with rNbits := nb, origLen := BitVec.ofNat 64 syms.length, data := m } = .next s3 ∧
          s3.err = .ok ∧ exec .rDecode s3 = .next s4 ∧ s4.err = .ok ∧
          s4.rBitpos.toNat = (s.codebook.stream syms).length ∧ s4.rSymcnt.toNat = syms.length ∧ s4.holdsData 0 syms

/-- Truncation is detected (43_reader.md §4): the same stream with fewer valid bits declared than its codes have never decodes
with ERR = 0: R_DECODE fails with EXHAUSTED, at the first bit that is missing, with fewer symbols than were packed, all of
them the original ones. -/
def Obligations.TruncationIsDetected : Prop :=
  ∀ (s : State) (syms : List Symbol), s.Inv → s.rstate = .active → s.codebook.PrefixFree →
    (∀ a ∈ syms, (s.codebook.get a).len ≠ 0) → s.origLen.toNat ≤ s.cfg.dataBytes → syms.length = s.origLen.toNat →
    s.rSymcnt = 0 → s.rBitpos = 0 → s.holdsBits 0 (s.codebook.stream syms) →
    s.rNbits.toNat < (s.codebook.stream syms).length → (s.codebook.stream syms).length ≤ 8 * s.cfg.payloadBytes →
    ∃ t, exec .rDecode s = .next t ∧ t.err = .exhausted ∧ t.rstate = .failed ∧
      t.rBitpos = s.rNbits ∧ t.rSymcnt.toNat < syms.length ∧
      t.holdsData 0 (syms.take t.rSymcnt.toNat) ∧
      t = { s with rBitpos := t.rBitpos, rSymcnt := t.rSymcnt, rSym := t.rSym, data := t.data, rstate := t.rstate,
                   err := t.err, pending := none }

/-! ### Errors over all commands -/

/-- BAD_STATE, command by command (R241): the five writer commands raise it in IDLE and FINAL, the three reader commands in
IDLE and FAILED, with nothing but ERR changed, and W_INIT, R_INIT, NOP, CB_CLEAR, CB_WRITE and CB_READ never raise it. -/
def Obligations.BadStateCommandByCommand : Prop :=
  (∀ (i : Instr) (s : State), s.wstate = .idle ∨ s.wstate = .final →
    ((∃ b, i = .wPutbit b) ∨ (∃ n, i = .wPutbits n) ∨ (∃ a, i = .wPutsym a) ∨ i = .wEncode ∨ i = .wFinal) →
    exec i s = .next { s with err := .badState, pending := none }) ∧
  (∀ (i : Instr) (s : State), s.rstate = .idle ∨ s.rstate = .failed →
    (i = .rGetbit ∨ i = .rDecsym ∨ i = .rDecode) → exec i s = .next { s with err := .badState, pending := none }) ∧
  ∀ (i : Instr) (s t : State), exec i s = .next t →
    (i = .wInit ∨ i = .rInit ∨ i = .nop ∨ i = .cbClear ∨ (∃ a, i = .cbWrite a) ∨ (∃ a, i = .cbRead a)) →
    t.err ≠ .badState

/-- Which command can end with which code, and in what case (60_exceptions.md §1, the table's "raised by" column with each
cause): a command that ends with a code other than OK was one of those the table names for it, in a state with that cause. -/
def Obligations.EveryErrorHasItsCause : Prop :=
  ∀ (i : Instr) (s t : State), (∀ a, i ≠ .busRd a) → (∀ a d, i ≠ .busWr a d) → exec i s = .next t →
    t.err ≠ .illegalCmd ∧
    (t.err = .badState →
      (((∃ b, i = .wPutbit b) ∨ (∃ n, i = .wPutbits n) ∨ (∃ a, i = .wPutsym a) ∨ i = .wEncode ∨ i = .wFinal) ∧
        s.wstate ≠ .opened) ∨
      ((i = .rGetbit ∨ i = .rDecsym ∨ i = .rDecode) ∧ s.rstate ≠ .active)) ∧
    (t.err = .badOperand →
      (∃ n : BitVec 8, i = .wPutbits n ∧ (n.toNat = 0 ∨ 32 < n.toNat)) ∨
      (i = .wEncode ∧ s.cfg.dataBytes < s.wDatalen.toNat) ∨ (i = .rInit ∧ 8 * s.cfg.payloadBytes < s.rNbits.toNat) ∨
      (i = .rDecode ∧ s.cfg.dataBytes < s.origLen.toNat)) ∧
    (t.err = .noCode →
      (∃ a, i = .wPutsym a ∧ (s.codebook.get a).len = 0) ∨
      (i = .wEncode ∧ ∃ a, s.data.read t.wDatapos.toNat = some a ∧ (s.codebook.get a).len = 0)) ∧
    (t.err = .payloadFull →
      (∃ b, i = .wPutbit b ∧ 8 * s.cfg.payloadBytes < t.wBitcnt.toNat + 1) ∨
      (∃ n, i = .wPutbits n ∧ 8 * s.cfg.payloadBytes < t.wBitcnt.toNat + n.toNat) ∨
      (∃ a, i = .wPutsym a ∧ 8 * s.cfg.payloadBytes < t.wBitcnt.toNat + (s.codebook.get a).len.toNat) ∨
      (i = .wEncode ∧ ∃ a, s.data.read t.wDatapos.toNat = some a ∧
        8 * s.cfg.payloadBytes < t.wBitcnt.toNat + (s.codebook.get a).len.toNat)) ∧
    (t.err = .exhausted → (i = .rGetbit ∨ i = .rDecsym ∨ i = .rDecode) ∧
      (s.rNbits.toNat ≤ t.rBitpos.toNat ∨ 8 * s.cfg.payloadBytes ≤ t.rBitpos.toNat)) ∧
    (t.err = .offCode → (i = .rDecsym ∨ i = .rDecode) ∧
      ∃ bits : List Bool, bits ≠ [] ∧ bits.length = s.codebook.maxlen ∧
        s.rBitpos.toNat + bits.length ≤ t.rBitpos.toNat ∧ s.holdsBits (t.rBitpos.toNat - bits.length) bits ∧
        ∀ a : Symbol, (s.codebook.get a).len ≠ 0 → ¬ (s.codebook.get a).bits <+: bits) ∧
    (t.err = .emptyCodebook → (i = .rDecsym ∨ i = .rDecode) ∧ ∀ a : Symbol, (s.codebook.get a).len = 0) ∧
    (t.err = .countReached → i = .rDecsym ∧ s.origLen.toNat ≤ s.rSymcnt.toNat)

/-- An append that does not fit fails with PAYLOAD_FULL and appends nothing (R244, R152): W_PUTBIT, W_PUTBITS and W_PUTSYM, in
every state their earlier checks pass, test the whole append first. -/
def Obligations.AppendsThatDoNotFitAppendNothing : Prop :=
  ∀ s : State, s.wstate = .opened →
    (∀ b, 8 * s.cfg.payloadBytes < s.wBitcnt.toNat + 1 →
      exec (.wPutbit b) s = .next { s with err := .payloadFull, pending := none }) ∧
    (∀ n : BitVec 8, 1 ≤ n.toNat → n.toNat ≤ 32 → 8 * s.cfg.payloadBytes < s.wBitcnt.toNat + n.toNat →
      exec (.wPutbits n) s = .next { s with err := .payloadFull, pending := none }) ∧
    (∀ a : Symbol, (s.codebook.get a).len ≠ 0 →
      8 * s.cfg.payloadBytes < s.wBitcnt.toNat + (s.codebook.get a).len.toNat →
      exec (.wPutsym a) s = .next { s with err := .payloadFull, pending := none })

/-- Every command ends by clearing BUSY, and no command writes DROPPED, the operand registers of the host, the build's
parameters or what lies outside the block (40_host_bus.md §2, 10_state.md §6-§8). -/
def Obligations.CommandsEndAndLeaveTheHostsRegisters : Prop :=
  ∀ (i : Instr) (s t : State), (∀ a, i ≠ .busRd a) → (∀ a d, i ≠ .busWr a d) → exec i s = .next t →
    t.busy = false ∧ t.dropped = s.dropped ∧ t.wBitsval = s.wBitsval ∧ t.wDatalen = s.wDatalen ∧ t.rNbits = s.rNbits ∧
    t.origLen = s.origLen ∧ t.plAddr = s.plAddr ∧ t.dtAddr = s.dtAddr ∧ t.cfg = s.cfg ∧ t.inputs = s.inputs ∧
    t.replies = s.replies ∧ t.draws = s.draws ∧
    ((∀ a, i ≠ .cbRead a) → t.cbLen = s.cbLen ∧ t.cbCode = s.cbCode)

/-! ### Invariants -/

/-- The invariant holds after reset, for every build with legal parameters; `State.reset` is that state for the build of
log 1. -/
def Obligations.InvariantHoldsAtReset : Prop :=
  (∀ cfg : Config, cfg.Legal → (State.resetWith cfg).Inv) ∧ State.reset = State.resetWith State.reset.cfg ∧ State.reset.Inv

/-- Every instruction keeps the invariant, from every state that has it (R36, R37, R38, R47, R50, R52 and the canonical form of
the RAMs). -/
def Obligations.EveryInstructionKeepsTheInvariant : Prop :=
  ∀ (i : Instr) (s t : State), s.Inv → exec i s = .next t → t.Inv

/-- Every step keeps the invariant, whatever the host, the engine and reset do. -/
def Obligations.EveryStepKeepsTheInvariant : Prop :=
  ∀ s t : State, s.Inv → step s = .next t → t.Inv

/-! ### Reference firmware -/

/-- The codebook that the firmware derives from a frequency table with distinct symbols (49_firmware_precomputation.md §3-§4):
every symbol of the table and no other has one code, every code has 1 to 255 bits, and no code is a prefix of another
symbol's. -/
def Obligations.DerivedCodesArePrefixFree : Prop :=
  ∀ f : FrequencyTable, (f.map Prod.fst).Nodup →
    (∀ a : Symbol, a ∈ f.map Prod.fst ↔ a ∈ (codesOf f).map Prod.fst) ∧ ((codesOf f).map Prod.fst).Nodup ∧
    (∀ e ∈ codesOf f, 1 ≤ e.2.length ∧ e.2.length ≤ 255) ∧
    ∀ d ∈ codesOf f, ∀ e ∈ codesOf f, d.2 <+: e.2 → d = e

/-- The container parses back (49_firmware_precomputation.md §6-§7): the bytes of any container whose fields pass the header
checks give the same fields. -/
def Obligations.ContainerParsesBack : Prop :=
  ∀ c : Container, strictlyAscending c.symbolTable = true → (∀ e ∈ c.symbolTable, e.2 ≠ 0) →
    (c.symbolTable.map fun e => e.2.toNat).sum = c.originalLength.toNat → c.paddingBits.toNat ≤ 7 →
    parseContainer c.bytes = .ok c

/-- The round trip of the reference firmware (the model's, log 15, log 18) on the block (49_firmware_precomputation.md §5-§7): whenever encode gives a
container, decode on any idle block of a legal build with the same parameters gives the original bytes back. -/
def Obligations.FirmwareRoundTrip : Prop :=
  ∀ (polls polls' : Nat) (x bytes : List Byte) (s s' t : State), s.Inv → t.Inv → s.pending = none → t.pending = none →
    t.cfg = s.cfg → fwEncode polls x s = .ok (bytes, s') →
    ∃ t', fwDecode polls' bytes t = .ok (x, t')

/-- Monotonicity of the derived codebook (49_firmware_precomputation.md §4): of two symbols of a frequency table with distinct
symbols, the one that is more frequent has a code that is no longer. -/
def Obligations.DerivedCodesAreMonotone : Prop :=
  ∀ (f : FrequencyTable) (a b : Symbol) (wa wb : Nat) (ca cb : List Bool), (f.map Prod.fst).Nodup →
    (a, wa) ∈ f → (b, wb) ∈ f → (a, ca) ∈ codesOf f → (b, cb) ∈ codesOf f → wb < wa → ca.length ≤ cb.length

/-- Non-expansion (49_firmware_precomputation.md §4): the bits that the derived codes pack a byte sequence into are at most
8 for each byte when it has two or more distinct bytes; and when it has one, its code has length 1, so they are one for
each byte. -/
def Obligations.DerivedCodesDoNotExpand : Prop :=
  (∀ (x : List Byte) (a b : Byte), a ∈ x → b ∈ x → a ≠ b →
    ((Codebook.ofCodes (codesOf (freq x))).stream x).length ≤ 8 * x.length) ∧
  ∀ (x : List Byte) (a : Byte), x ≠ [] → (∀ b ∈ x, b = a) →
    (∃ c, codesOf (freq x) = [(a, c)] ∧ c.length = 1) ∧
    ((Codebook.ofCodes (codesOf (freq x))).stream x).length = x.length

/-- Determinism (49_firmware_precomputation.md §4): encoding the same bytes on any two idle blocks, whatever their state, their
build and the polls of their waits, gives the same container when both give one. The firmware is the model's reference
(log 15, log 18). -/
def Obligations.EncodingIsDeterministic : Prop :=
  ∀ (polls polls' : Nat) (x bytes bytes' : List Byte) (s s' u u' : State), s.Inv → s'.Inv → s.pending = none →
    s'.pending = none → fwEncode polls x s = .ok (bytes, u) → fwEncode polls' x s' = .ok (bytes', u') → bytes = bytes'
end

