-- ==== Sys2Proof/Laws/Bus.lean ====
section
/-! SUPPORT. The laws of the register map and the windows: what a read and a write of a register word can do
(R22, R110, R111). -/

namespace Sys2Proof.Machine

/-- A register is found at its address, and at no other. -/
theorem regOfAddr_eq_some_iff (a : RegAddr) (r : Reg) : regOfAddr a = some r ↔ a = regAddr r := by
  constructor
  · intro h
    unfold regOfAddr at h
    split at h <;> cases h <;> rfl
  · rintro rfl
    cases r with
    | cbCode k => fin_cases k <;> rfl
    | _ => rfl

/-- Everything a read through a window can do (R45, R46, R63, R66). -/
theorem windowRead_cases (ram : Ram) (m : Memory) (size : Nat) (a : Word) :
    (size ≤ a.toNat ∧ windowRead ram m size a = .ok 0) ∨
    (a.toNat < size ∧ m.read a.toNat = none ∧ windowRead ram m size a = .error (.unwritten ram a.toNat)) ∨
    (a.toNat < size ∧ ∃ v, m.read a.toNat = some v ∧ windowRead ram m size a = .ok (v.setWidth 32)) := by
  unfold windowRead
  by_cases h : a.toNat < size
  · rw [if_pos h]
    cases m.read a.toNat with
    | none => exact .inr (.inl ⟨h, rfl, rfl⟩)
    | some v => exact .inr (.inr ⟨h, v, rfl, rfl⟩)
  · exact .inl ⟨Nat.not_lt.1 h, by rw [if_neg h]⟩

/-- A register read stops only at a window on a byte without a value. -/
theorem readReg_error {s : State} {r : Reg} {f : Fault} (h : readReg s r = .error f) :
    (r = .plData ∧ f = .unwritten .payload s.plAddr.toNat ∧ s.plAddr.toNat < s.cfg.payloadBytes ∧
      s.payload.read s.plAddr.toNat = none) ∨
    (r = .dtData ∧ f = .unwritten .data s.dtAddr.toNat ∧ s.dtAddr.toNat < s.cfg.dataBytes ∧
      s.data.read s.dtAddr.toNat = none) := by
  cases r with
  | plData =>
    rcases windowRead_cases .payload s.payload s.cfg.payloadBytes s.plAddr with ⟨_, he⟩ | ⟨h1, h2, he⟩ | ⟨_, _, _, he⟩ <;>
      rw [readReg, he] at h <;> cases h
    exact .inl ⟨rfl, rfl, h1, h2⟩
  | dtData =>
    rcases windowRead_cases .data s.data s.cfg.dataBytes s.dtAddr with ⟨_, he⟩ | ⟨h1, h2, he⟩ | ⟨_, _, _, he⟩ <;>
      rw [readReg, he] at h <;> cases h
    exact .inr ⟨rfl, rfl, h1, h2⟩
  | _ => cases h

/-- Everything a register write can change: what the host writes, and nothing that only commands write. -/
theorem writeReg_frame (d : Word) (s : State) (r : Reg) :
    ∃ t, writeReg d s r = t ∧
      t = { s with pending := t.pending, err := t.err, dropped := t.dropped, cbLen := t.cbLen, cbCode := t.cbCode,
                   wBitsval := t.wBitsval, wDatalen := t.wDatalen, rNbits := t.rNbits, origLen := t.origLen,
                   plAddr := t.plAddr, dtAddr := t.dtAddr, payload := t.payload, data := t.data } ∧
      (t.payload = s.payload ∨ s.plAddr.toNat < s.cfg.payloadBytes ∧
        t.payload = s.payload.write s.plAddr.toNat (d.extractLsb' 0 8)) ∧
      (t.data = s.data ∨ s.dtAddr.toNat < s.cfg.dataBytes ∧
        t.data = s.data.write s.dtAddr.toNat (d.extractLsb' 0 8)) ∧
      (t.pending = s.pending ∧ t.err = s.err ∨ t.pending = some d ∧ t.err = .ok) := by
  refine ⟨_, rfl, ?_⟩
  cases r with
  | cmd => exact ⟨rfl, .inl rfl, .inl rfl, .inr ⟨rfl, rfl⟩⟩
  | status =>
    simp only [writeReg]
    split <;> exact ⟨rfl, .inl rfl, .inl rfl, .inl ⟨rfl, rfl⟩⟩
  | plData =>
    simp only [writeReg]
    split
    · exact ⟨rfl, .inr ⟨by assumption, rfl⟩, .inl rfl, .inl ⟨rfl, rfl⟩⟩
    · exact ⟨rfl, .inl rfl, .inl rfl, .inl ⟨rfl, rfl⟩⟩
  | dtData =>
    simp only [writeReg]
    split
    · exact ⟨rfl, .inl rfl, .inr ⟨by assumption, rfl⟩, .inl ⟨rfl, rfl⟩⟩
    · exact ⟨rfl, .inl rfl, .inl rfl, .inl ⟨rfl, rfl⟩⟩
  | _ => exact ⟨rfl, .inl rfl, .inl rfl, .inl ⟨rfl, rfl⟩⟩

/-- A read of the bus changes `replies` and `draws` only, or stops at a window (R68, R110). -/
theorem execBusRd_cases (a : RegAddr) (s : State) :
    (∃ v n, execBusRd a s = .next { s with replies := v :: s.replies, draws := n } ∧ (s.busy = false → n = s.draws)) ∨
    (s.busy = false ∧ ∃ r f, regOfAddr a = some r ∧ readReg s r = .error f ∧ execBusRd a s = .fault f) := by
  unfold execBusRd
  by_cases hb : s.busy = true
  · rw [if_pos hb]
    left
    unfold busyRead
    split <;> exact ⟨_, _, rfl, fun h => absurd (h.symm.trans hb) (by decide)⟩
  · rw [if_neg hb]
    cases hr : regOfAddr a with
    | none => exact .inl ⟨0, s.draws, rfl, fun _ => rfl⟩
    | some r =>
      simp only
      cases he : readReg s r with
      | error f => exact .inr ⟨by simpa using hb, r, f, rfl, he, rfl⟩
      | ok v => exact .inl ⟨v, s.draws, rfl, fun _ => rfl⟩

end Sys2Proof.Machine
end

