-- ==== Sys2Proof/Laws/State.lean ====
section
/-! SUPPORT. One lemma per field per named update of State, so that no proof unfolds a record update. -/

namespace Sys2Proof.Machine

variable (s : State)

/-! `State.finish` -/

@[simp] theorem State.finish_cfg (e : ErrCode) : (s.finish e).cfg = s.cfg := rfl
@[simp] theorem State.finish_pending (e : ErrCode) : (s.finish e).pending = none := rfl
@[simp] theorem State.finish_dropped (e : ErrCode) : (s.finish e).dropped = s.dropped := rfl
@[simp] theorem State.finish_err (e : ErrCode) : (s.finish e).err = e := rfl
@[simp] theorem State.finish_wstate (e : ErrCode) : (s.finish e).wstate = s.wstate := rfl
@[simp] theorem State.finish_rstate (e : ErrCode) : (s.finish e).rstate = s.rstate := rfl
@[simp] theorem State.finish_cbLen (e : ErrCode) : (s.finish e).cbLen = s.cbLen := rfl
@[simp] theorem State.finish_cbCode (e : ErrCode) : (s.finish e).cbCode = s.cbCode := rfl
@[simp] theorem State.finish_wBitsval (e : ErrCode) : (s.finish e).wBitsval = s.wBitsval := rfl
@[simp] theorem State.finish_wDatalen (e : ErrCode) : (s.finish e).wDatalen = s.wDatalen := rfl
@[simp] theorem State.finish_wBitcnt (e : ErrCode) : (s.finish e).wBitcnt = s.wBitcnt := rfl
@[simp] theorem State.finish_wPad (e : ErrCode) : (s.finish e).wPad = s.wPad := rfl
@[simp] theorem State.finish_wDatapos (e : ErrCode) : (s.finish e).wDatapos = s.wDatapos := rfl
@[simp] theorem State.finish_rNbits (e : ErrCode) : (s.finish e).rNbits = s.rNbits := rfl
@[simp] theorem State.finish_origLen (e : ErrCode) : (s.finish e).origLen = s.origLen := rfl
@[simp] theorem State.finish_rBitpos (e : ErrCode) : (s.finish e).rBitpos = s.rBitpos := rfl
@[simp] theorem State.finish_rSymcnt (e : ErrCode) : (s.finish e).rSymcnt = s.rSymcnt := rfl
@[simp] theorem State.finish_rBit (e : ErrCode) : (s.finish e).rBit = s.rBit := rfl
@[simp] theorem State.finish_rSym (e : ErrCode) : (s.finish e).rSym = s.rSym := rfl
@[simp] theorem State.finish_plAddr (e : ErrCode) : (s.finish e).plAddr = s.plAddr := rfl
@[simp] theorem State.finish_dtAddr (e : ErrCode) : (s.finish e).dtAddr = s.dtAddr := rfl
@[simp] theorem State.finish_codebook (e : ErrCode) : (s.finish e).codebook = s.codebook := rfl
@[simp] theorem State.finish_payload (e : ErrCode) : (s.finish e).payload = s.payload := rfl
@[simp] theorem State.finish_data (e : ErrCode) : (s.finish e).data = s.data := rfl
@[simp] theorem State.finish_inputs (e : ErrCode) : (s.finish e).inputs = s.inputs := rfl
@[simp] theorem State.finish_replies (e : ErrCode) : (s.finish e).replies = s.replies := rfl
@[simp] theorem State.finish_draws (e : ErrCode) : (s.finish e).draws = s.draws := rfl

/-! `State.issue` -/

@[simp] theorem State.issue_cfg (d : Word) : (s.issue d).cfg = s.cfg := rfl
@[simp] theorem State.issue_pending (d : Word) : (s.issue d).pending = some d := rfl
@[simp] theorem State.issue_dropped (d : Word) : (s.issue d).dropped = s.dropped := rfl
@[simp] theorem State.issue_err (d : Word) : (s.issue d).err = .ok := rfl
@[simp] theorem State.issue_wstate (d : Word) : (s.issue d).wstate = s.wstate := rfl
@[simp] theorem State.issue_rstate (d : Word) : (s.issue d).rstate = s.rstate := rfl
@[simp] theorem State.issue_cbLen (d : Word) : (s.issue d).cbLen = s.cbLen := rfl
@[simp] theorem State.issue_cbCode (d : Word) : (s.issue d).cbCode = s.cbCode := rfl
@[simp] theorem State.issue_wBitsval (d : Word) : (s.issue d).wBitsval = s.wBitsval := rfl
@[simp] theorem State.issue_wDatalen (d : Word) : (s.issue d).wDatalen = s.wDatalen := rfl
@[simp] theorem State.issue_wBitcnt (d : Word) : (s.issue d).wBitcnt = s.wBitcnt := rfl
@[simp] theorem State.issue_wPad (d : Word) : (s.issue d).wPad = s.wPad := rfl
@[simp] theorem State.issue_wDatapos (d : Word) : (s.issue d).wDatapos = s.wDatapos := rfl
@[simp] theorem State.issue_rNbits (d : Word) : (s.issue d).rNbits = s.rNbits := rfl
@[simp] theorem State.issue_origLen (d : Word) : (s.issue d).origLen = s.origLen := rfl
@[simp] theorem State.issue_rBitpos (d : Word) : (s.issue d).rBitpos = s.rBitpos := rfl
@[simp] theorem State.issue_rSymcnt (d : Word) : (s.issue d).rSymcnt = s.rSymcnt := rfl
@[simp] theorem State.issue_rBit (d : Word) : (s.issue d).rBit = s.rBit := rfl
@[simp] theorem State.issue_rSym (d : Word) : (s.issue d).rSym = s.rSym := rfl
@[simp] theorem State.issue_plAddr (d : Word) : (s.issue d).plAddr = s.plAddr := rfl
@[simp] theorem State.issue_dtAddr (d : Word) : (s.issue d).dtAddr = s.dtAddr := rfl
@[simp] theorem State.issue_codebook (d : Word) : (s.issue d).codebook = s.codebook := rfl
@[simp] theorem State.issue_payload (d : Word) : (s.issue d).payload = s.payload := rfl
@[simp] theorem State.issue_data (d : Word) : (s.issue d).data = s.data := rfl
@[simp] theorem State.issue_inputs (d : Word) : (s.issue d).inputs = s.inputs := rfl
@[simp] theorem State.issue_replies (d : Word) : (s.issue d).replies = s.replies := rfl
@[simp] theorem State.issue_draws (d : Word) : (s.issue d).draws = s.draws := rfl

/-! `State.failReader` -/

@[simp] theorem State.failReader_cfg (e : ErrCode) : (s.failReader e).cfg = s.cfg := rfl
@[simp] theorem State.failReader_pending (e : ErrCode) : (s.failReader e).pending = none := rfl
@[simp] theorem State.failReader_dropped (e : ErrCode) : (s.failReader e).dropped = s.dropped := rfl
@[simp] theorem State.failReader_err (e : ErrCode) : (s.failReader e).err = e := rfl
@[simp] theorem State.failReader_wstate (e : ErrCode) : (s.failReader e).wstate = s.wstate := rfl
@[simp] theorem State.failReader_rstate (e : ErrCode) : (s.failReader e).rstate = .failed := rfl
@[simp] theorem State.failReader_cbLen (e : ErrCode) : (s.failReader e).cbLen = s.cbLen := rfl
@[simp] theorem State.failReader_cbCode (e : ErrCode) : (s.failReader e).cbCode = s.cbCode := rfl
@[simp] theorem State.failReader_wBitsval (e : ErrCode) : (s.failReader e).wBitsval = s.wBitsval := rfl
@[simp] theorem State.failReader_wDatalen (e : ErrCode) : (s.failReader e).wDatalen = s.wDatalen := rfl
@[simp] theorem State.failReader_wBitcnt (e : ErrCode) : (s.failReader e).wBitcnt = s.wBitcnt := rfl
@[simp] theorem State.failReader_wPad (e : ErrCode) : (s.failReader e).wPad = s.wPad := rfl
@[simp] theorem State.failReader_wDatapos (e : ErrCode) : (s.failReader e).wDatapos = s.wDatapos := rfl
@[simp] theorem State.failReader_rNbits (e : ErrCode) : (s.failReader e).rNbits = s.rNbits := rfl
@[simp] theorem State.failReader_origLen (e : ErrCode) : (s.failReader e).origLen = s.origLen := rfl
@[simp] theorem State.failReader_rBitpos (e : ErrCode) : (s.failReader e).rBitpos = s.rBitpos := rfl
@[simp] theorem State.failReader_rSymcnt (e : ErrCode) : (s.failReader e).rSymcnt = s.rSymcnt := rfl
@[simp] theorem State.failReader_rBit (e : ErrCode) : (s.failReader e).rBit = s.rBit := rfl
@[simp] theorem State.failReader_rSym (e : ErrCode) : (s.failReader e).rSym = s.rSym := rfl
@[simp] theorem State.failReader_plAddr (e : ErrCode) : (s.failReader e).plAddr = s.plAddr := rfl
@[simp] theorem State.failReader_dtAddr (e : ErrCode) : (s.failReader e).dtAddr = s.dtAddr := rfl
@[simp] theorem State.failReader_codebook (e : ErrCode) : (s.failReader e).codebook = s.codebook := rfl
@[simp] theorem State.failReader_payload (e : ErrCode) : (s.failReader e).payload = s.payload := rfl
@[simp] theorem State.failReader_data (e : ErrCode) : (s.failReader e).data = s.data := rfl
@[simp] theorem State.failReader_inputs (e : ErrCode) : (s.failReader e).inputs = s.inputs := rfl
@[simp] theorem State.failReader_replies (e : ErrCode) : (s.failReader e).replies = s.replies := rfl
@[simp] theorem State.failReader_draws (e : ErrCode) : (s.failReader e).draws = s.draws := rfl

/-! `State.writePayload` -/

@[simp] theorem State.writePayload_cfg (a : Nat) (v : Byte) : (s.writePayload a v).cfg = s.cfg := rfl
@[simp] theorem State.writePayload_pending (a : Nat) (v : Byte) : (s.writePayload a v).pending = s.pending := rfl
@[simp] theorem State.writePayload_dropped (a : Nat) (v : Byte) : (s.writePayload a v).dropped = s.dropped := rfl
@[simp] theorem State.writePayload_err (a : Nat) (v : Byte) : (s.writePayload a v).err = s.err := rfl
@[simp] theorem State.writePayload_wstate (a : Nat) (v : Byte) : (s.writePayload a v).wstate = s.wstate := rfl
@[simp] theorem State.writePayload_rstate (a : Nat) (v : Byte) : (s.writePayload a v).rstate = s.rstate := rfl
@[simp] theorem State.writePayload_cbLen (a : Nat) (v : Byte) : (s.writePayload a v).cbLen = s.cbLen := rfl
@[simp] theorem State.writePayload_cbCode (a : Nat) (v : Byte) : (s.writePayload a v).cbCode = s.cbCode := rfl
@[simp] theorem State.writePayload_wBitsval (a : Nat) (v : Byte) : (s.writePayload a v).wBitsval = s.wBitsval := rfl
@[simp] theorem State.writePayload_wDatalen (a : Nat) (v : Byte) : (s.writePayload a v).wDatalen = s.wDatalen := rfl
@[simp] theorem State.writePayload_wBitcnt (a : Nat) (v : Byte) : (s.writePayload a v).wBitcnt = s.wBitcnt := rfl
@[simp] theorem State.writePayload_wPad (a : Nat) (v : Byte) : (s.writePayload a v).wPad = s.wPad := rfl
@[simp] theorem State.writePayload_wDatapos (a : Nat) (v : Byte) : (s.writePayload a v).wDatapos = s.wDatapos := rfl
@[simp] theorem State.writePayload_rNbits (a : Nat) (v : Byte) : (s.writePayload a v).rNbits = s.rNbits := rfl
@[simp] theorem State.writePayload_origLen (a : Nat) (v : Byte) : (s.writePayload a v).origLen = s.origLen := rfl
@[simp] theorem State.writePayload_rBitpos (a : Nat) (v : Byte) : (s.writePayload a v).rBitpos = s.rBitpos := rfl
@[simp] theorem State.writePayload_rSymcnt (a : Nat) (v : Byte) : (s.writePayload a v).rSymcnt = s.rSymcnt := rfl
@[simp] theorem State.writePayload_rBit (a : Nat) (v : Byte) : (s.writePayload a v).rBit = s.rBit := rfl
@[simp] theorem State.writePayload_rSym (a : Nat) (v : Byte) : (s.writePayload a v).rSym = s.rSym := rfl
@[simp] theorem State.writePayload_plAddr (a : Nat) (v : Byte) : (s.writePayload a v).plAddr = s.plAddr := rfl
@[simp] theorem State.writePayload_dtAddr (a : Nat) (v : Byte) : (s.writePayload a v).dtAddr = s.dtAddr := rfl
@[simp] theorem State.writePayload_codebook (a : Nat) (v : Byte) : (s.writePayload a v).codebook = s.codebook := rfl
@[simp] theorem State.writePayload_payload (a : Nat) (v : Byte) : (s.writePayload a v).payload = s.payload.write a v := rfl
@[simp] theorem State.writePayload_data (a : Nat) (v : Byte) : (s.writePayload a v).data = s.data := rfl
@[simp] theorem State.writePayload_inputs (a : Nat) (v : Byte) : (s.writePayload a v).inputs = s.inputs := rfl
@[simp] theorem State.writePayload_replies (a : Nat) (v : Byte) : (s.writePayload a v).replies = s.replies := rfl
@[simp] theorem State.writePayload_draws (a : Nat) (v : Byte) : (s.writePayload a v).draws = s.draws := rfl

/-! `State.writeData` -/

@[simp] theorem State.writeData_cfg (a : Nat) (v : Byte) : (s.writeData a v).cfg = s.cfg := rfl
@[simp] theorem State.writeData_pending (a : Nat) (v : Byte) : (s.writeData a v).pending = s.pending := rfl
@[simp] theorem State.writeData_dropped (a : Nat) (v : Byte) : (s.writeData a v).dropped = s.dropped := rfl
@[simp] theorem State.writeData_err (a : Nat) (v : Byte) : (s.writeData a v).err = s.err := rfl
@[simp] theorem State.writeData_wstate (a : Nat) (v : Byte) : (s.writeData a v).wstate = s.wstate := rfl
@[simp] theorem State.writeData_rstate (a : Nat) (v : Byte) : (s.writeData a v).rstate = s.rstate := rfl
@[simp] theorem State.writeData_cbLen (a : Nat) (v : Byte) : (s.writeData a v).cbLen = s.cbLen := rfl
@[simp] theorem State.writeData_cbCode (a : Nat) (v : Byte) : (s.writeData a v).cbCode = s.cbCode := rfl
@[simp] theorem State.writeData_wBitsval (a : Nat) (v : Byte) : (s.writeData a v).wBitsval = s.wBitsval := rfl
@[simp] theorem State.writeData_wDatalen (a : Nat) (v : Byte) : (s.writeData a v).wDatalen = s.wDatalen := rfl
@[simp] theorem State.writeData_wBitcnt (a : Nat) (v : Byte) : (s.writeData a v).wBitcnt = s.wBitcnt := rfl
@[simp] theorem State.writeData_wPad (a : Nat) (v : Byte) : (s.writeData a v).wPad = s.wPad := rfl
@[simp] theorem State.writeData_wDatapos (a : Nat) (v : Byte) : (s.writeData a v).wDatapos = s.wDatapos := rfl
@[simp] theorem State.writeData_rNbits (a : Nat) (v : Byte) : (s.writeData a v).rNbits = s.rNbits := rfl
@[simp] theorem State.writeData_origLen (a : Nat) (v : Byte) : (s.writeData a v).origLen = s.origLen := rfl
@[simp] theorem State.writeData_rBitpos (a : Nat) (v : Byte) : (s.writeData a v).rBitpos = s.rBitpos := rfl
@[simp] theorem State.writeData_rSymcnt (a : Nat) (v : Byte) : (s.writeData a v).rSymcnt = s.rSymcnt := rfl
@[simp] theorem State.writeData_rBit (a : Nat) (v : Byte) : (s.writeData a v).rBit = s.rBit := rfl
@[simp] theorem State.writeData_rSym (a : Nat) (v : Byte) : (s.writeData a v).rSym = s.rSym := rfl
@[simp] theorem State.writeData_plAddr (a : Nat) (v : Byte) : (s.writeData a v).plAddr = s.plAddr := rfl
@[simp] theorem State.writeData_dtAddr (a : Nat) (v : Byte) : (s.writeData a v).dtAddr = s.dtAddr := rfl
@[simp] theorem State.writeData_codebook (a : Nat) (v : Byte) : (s.writeData a v).codebook = s.codebook := rfl
@[simp] theorem State.writeData_payload (a : Nat) (v : Byte) : (s.writeData a v).payload = s.payload := rfl
@[simp] theorem State.writeData_data (a : Nat) (v : Byte) : (s.writeData a v).data = s.data.write a v := rfl
@[simp] theorem State.writeData_inputs (a : Nat) (v : Byte) : (s.writeData a v).inputs = s.inputs := rfl
@[simp] theorem State.writeData_replies (a : Nat) (v : Byte) : (s.writeData a v).replies = s.replies := rfl
@[simp] theorem State.writeData_draws (a : Nat) (v : Byte) : (s.writeData a v).draws = s.draws := rfl

/-! `State.reply` -/

@[simp] theorem State.reply_cfg (r : Word) : (s.reply r).cfg = s.cfg := rfl
@[simp] theorem State.reply_pending (r : Word) : (s.reply r).pending = s.pending := rfl
@[simp] theorem State.reply_dropped (r : Word) : (s.reply r).dropped = s.dropped := rfl
@[simp] theorem State.reply_err (r : Word) : (s.reply r).err = s.err := rfl
@[simp] theorem State.reply_wstate (r : Word) : (s.reply r).wstate = s.wstate := rfl
@[simp] theorem State.reply_rstate (r : Word) : (s.reply r).rstate = s.rstate := rfl
@[simp] theorem State.reply_cbLen (r : Word) : (s.reply r).cbLen = s.cbLen := rfl
@[simp] theorem State.reply_cbCode (r : Word) : (s.reply r).cbCode = s.cbCode := rfl
@[simp] theorem State.reply_wBitsval (r : Word) : (s.reply r).wBitsval = s.wBitsval := rfl
@[simp] theorem State.reply_wDatalen (r : Word) : (s.reply r).wDatalen = s.wDatalen := rfl
@[simp] theorem State.reply_wBitcnt (r : Word) : (s.reply r).wBitcnt = s.wBitcnt := rfl
@[simp] theorem State.reply_wPad (r : Word) : (s.reply r).wPad = s.wPad := rfl
@[simp] theorem State.reply_wDatapos (r : Word) : (s.reply r).wDatapos = s.wDatapos := rfl
@[simp] theorem State.reply_rNbits (r : Word) : (s.reply r).rNbits = s.rNbits := rfl
@[simp] theorem State.reply_origLen (r : Word) : (s.reply r).origLen = s.origLen := rfl
@[simp] theorem State.reply_rBitpos (r : Word) : (s.reply r).rBitpos = s.rBitpos := rfl
@[simp] theorem State.reply_rSymcnt (r : Word) : (s.reply r).rSymcnt = s.rSymcnt := rfl
@[simp] theorem State.reply_rBit (r : Word) : (s.reply r).rBit = s.rBit := rfl
@[simp] theorem State.reply_rSym (r : Word) : (s.reply r).rSym = s.rSym := rfl
@[simp] theorem State.reply_plAddr (r : Word) : (s.reply r).plAddr = s.plAddr := rfl
@[simp] theorem State.reply_dtAddr (r : Word) : (s.reply r).dtAddr = s.dtAddr := rfl
@[simp] theorem State.reply_codebook (r : Word) : (s.reply r).codebook = s.codebook := rfl
@[simp] theorem State.reply_payload (r : Word) : (s.reply r).payload = s.payload := rfl
@[simp] theorem State.reply_data (r : Word) : (s.reply r).data = s.data := rfl
@[simp] theorem State.reply_inputs (r : Word) : (s.reply r).inputs = s.inputs := rfl
@[simp] theorem State.reply_replies (r : Word) : (s.reply r).replies = r :: s.replies := rfl
@[simp] theorem State.reply_draws (r : Word) : (s.reply r).draws = s.draws := rfl

/-! `State.nextDraw` -/

@[simp] theorem State.nextDraw_cfg : (s.nextDraw).cfg = s.cfg := rfl
@[simp] theorem State.nextDraw_pending : (s.nextDraw).pending = s.pending := rfl
@[simp] theorem State.nextDraw_dropped : (s.nextDraw).dropped = s.dropped := rfl
@[simp] theorem State.nextDraw_err : (s.nextDraw).err = s.err := rfl
@[simp] theorem State.nextDraw_wstate : (s.nextDraw).wstate = s.wstate := rfl
@[simp] theorem State.nextDraw_rstate : (s.nextDraw).rstate = s.rstate := rfl
@[simp] theorem State.nextDraw_cbLen : (s.nextDraw).cbLen = s.cbLen := rfl
@[simp] theorem State.nextDraw_cbCode : (s.nextDraw).cbCode = s.cbCode := rfl
@[simp] theorem State.nextDraw_wBitsval : (s.nextDraw).wBitsval = s.wBitsval := rfl
@[simp] theorem State.nextDraw_wDatalen : (s.nextDraw).wDatalen = s.wDatalen := rfl
@[simp] theorem State.nextDraw_wBitcnt : (s.nextDraw).wBitcnt = s.wBitcnt := rfl
@[simp] theorem State.nextDraw_wPad : (s.nextDraw).wPad = s.wPad := rfl
@[simp] theorem State.nextDraw_wDatapos : (s.nextDraw).wDatapos = s.wDatapos := rfl
@[simp] theorem State.nextDraw_rNbits : (s.nextDraw).rNbits = s.rNbits := rfl
@[simp] theorem State.nextDraw_origLen : (s.nextDraw).origLen = s.origLen := rfl
@[simp] theorem State.nextDraw_rBitpos : (s.nextDraw).rBitpos = s.rBitpos := rfl
@[simp] theorem State.nextDraw_rSymcnt : (s.nextDraw).rSymcnt = s.rSymcnt := rfl
@[simp] theorem State.nextDraw_rBit : (s.nextDraw).rBit = s.rBit := rfl
@[simp] theorem State.nextDraw_rSym : (s.nextDraw).rSym = s.rSym := rfl
@[simp] theorem State.nextDraw_plAddr : (s.nextDraw).plAddr = s.plAddr := rfl
@[simp] theorem State.nextDraw_dtAddr : (s.nextDraw).dtAddr = s.dtAddr := rfl
@[simp] theorem State.nextDraw_codebook : (s.nextDraw).codebook = s.codebook := rfl
@[simp] theorem State.nextDraw_payload : (s.nextDraw).payload = s.payload := rfl
@[simp] theorem State.nextDraw_data : (s.nextDraw).data = s.data := rfl
@[simp] theorem State.nextDraw_inputs : (s.nextDraw).inputs = s.inputs := rfl
@[simp] theorem State.nextDraw_replies : (s.nextDraw).replies = s.replies := rfl
@[simp] theorem State.nextDraw_draws : (s.nextDraw).draws = s.draws + 1 := rfl

/-! BUSY is the pending command (log 6). -/

@[simp] theorem State.busy_finish (e : ErrCode) : (s.finish e).busy = false := rfl
@[simp] theorem State.busy_issue (d : Word) : (s.issue d).busy = true := rfl
@[simp] theorem State.busy_failReader (e : ErrCode) : (s.failReader e).busy = false := rfl

theorem State.busy_eq_false_iff : s.busy = false ↔ s.pending = none := by
  cases h : s.pending <;> simp [State.busy, h]

theorem State.busy_eq_true_iff : s.busy = true ↔ ∃ w, s.pending = some w := by
  cases h : s.pending <;> simp [State.busy, h]

/-! `Emit` writes R_SYM, R_SYMCNT and DT (R185). -/

variable (sym : Symbol)

@[simp] theorem emit_cfg : (emit sym s).cfg = s.cfg := rfl
@[simp] theorem emit_pending : (emit sym s).pending = s.pending := rfl
@[simp] theorem emit_dropped : (emit sym s).dropped = s.dropped := rfl
@[simp] theorem emit_err : (emit sym s).err = s.err := rfl
@[simp] theorem emit_wstate : (emit sym s).wstate = s.wstate := rfl
@[simp] theorem emit_rstate : (emit sym s).rstate = s.rstate := rfl
@[simp] theorem emit_cbLen : (emit sym s).cbLen = s.cbLen := rfl
@[simp] theorem emit_cbCode : (emit sym s).cbCode = s.cbCode := rfl
@[simp] theorem emit_wBitsval : (emit sym s).wBitsval = s.wBitsval := rfl
@[simp] theorem emit_wDatalen : (emit sym s).wDatalen = s.wDatalen := rfl
@[simp] theorem emit_wBitcnt : (emit sym s).wBitcnt = s.wBitcnt := rfl
@[simp] theorem emit_wPad : (emit sym s).wPad = s.wPad := rfl
@[simp] theorem emit_wDatapos : (emit sym s).wDatapos = s.wDatapos := rfl
@[simp] theorem emit_rNbits : (emit sym s).rNbits = s.rNbits := rfl
@[simp] theorem emit_origLen : (emit sym s).origLen = s.origLen := rfl
@[simp] theorem emit_rBitpos : (emit sym s).rBitpos = s.rBitpos := rfl
@[simp] theorem emit_rSymcnt : (emit sym s).rSymcnt = s.rSymcnt + 1 := rfl
@[simp] theorem emit_rBit : (emit sym s).rBit = s.rBit := rfl
@[simp] theorem emit_rSym : (emit sym s).rSym = sym := rfl
@[simp] theorem emit_plAddr : (emit sym s).plAddr = s.plAddr := rfl
@[simp] theorem emit_dtAddr : (emit sym s).dtAddr = s.dtAddr := rfl
@[simp] theorem emit_codebook : (emit sym s).codebook = s.codebook := rfl
@[simp] theorem emit_payload : (emit sym s).payload = s.payload := rfl
theorem emit_data : (emit sym s).data = if s.rSymcnt.toNat < s.cfg.dataBytes then s.data.write s.rSymcnt.toNat sym else s.data := rfl
@[simp] theorem emit_inputs : (emit sym s).inputs = s.inputs := rfl
@[simp] theorem emit_replies : (emit sym s).replies = s.replies := rfl
@[simp] theorem emit_draws : (emit sym s).draws = s.draws := rfl

end Sys2Proof.Machine
end

