-- ==== Sys2Proof/Laws/Codebook.lean ====
section
/-! SUPPORT. The laws of the codebook RAM and of codes as bit sequences: entries after a write, emptiness and maxlen, the
lowest matching symbol, and the value of a bit sequence. -/

namespace Sys2Proof.Machine

/-! ### Entries -/

theorem Codebook.get_put (cb : Codebook) (a b : Symbol) (e : CbEntry) :
    (cb.put a e).get b = if b = a then e else cb.get b := by
  unfold Codebook.get Codebook.put
  rw [Vector.getElem_set]
  by_cases h : b = a
  · simp [h]
  · rw [if_neg h, if_neg fun h' => h (BitVec.eq_of_toNat_eq h'.symm)]

@[simp] theorem Codebook.get_put_self (cb : Codebook) (a : Symbol) (e : CbEntry) : (cb.put a e).get a = e := by
  simp [Codebook.get_put]

theorem Codebook.get_put_ne (cb : Codebook) {a b : Symbol} (e : CbEntry) (h : b ≠ a) :
    (cb.put a e).get b = cb.get b := by
  simp [Codebook.get_put, h]

@[simp] theorem Codebook.get_cleared (a : Symbol) : Codebook.cleared.get a = { len := 0, code := 0 } := by
  simp [Codebook.get, Codebook.cleared]

/-- Every entry of the RAM is some symbol's. -/
theorem Codebook.mem_toList_iff (cb : Codebook) (e : CbEntry) : e ∈ cb.toList ↔ ∃ a : Symbol, cb.get a = e := by
  rw [List.mem_iff_getElem]
  constructor
  · rintro ⟨i, hi, rfl⟩
    have hi' : i < 256 := by simpa using hi
    refine ⟨BitVec.ofNat 8 i, ?_⟩
    simp [Codebook.get, Nat.mod_eq_of_lt hi']
  · rintro ⟨a, rfl⟩
    exact ⟨a.toNat, by simpa using a.isLt, by simp [Codebook.get]⟩

/-! ### Emptiness and maxlen (R48) -/

theorem Codebook.isEmpty_iff (cb : Codebook) : cb.isEmpty = true ↔ ∀ a : Symbol, (cb.get a).len = 0 := by
  unfold Codebook.isEmpty
  rw [List.all_eq_true]
  constructor
  · intro h a
    simpa using h _ ((cb.mem_toList_iff _).2 ⟨a, rfl⟩)
  · intro h e he
    obtain ⟨a, rfl⟩ := (cb.mem_toList_iff e).1 he
    simpa using h a

theorem foldr_max_le {l : List CbEntry} {n : Nat} :
    l.foldr (fun e m => max e.len.toNat m) 0 ≤ n ↔ ∀ e ∈ l, e.len.toNat ≤ n := by
  induction l with
  | nil => simp
  | cons e l ih => simp [ih]

theorem Codebook.maxlen_le_iff (cb : Codebook) (n : Nat) :
    cb.maxlen ≤ n ↔ ∀ a : Symbol, (cb.get a).len.toNat ≤ n := by
  unfold Codebook.maxlen
  rw [foldr_max_le]
  constructor
  · intro h a
    exact h _ ((cb.mem_toList_iff _).2 ⟨a, rfl⟩)
  · intro h e he
    obtain ⟨a, rfl⟩ := (cb.mem_toList_iff e).1 he
    exact h a

theorem Codebook.len_le_maxlen (cb : Codebook) (a : Symbol) : (cb.get a).len.toNat ≤ cb.maxlen :=
  (cb.maxlen_le_iff _).1 (Nat.le_refl _) a

theorem Codebook.maxlen_le_255 (cb : Codebook) : cb.maxlen ≤ 255 :=
  (cb.maxlen_le_iff _).2 fun a => by have := (cb.get a).len.isLt; omega

/-! ### The lowest matching symbol (R183) -/

theorem Codebook.lookup_eq_none_iff (cb : Codebook) (k acc : Nat) :
    cb.lookup k acc = none ↔ ∀ a : Symbol, (cb.get a).isCode k acc = false := by
  unfold Codebook.lookup
  rw [Option.map_eq_none_iff, List.findIdx?_eq_none_iff]
  constructor
  · intro h a
    exact h _ ((cb.mem_toList_iff _).2 ⟨a, rfl⟩)
  · intro h e he
    obtain ⟨a, rfl⟩ := (cb.mem_toList_iff e).1 he
    exact h a

theorem Codebook.lookup_eq_some_iff (cb : Codebook) (k acc : Nat) (a : Symbol) :
    cb.lookup k acc = some a ↔
      (cb.get a).isCode k acc = true ∧ ∀ b : Symbol, b.toNat < a.toNat → (cb.get b).isCode k acc = false := by
  unfold Codebook.lookup
  rw [Option.map_eq_some_iff]
  constructor
  · rintro ⟨i, hi, rfl⟩
    obtain ⟨hlt, hp, hmin⟩ := List.findIdx?_eq_some_iff_getElem.1 hi
    have hi' : i < 256 := by simpa using hlt
    have hto : (BitVec.ofNat 8 i).toNat = i := by simp [Nat.mod_eq_of_lt hi']
    refine ⟨by simpa [Codebook.get, hto] using hp, fun b hb => ?_⟩
    rw [hto] at hb
    simpa [Codebook.get] using hmin b.toNat hb
  · rintro ⟨hp, hmin⟩
    refine ⟨a.toNat, List.findIdx?_eq_some_iff_getElem.2 ⟨by simpa using a.isLt, by simpa [Codebook.get] using hp, ?_⟩,
      by simp⟩
    intro j hj
    have hj' : j < 256 := Nat.lt_trans hj a.isLt
    have hto : (BitVec.ofNat 8 j).toNat = j := by simp [Nat.mod_eq_of_lt hj']
    simpa [Codebook.get, hto] using hmin (BitVec.ofNat 8 j) (by rw [hto]; exact hj)

/-! ### Bit sequences -/

@[simp] theorem length_msbFirst {w : Nat} (v : BitVec w) (n : Nat) : (msbFirst v n).length = n := by
  simp [msbFirst]

theorem msbFirst_succ {w : Nat} (v : BitVec w) (n : Nat) : msbFirst v (n + 1) = v.getLsbD n :: msbFirst v n := by
  simp only [msbFirst, List.range_succ_eq_map, List.map_cons, List.map_map]
  refine congrArg₂ _ (by simp) (List.map_congr_left fun j _ => ?_)
  simp only [Function.comp]
  congr 1
  omega

@[simp] theorem CbEntry.length_bits (e : CbEntry) : e.bits.length = e.len.toNat := by simp [CbEntry.bits]

theorem codeValue_append (bs : List Bool) (b : Bool) :
    codeValue (bs ++ [b]) = codeValue bs <<< 1 ||| b.toNat := by
  simp [codeValue]

theorem shiftLeft_one_or (v : Nat) (b : Bool) : v <<< 1 ||| b.toNat = 2 * v + b.toNat := by
  have h := Nat.two_pow_add_eq_or_of_lt (i := 1) (b := b.toNat) (by cases b <;> decide) v
  rw [Nat.shiftLeft_eq, Nat.mul_comm, ← h]

theorem codeValue_concat (bs : List Bool) (b : Bool) : codeValue (bs ++ [b]) = 2 * codeValue bs + b.toNat := by
  rw [codeValue_append, shiftLeft_one_or]

theorem codeValue_cons (b : Bool) (bs : List Bool) :
    codeValue (b :: bs) = b.toNat * 2 ^ bs.length + codeValue bs := by
  induction bs using List.reverseRecOn with
  | nil => simp [codeValue]
  | append_singleton bs c ih =>
    rw [← List.cons_append, codeValue_concat, codeValue_concat, ih, List.length_append]
    simp [Nat.pow_succ]
    ring

theorem codeValue_lt (bs : List Bool) : codeValue bs < 2 ^ bs.length := by
  induction bs with
  | nil => simp [codeValue]
  | cons b bs ih =>
    rw [codeValue_cons, List.length_cons, Nat.pow_succ]
    have : b.toNat ≤ 1 := by cases b <;> simp
    nlinarith [Nat.two_pow_pos bs.length]

/-- Two bit sequences of one length are equal when their values are. -/
theorem codeValue_inj {bs cs : List Bool} (hl : bs.length = cs.length) (hv : codeValue bs = codeValue cs) : bs = cs := by
  induction bs generalizing cs with
  | nil => exact (List.length_eq_zero_iff.1 hl.symm).symm
  | cons b bs ih =>
    cases cs with
    | nil => simp at hl
    | cons c cs =>
      have hl' : bs.length = cs.length := by simpa using hl
      rw [codeValue_cons, codeValue_cons, hl'] at hv
      have h1 := codeValue_lt bs
      have h2 := codeValue_lt cs
      rw [hl'] at h1
      have hb : b = c := by
        cases b <;> cases c <;> simp at hv ⊢ <;> omega
      subst hb
      rw [ih hl' (by omega)]

/-- The value of the low `n` bits of `v`, read from the top. -/
theorem codeValue_msbFirst {w : Nat} (v : BitVec w) (n : Nat) : codeValue (msbFirst v n) = v.toNat % 2 ^ n := by
  induction n with
  | zero => simp [msbFirst, codeValue, Nat.mod_one]
  | succ n ih =>
    rw [msbFirst_succ, codeValue_cons, length_msbFirst, ih]
    have : (v.getLsbD n).toNat = v.toNat / 2 ^ n % 2 := by
      rw [BitVec.getLsbD, Nat.testBit_eq_decide_div_mod_eq]
      rcases Nat.mod_two_eq_zero_or_one (v.toNat / 2 ^ n) with h | h <;> simp [h]
    rw [this, Nat.mod_pow_succ]
    ring

/-- The match of a decode step is equality of bit sequences (R183). -/
theorem CbEntry.isCode_iff (e : CbEntry) (bs : List Bool) : e.isCode bs.length (codeValue bs) = true ↔ e.bits = bs := by
  simp only [CbEntry.isCode, Bool.and_eq_true, beq_iff_eq]
  constructor
  · rintro ⟨hl, hv⟩
    apply codeValue_inj (by simpa using hl)
    rw [CbEntry.bits, codeValue_msbFirst, hl, hv]
  · rintro rfl
    exact ⟨by simp, by rw [CbEntry.length_bits, CbEntry.bits, codeValue_msbFirst]⟩

theorem CbEntry.isCode_eq_false_iff (e : CbEntry) (bs : List Bool) :
    e.isCode bs.length (codeValue bs) = false ↔ e.bits ≠ bs := by
  rw [← Bool.not_eq_true, CbEntry.isCode_iff]

theorem CbEntry.len_ne_zero_iff (e : CbEntry) : e.len ≠ 0 ↔ e.bits ≠ [] := by
  rw [ne_eq, ne_eq, not_iff_not, ← List.length_eq_zero_iff, CbEntry.length_bits]
  exact ⟨fun h => by simp [h], fun h => BitVec.eq_of_toNat_eq (by simpa using h)⟩

/-- The lowest symbol whose code is `bs`. -/
theorem Codebook.lookup_bits_eq_some_iff (cb : Codebook) (bs : List Bool) (a : Symbol) :
    cb.lookup bs.length (codeValue bs) = some a ↔
      (cb.get a).bits = bs ∧ ∀ b : Symbol, (cb.get b).bits = bs → a.toNat ≤ b.toNat := by
  rw [Codebook.lookup_eq_some_iff, CbEntry.isCode_iff]
  refine and_congr_right fun _ => forall_congr' fun b => ?_
  rw [CbEntry.isCode_eq_false_iff]
  exact ⟨fun h hb => Nat.le_of_not_lt fun hlt => h hlt hb, fun h hlt hb => absurd (h hb) (Nat.not_le.2 hlt)⟩

theorem Codebook.lookup_bits_eq_none_iff (cb : Codebook) (bs : List Bool) :
    cb.lookup bs.length (codeValue bs) = none ↔ ∀ a : Symbol, (cb.get a).bits ≠ bs := by
  rw [Codebook.lookup_eq_none_iff]
  exact forall_congr' fun a => CbEntry.isCode_eq_false_iff _ _

/-- In a prefix-free codebook every coded symbol decodes from its own code. -/
theorem Codebook.PrefixFree.decodes {cb : Codebook} (h : cb.PrefixFree) {a : Symbol} (ha : (cb.get a).len ≠ 0) :
    cb.Decodes a :=
  ⟨ha, fun b hb hp => by rw [h b a hb hp]; exact ⟨rfl, Nat.le_refl _⟩⟩

/-! ### What CB_WRITE stores (R132) -/

theorem entryOfStage_code_toNat (len : BitVec 8) (v : BitVec 256) :
    (entryOfStage len v).code.toNat = v.toNat % 2 ^ len.toNat := by
  have h1 : v.toNat % 2 ^ len.toNat < 2 ^ len.toNat := Nat.mod_lt _ (Nat.two_pow_pos _)
  have h2 : 2 ^ len.toNat ≤ 2 ^ 255 := Nat.pow_le_pow_right (by decide) (by have := len.isLt; omega)
  simp only [entryOfStage, BitVec.toNat_ofNat]
  exact Nat.mod_eq_of_lt (Nat.lt_of_lt_of_le h1 h2)

theorem entryOfStage_wf (len : BitVec 8) (v : BitVec 256) : (entryOfStage len v).wf := by
  show (entryOfStage len v).code.toNat < 2 ^ len.toNat
  rw [entryOfStage_code_toNat]
  exact Nat.mod_lt _ (Nat.two_pow_pos _)

end Sys2Proof.Machine
end

