-- ==== Sys2Proof/Laws/Decode.lean ====
section
/-! SUPPORT. The fields of a command word as numbers, and the fields of a word made from them. -/

namespace Sys2Proof

theorem cmdOpc_toNat (w : Word) : (cmdOpc w).toNat = w.toNat % 256 := by
  simp [cmdOpc]

theorem cmdArg_toNat (w : Word) : (cmdArg w).toNat = w.toNat / 256 % 256 := by
  simp [cmdArg, Nat.shiftRight_eq_div_pow]

theorem cmdArg_eq (w : Word) : cmdArg w = BitVec.ofNat 8 (w.toNat / 256) :=
  BitVec.eq_of_toNat_eq (by rw [cmdArg_toNat, BitVec.toNat_ofNat])

theorem cmdWord_toNat (arg opc : BitVec 8) : (cmdWord arg opc).toNat = arg.toNat * 256 + opc.toNat := by
  have h := Nat.two_pow_add_eq_or_of_lt opc.isLt arg.toNat
  have ha : (0#16 ++ arg).toNat = arg.toNat := by rw [BitVec.toNat_append]; simp
  rw [cmdWord, BitVec.toNat_append, ha, Nat.shiftLeft_eq, Nat.mul_comm, ← h, Nat.mul_comm]

@[simp] theorem cmdOpc_cmdWord (arg opc : BitVec 8) : cmdOpc (cmdWord arg opc) = opc := by
  apply BitVec.eq_of_toNat_eq
  rw [cmdOpc_toNat, cmdWord_toNat]
  have := opc.isLt
  omega

@[simp] theorem cmdArg_cmdWord (arg opc : BitVec 8) : cmdArg (cmdWord arg opc) = arg := by
  apply BitVec.eq_of_toNat_eq
  rw [cmdArg_toNat, cmdWord_toNat]
  have := opc.isLt; have := arg.isLt
  omega

/-- Only OPC and ARG of a word matter to the decoder (R93). -/
theorem decodeCmd_congr {v w : Word} (hopc : cmdOpc v = cmdOpc w) (harg : cmdArg v = cmdArg w) :
    decodeCmd v = decodeCmd w := by
  simp only [decodeCmd, hopc, harg]

end Sys2Proof
end

