-- ==== Sys2Proof/Laws/PerInstr.lean ====
section
/-! SUPPORT. One lemma per instruction: its encoding sets no bit that it does not use ("write 0", R90, R91). -/

namespace Sys2Proof.Laws.UnusedBits

/-- Every bit of the command word of `i` outside the bits `i` uses is 0. -/
def Statement (i : Instr) : Prop := ∀ w, encode i = .cmdw w → w &&& usedBits i = w

theorem nop : Statement .nop := by rintro _ ⟨⟩; decide
theorem cbClear : Statement .cbClear := by rintro _ ⟨⟩; decide
theorem wInit : Statement .wInit := by rintro _ ⟨⟩; decide
theorem wEncode : Statement .wEncode := by rintro _ ⟨⟩; decide
theorem wFinal : Statement .wFinal := by rintro _ ⟨⟩; decide
theorem rInit : Statement .rInit := by rintro _ ⟨⟩; decide
theorem rGetbit : Statement .rGetbit := by rintro _ ⟨⟩; decide
theorem rDecsym : Statement .rDecsym := by rintro _ ⟨⟩; decide
theorem rDecode : Statement .rDecode := by rintro _ ⟨⟩; decide

/-- A word of two bytes has no bit above them. -/
theorem low_half (arg opc : BitVec 8) : cmdWord arg opc &&& 0x0000FFFF = cmdWord arg opc := by
  apply BitVec.eq_of_toNat_eq
  have h : (cmdWord arg opc).toNat < 2 ^ 16 := by
    have := arg.isLt; have := opc.isLt
    rw [cmdWord_toNat]; omega
  rw [BitVec.toNat_and]
  exact (Nat.and_two_pow_sub_one_eq_mod _ 16).trans (Nat.mod_eq_of_lt h)

theorem cbWrite (s : Symbol) : Statement (.cbWrite s) := by rintro _ ⟨⟩; exact low_half s 0x02
theorem cbRead (s : Symbol) : Statement (.cbRead s) := by rintro _ ⟨⟩; exact low_half s 0x03
theorem wPutbits (n : BitVec 8) : Statement (.wPutbits n) := by rintro _ ⟨⟩; exact low_half n 0x12
theorem wPutsym (s : Symbol) : Statement (.wPutsym s) := by rintro _ ⟨⟩; exact low_half s 0x13
theorem wPutbit (b : Bool) : Statement (.wPutbit b) := by rintro _ ⟨⟩; cases b <;> decide
theorem busRd (a : RegAddr) : Statement (.busRd a) := by rintro _ ⟨⟩
theorem busWr (a : RegAddr) (d : Word) : Statement (.busWr a d) := by rintro _ ⟨⟩

end Sys2Proof.Laws.UnusedBits
end

