-- ==== Sys2Proof/Laws/Reader.lean ====
section
/-! SUPPORT. The laws of reading: what ReadBit, the decode step and the loop of R_DECODE can do (R182, R183, R188). -/

namespace Sys2Proof.Machine

/-! ### ReadBit (R182) -/

/-- Everything ReadBit can do. -/
theorem readBit_cases (s : State) :
    ((s.rNbits.toNat ≤ s.rBitpos.toNat ∨ s.cfg.payloadBits ≤ s.rBitpos.toNat) ∧
      readBit s = .ended (s.failReader .exhausted)) ∨
    (s.rBitpos.toNat < s.rNbits.toNat ∧ s.rBitpos.toNat < s.cfg.payloadBits ∧
      ((s.payload.read (s.rBitpos.toNat / 8) = none ∧
          readBit s = .stopped (.unwritten .payload (s.rBitpos.toNat / 8))) ∨
       ∃ b, s.payloadBit s.rBitpos.toNat = some b ∧ readBit s = .ok b { s with rBitpos := s.rBitpos + 1 })) := by
  unfold readBit
  by_cases h : s.rNbits.toNat ≤ s.rBitpos.toNat ∨ s.cfg.payloadBits ≤ s.rBitpos.toNat
  · exact .inl ⟨h, by simp only [h, if_true]⟩
  · refine .inr ⟨by omega, by omega, ?_⟩
    simp only [h, if_false]
    cases hb : s.payloadBit s.rBitpos.toNat with
    | none =>
      refine .inl ⟨?_, by simp only⟩
      simpa [State.payloadBit] using hb
    | some b => exact .inr ⟨b, rfl, by simp only⟩

theorem readBit_ok {s : State} {b : Bool} (hn : s.rBitpos.toNat < s.rNbits.toNat)
    (hp : s.rBitpos.toNat < s.cfg.payloadBits) (hb : s.payloadBit s.rBitpos.toNat = some b) :
    readBit s = .ok b { s with rBitpos := s.rBitpos + 1 } := by
  simp only [readBit, hb]
  rw [if_neg (by omega)]

theorem readBit_ended {s : State} (h : s.rNbits.toNat ≤ s.rBitpos.toNat ∨ s.cfg.payloadBits ≤ s.rBitpos.toNat) :
    readBit s = .ended (s.failReader .exhausted) := by
  simp only [readBit, h, if_true]

/-- R_BITPOS advanced by n bits that are within R_NBITS does not wrap. -/
theorem rBitpos_add {p nb : Word} {n : Nat} (h : p.toNat + n ≤ nb.toNat) : (p + BitVec.ofNat 32 n).toNat = p.toNat + n := by
  have := nb.isLt
  rw [BitVec.toNat_add, BitVec.toNat_ofNat, Nat.mod_eq_of_lt (a := n) (by omega), Nat.mod_eq_of_lt (by omega)]

/-- The state with R_BITPOS moved on by n bits. -/
def State.advanced (s : State) (n : Nat) : State := { s with rBitpos := s.rBitpos + BitVec.ofNat 32 n }

@[simp] theorem State.advanced_zero (s : State) : s.advanced 0 = s := by simp [State.advanced]

theorem State.advanced_advanced (s : State) (m n : Nat) : (s.advanced m).advanced n = s.advanced (m + n) := by
  simp [State.advanced, BitVec.add_assoc, BitVec.ofNat_add]

/-! ### The decode step (R183) -/

/-- The bits `bs` are readable from R_BITPOS on: PL holds them, and they are within R_NBITS and PL. -/
def State.readable (s : State) (bs : List Bool) : Prop :=
  s.holdsBits s.rBitpos.toNat bs ∧ s.rBitpos.toNat + bs.length ≤ s.rNbits.toNat ∧
    s.rBitpos.toNat + bs.length ≤ s.cfg.payloadBits

theorem State.readable_append {s : State} {bs cs : List Bool} (h : s.readable (bs ++ cs)) :
    s.readable bs ∧ (s.advanced bs.length).readable cs := by
  obtain ⟨hb, hn, hp⟩ := h
  rw [List.length_append] at hn hp
  have hadd : (s.rBitpos + BitVec.ofNat 32 bs.length).toNat = s.rBitpos.toNat + bs.length :=
    rBitpos_add (nb := s.rNbits) (by omega)
  refine ⟨⟨fun i hi => ?_, by omega, by omega⟩, ⟨fun i hi => ?_, ?_, ?_⟩⟩
  · rw [hb i (by rw [List.length_append]; omega), List.getElem?_append_left hi]
  · have := hb (bs.length + i) (by rw [List.length_append]; omega)
    rw [List.getElem?_append_right (by omega)] at this
    simp only [State.advanced, hadd]
    rw [Nat.add_assoc]
    simpa [State.payloadBit] using this
  · simp only [State.advanced, hadd]; omega
  · simp only [State.advanced, hadd]; omega

theorem readBit_readable {s : State} {b : Bool} {bs : List Bool} (h : s.readable (b :: bs)) :
    readBit s = .ok b (s.advanced 1) := by
  obtain ⟨hb, hn, hp⟩ := h
  rw [List.length_cons] at hn hp
  exact readBit_ok (by omega) (by omega) (by simpa using hb 0 (by simp))

/-- Reading `bs`, no prefix of which completes a code, moves the loop of a decode step on by as many bits. -/
theorem decodeBits_advance (bs : List Bool) :
    ∀ (pre : List Bool) (left : Nat) (s : State), s.readable bs →
      (∀ q, q <+: bs → q ≠ [] → ∀ a : Symbol, (s.codebook.get a).bits ≠ pre ++ q) →
      decodeBits (bs.length + left) pre.length (codeValue pre) s =
        decodeBits left (pre ++ bs).length (codeValue (pre ++ bs)) (s.advanced bs.length) := by
  induction bs with
  | nil => intro pre left s _ _; simp
  | cons b bs ih =>
    intro pre left s hr hno
    have hl : (b :: bs).length + left = (bs.length + left) + 1 := by rw [List.length_cons]; omega
    have hnone : s.codebook.lookup (pre.length + 1) (codeValue pre <<< 1 ||| b.toNat) = none := by
      rw [← codeValue_append, ← List.length_singleton (a := b), ← List.length_append]
      exact (Codebook.lookup_bits_eq_none_iff _ _).2 (hno [b] ⟨bs, rfl⟩ (by simp))
    rw [hl, decodeBits, readBit_readable hr]
    simp only
    rw [show (s.advanced 1).codebook = s.codebook from rfl, hnone]
    simp only
    have hr2 := (State.readable_append (bs := [b]) (cs := bs) hr).2
    have := ih (pre ++ [b]) left (s.advanced 1) hr2 (fun q hq hne a => by
      have := hno (b :: q) (by simpa using hq) (by simp) a
      simpa [State.advanced] using this)
    rw [List.length_append, codeValue_append] at this
    rw [List.length_singleton] at this
    rw [this, State.advanced_advanced]
    simp [Nat.add_comm]

/-- The decode step of a symbol at its own code (R183, R184). -/
theorem decodeStep_decodes {s : State} {a : Symbol} (ha : s.codebook.Decodes a)
    (hr : s.readable (s.codebook.get a).bits) :
    decodeStep s = .ok a (s.advanced (s.codebook.get a).len.toNat) := by
  obtain ⟨hne, hpre⟩ := ha
  have hbits := (CbEntry.len_ne_zero_iff _).1 hne
  have hempty : s.codebook.isEmpty = false := by
    rw [← Bool.not_eq_true, Codebook.isEmpty_iff]
    exact fun h => hne (h a)
  obtain ⟨init, last, hil⟩ : ∃ init last, (s.codebook.get a).bits = init ++ [last] :=
    ⟨_, _, (List.dropLast_append_getLast hbits).symm⟩
  have hlen : (s.codebook.get a).len.toNat = init.length + 1 := by
    rw [← CbEntry.length_bits, hil]; simp
  have hmax := s.codebook.len_le_maxlen a
  rw [hil] at hr
  have hr2 := State.readable_append hr
  have hadv := decodeBits_advance init [] (s.codebook.maxlen - init.length) s hr2.1 (fun q hq hne' b hb => by
    have hqn : (s.codebook.get b).len ≠ 0 := (CbEntry.len_ne_zero_iff _).2 (by rw [hb]; simpa using hne')
    have hb' : (s.codebook.get b).bits = q := by simpa using hb
    have hle := (hpre b hqn (by rw [hb', hil]; exact hq.trans (List.prefix_append _ _))).1
    have : (s.codebook.get b).bits.length = (s.codebook.get a).bits.length := by simp [hle]
    rw [hb', hil, List.length_append] at this
    have := hq.length_le
    simp at *
    omega)
  rw [decodeStep, hempty, show s.codebook.maxlen = init.length + (s.codebook.maxlen - init.length) by omega]
  simp only [Bool.false_eq_true, if_false]
  simp only [List.length_nil, List.nil_append, codeValue, List.foldl_nil] at hadv
  rw [hadv, show s.codebook.maxlen - init.length = (s.codebook.maxlen - init.length - 1) + 1 by omega, decodeBits,
    readBit_readable hr2.2]
  simp only
  have hsome : s.codebook.lookup (init.length + 1) (codeValue init <<< 1 ||| last.toNat) = some a := by
    rw [← codeValue_append, ← List.length_singleton (a := last), ← List.length_append]
    refine (Codebook.lookup_bits_eq_some_iff _ _ _).2 ⟨hil, fun b hb => ?_⟩
    refine (hpre b ((CbEntry.len_ne_zero_iff _).2 (by rw [hb]; simp)) ?_).2
    rw [hb, hil]
  simp only [codeValue] at hsome
  rw [State.advanced_advanced, show (s.advanced (init.length + 1)).codebook = s.codebook from rfl, hsome, hlen]

/-- The decode step when the bits run out before a code is complete: EXHAUSTED at the first missing bit (R182, R183). -/
theorem decodeStep_exhausted {s : State} {bs : List Bool} (hr : s.readable bs) (hlt : bs.length < s.codebook.maxlen)
    (hno : ∀ q, q <+: bs → q ≠ [] → ∀ a : Symbol, (s.codebook.get a).bits ≠ q)
    (hend : s.rNbits.toNat = s.rBitpos.toNat + bs.length ∨ s.cfg.payloadBits = s.rBitpos.toNat + bs.length) :
    decodeStep s = .ended ((s.advanced bs.length).failReader .exhausted) := by
  have hempty : s.codebook.isEmpty = false := by
    rw [← Bool.not_eq_true, Codebook.isEmpty_iff]
    intro h
    have : s.codebook.maxlen ≤ 0 := (Codebook.maxlen_le_iff _ _).2 fun a => by rw [h a]; simp
    omega
  have hadv := decodeBits_advance bs [] (s.codebook.maxlen - bs.length) s hr (by simpa using hno)
  rw [decodeStep, hempty, show s.codebook.maxlen = bs.length + (s.codebook.maxlen - bs.length) by omega]
  simp only [Bool.false_eq_true, if_false]
  simp only [List.length_nil, List.nil_append, codeValue, List.foldl_nil] at hadv
  have hpos : (s.advanced bs.length).rBitpos.toNat = s.rBitpos.toNat + bs.length := rBitpos_add hr.2.1
  rw [hadv, show s.codebook.maxlen - bs.length = (s.codebook.maxlen - bs.length - 1) + 1 by omega, decodeBits,
    readBit_ended (by rw [hpos]; show s.rNbits.toNat ≤ _ ∨ s.cfg.payloadBits ≤ _; omega)]

/-- The decode step when maxlen bits match no code: OFF_CODE after those bits (R183). -/
theorem decodeStep_offCode {s : State} {bs : List Bool} (hr : s.readable bs) (hlen : bs.length = s.codebook.maxlen)
    (hempty : s.codebook.isEmpty = false) (hno : ∀ q, q <+: bs → q ≠ [] → ∀ a : Symbol, (s.codebook.get a).bits ≠ q) :
    decodeStep s = .ended ((s.advanced bs.length).failReader .offCode) := by
  have hadv := decodeBits_advance bs [] 0 s hr (by simpa using hno)
  simp only [List.length_nil, List.nil_append, codeValue, List.foldl_nil, Nat.add_zero] at hadv
  rw [decodeStep, hempty, ← hlen]
  simp only [Bool.false_eq_true, if_false]
  rw [hadv, decodeBits]

/-- Everything a decode step from `s` can come to: a symbol, with at least one bit read within R_NBITS and PL; an end with
one of the three reader errors, the reader FAILED; or a stop at an unwritten byte of PL. -/
def DecodeOutcome (s : State) : Prim Symbol → Prop
  | .ok _ t => t = { s with rBitpos := t.rBitpos } ∧ s.rBitpos.toNat < t.rBitpos.toNat ∧
      t.rBitpos.toNat ≤ s.rNbits.toNat ∧ t.rBitpos.toNat ≤ s.cfg.payloadBits
  | .ended t => t = { s with rBitpos := t.rBitpos, rstate := .failed, err := t.err, pending := none } ∧
      s.rBitpos.toNat ≤ t.rBitpos.toNat ∧
      (t.rBitpos = s.rBitpos ∨ t.rBitpos.toNat ≤ s.rNbits.toNat ∧ t.rBitpos.toNat ≤ s.cfg.payloadBits) ∧
      (t.err = .offCode ∨ (t.err = .exhausted ∧
        (s.rNbits.toNat ≤ t.rBitpos.toNat ∨ s.cfg.payloadBits ≤ t.rBitpos.toNat)) ∨
        (t.err = .emptyCodebook ∧ s.codebook.isEmpty = true ∧ t.rBitpos = s.rBitpos))
  | .stopped f => ∃ a, f = .unwritten .payload a ∧ s.payload.read a = none ∧ 8 * a < s.cfg.payloadBits

theorem DecodeOutcome.of_advanced {s : State} (hlt : s.rBitpos.toNat < s.rNbits.toNat)
    (hp : s.rBitpos.toNat < s.cfg.payloadBits) (hne : s.codebook.isEmpty = false) {r : Prim Symbol}
    (h : DecodeOutcome (s.advanced 1) r) : DecodeOutcome s r := by
  have hadd : (s.rBitpos + 1).toNat = s.rBitpos.toNat + 1 := rBitpos_add (n := 1) (nb := s.rNbits) (by omega)
  have hadv : (s.advanced 1).rBitpos.toNat = s.rBitpos.toNat + 1 := hadd
  cases r with
  | ok a t =>
    obtain ⟨h1, h2, h3, h4⟩ := h
    exact ⟨h1, by omega, h3, h4⟩
  | ended t =>
    obtain ⟨h1, h2, h3, h4⟩ := h
    refine ⟨h1, by omega, .inr ?_, ?_⟩
    · rcases h3 with h3 | h3
      · rw [h3, hadv]; exact ⟨by omega, by omega⟩
      · exact h3
    · rcases h4 with h4 | h4 | ⟨_, h5, _⟩
      · exact .inl h4
      · exact .inr (.inl h4)
      · rw [show (s.advanced 1).codebook = s.codebook from rfl, hne] at h5
        cases h5
  | stopped f => exact h

theorem decodeBits_outcome :
    ∀ (left k acc : Nat) {s : State}, s.codebook.isEmpty = false → DecodeOutcome s (decodeBits left k acc s)
  | 0, k, acc, s, _ => ⟨rfl, Nat.le_refl _, .inl rfl, .inl rfl⟩
  | left + 1, k, acc, s, hne => by
    rw [decodeBits]
    rcases readBit_cases s with ⟨hend, he⟩ | ⟨hn, hp, ⟨hnone, he⟩ | ⟨b, hb, he⟩⟩
    · rw [he]
      exact ⟨rfl, Nat.le_refl _, .inl rfl, .inr (.inl ⟨rfl, hend⟩)⟩
    · rw [he]; exact ⟨_, rfl, hnone, by omega⟩
    · rw [he]
      have hadd : (s.rBitpos + 1).toNat = s.rBitpos.toNat + 1 := rBitpos_add (n := 1) (nb := s.rNbits) (by omega)
      simp only
      split
      · exact ⟨rfl, by simp only [hadd]; omega, by simp only [hadd]; omega, by simp only [hadd]; omega⟩
      · exact .of_advanced hn hp hne (decodeBits_outcome left (k + 1) _ (s := s.advanced 1) hne)

/-- Everything a decode step can do (R183). -/
theorem decodeStep_outcome (s : State) : DecodeOutcome s (decodeStep s) := by
  rw [decodeStep]
  by_cases h : s.codebook.isEmpty = true
  · rw [if_pos h]
    exact ⟨rfl, Nat.le_refl _, .inl rfl, .inr (.inr ⟨rfl, h, rfl⟩)⟩
  · rw [if_neg h]
    exact decodeBits_outcome _ _ _ (by simpa using h)

/-- Why a decode step ends with OFF_CODE: as many bits as the loop had to go were read, and no prefix of them completed a
code. -/
theorem decodeBits_offCode_cause :
    ∀ (left : Nat) (pre : List Bool) {s t : State}, decodeBits left pre.length (codeValue pre) s = .ended t →
      t.err = .offCode →
      ∃ bs : List Bool, bs.length = left ∧ t.rBitpos.toNat = s.rBitpos.toNat + left ∧
        s.holdsBits s.rBitpos.toNat bs ∧ ∀ q, q <+: bs → q ≠ [] → ∀ a : Symbol, (s.codebook.get a).bits ≠ pre ++ q
  | 0, pre, s, t, h, _ => by
    simp only [decodeBits] at h
    cases h
    exact ⟨[], rfl, rfl, fun i hi => by simp at hi, fun q hq hne => absurd (List.prefix_nil.1 hq) hne⟩
  | left + 1, pre, s, t, h, he => by
    rw [decodeBits] at h
    rcases readBit_cases s with ⟨_, hr⟩ | ⟨hn, _, ⟨_, hr⟩ | ⟨b, hb, hr⟩⟩
    · rw [hr] at h
      cases h
      cases he
    · rw [hr] at h
      cases h
    · rw [hr] at h
      have hadd : (s.advanced 1).rBitpos.toNat = s.rBitpos.toNat + 1 := rBitpos_add (n := 1) (nb := s.rNbits) (by omega)
      simp only at h
      have hlen : pre.length + 1 = (pre ++ [b]).length := by simp
      rw [← codeValue_append, hlen] at h
      cases hl : s.codebook.lookup (pre ++ [b]).length (codeValue (pre ++ [b])) with
      | some sym =>
        rw [hl] at h
        cases h
      | none =>
        rw [hl] at h
        obtain ⟨bs, h1, h2, h3, h4⟩ := decodeBits_offCode_cause left (pre ++ [b]) (s := s.advanced 1) h he
        refine ⟨b :: bs, by simp [h1], by omega, fun i hi => ?_, fun q hq hne a => ?_⟩
        · cases i with
          | zero => simpa using hb
          | succ i =>
            have := h3 i (by simpa using hi)
            rw [hadd] at this
            rw [show s.rBitpos.toNat + (i + 1) = s.rBitpos.toNat + 1 + i by omega]
            simpa [State.payloadBit, State.advanced] using this
        · cases q with
          | nil => exact absurd rfl hne
          | cons c q =>
            obtain ⟨rfl, hq'⟩ := List.cons_prefix_cons.1 hq
            by_cases hqn : q = []
            · subst hqn
              exact (Codebook.lookup_bits_eq_none_iff _ _).1 hl a
            · have := h4 q hq' hqn a
              simpa [State.advanced] using this

/-- Why a decode step ends with OFF_CODE: maxlen bits were read and no code is a prefix of them (R183). -/
theorem decodeStep_offCode_cause {s t : State} (h : decodeStep s = .ended t) (he : t.err = .offCode) :
    s.codebook.isEmpty = false ∧
    ∃ bs : List Bool, bs.length = s.codebook.maxlen ∧ t.rBitpos.toNat = s.rBitpos.toNat + s.codebook.maxlen ∧
      s.holdsBits s.rBitpos.toNat bs ∧
      ∀ a : Symbol, (s.codebook.get a).len ≠ 0 → ¬ (s.codebook.get a).bits <+: bs := by
  rw [decodeStep] at h
  by_cases hn : s.codebook.isEmpty = true
  · rw [if_pos hn] at h
    cases h
    cases he
  · rw [if_neg hn] at h
    obtain ⟨bs, h1, h2, h3, h4⟩ := decodeBits_offCode_cause _ [] h he
    exact ⟨by simpa using hn, bs, h1, h2, h3,
      fun a ha hp => h4 _ hp ((CbEntry.len_ne_zero_iff _).1 ha) a (by simp)⟩

/-! ### Emit and the loop of R_DECODE (R185, R188) -/

/-- Everything Emit does below the top of the counter (R185). -/
theorem emit_spec (a : Symbol) {s : State} (h : s.rSymcnt.toNat + 1 < 2 ^ 64) :
    emit a s = { s with rSym := a, data := (emit a s).data, rSymcnt := (emit a s).rSymcnt } ∧
    (emit a s).rSymcnt.toNat = s.rSymcnt.toNat + 1 ∧
    (s.rSymcnt.toNat < s.cfg.dataBytes → (emit a s).data.read s.rSymcnt.toNat = some a) ∧
    (s.cfg.dataBytes ≤ s.rSymcnt.toNat → (emit a s).data = s.data) ∧
    (∀ j, j ≠ s.rSymcnt.toNat → (emit a s).data.read j = s.data.read j) ∧
    (s.data.wf → (emit a s).data.wf) ∧
    ((∀ c ∈ s.data, c.1 < s.cfg.dataBytes) → ∀ c ∈ (emit a s).data, c.1 < s.cfg.dataBytes) := by
  refine ⟨rfl, ?_, fun hlt => ?_, fun hle => ?_, fun j hj => ?_, fun hw => ?_, fun hr => ?_⟩
  · show (s.rSymcnt + 1).toNat = _
    rw [BitVec.toNat_add]
    exact Nat.mod_eq_of_lt h
  · simp [emit, hlt]
  · simp [emit, Nat.not_lt.2 hle]
  · simp only [emit]
    split
    · exact Memory.read_write_ne _ _ hj
    · rfl
  · simp only [emit]
    split
    · exact Memory.write_wf hw _ _
    · exact hw
  · simp only [emit]
    split
    · exact Memory.write_within hr (by assumption) _
    · exact hr

/-- The codes of `syms`, each of which decodes, move the loop on over as many symbols. -/
theorem decodeLoop_advance (syms : List Symbol) :
    ∀ (left : Nat) (s : State), s.rSymcnt.toNat + syms.length < 2 ^ 64 → (∀ a ∈ syms, s.codebook.Decodes a) →
      s.rSymcnt.toNat + syms.length ≤ s.cfg.dataBytes → (syms ≠ [] → s.readable (s.codebook.stream syms)) →
      ∃ t, decodeLoop (syms.length + left) s = decodeLoop left t ∧
        t = { s with rSym := syms.getLast?.getD s.rSym, data := t.data, rSymcnt := t.rSymcnt,
                     rBitpos := s.rBitpos + BitVec.ofNat 32 (s.codebook.stream syms).length } ∧
        t.rSymcnt.toNat = s.rSymcnt.toNat + syms.length ∧ t.holdsData s.rSymcnt.toNat syms ∧
        ∀ j, j < s.rSymcnt.toNat ∨ s.rSymcnt.toNat + syms.length ≤ j → t.data.read j = s.data.read j := by
  induction syms with
  | nil =>
    intro left s _ _ _ _
    exact ⟨s, by simp, by simp [Codebook.stream], by simp, fun i hi => by simp at hi, fun _ _ => rfl⟩
  | cons a syms ih =>
    intro left s hc hd hdb hr
    rw [List.length_cons] at hc hdb
    have hstream : s.codebook.stream (a :: syms) = (s.codebook.get a).bits ++ s.codebook.stream syms := by
      simp [Codebook.stream]
    have hr := hr (by simp)
    rw [hstream] at hr
    obtain ⟨hr1, hr2⟩ := State.readable_append hr
    have hstep := decodeStep_decodes (hd a (by simp)) hr1
    obtain ⟨h1, h2, h3, _, h5, _, _⟩ := emit_spec a (s := s.advanced (s.codebook.get a).len.toNat)
      (by show s.rSymcnt.toNat + 1 < _; omega)
    have hcnt : (emit a (s.advanced (s.codebook.get a).len.toNat)).rSymcnt.toNat = s.rSymcnt.toNat + 1 := h2
    generalize hu : emit a (s.advanced (s.codebook.get a).len.toNat) = u at *
    have hcb : u.codebook = s.codebook := by rw [h1]; rfl
    have hcfg : u.cfg = s.cfg := by rw [h1]; rfl
    obtain ⟨t, ht, hft, hct, hdt, hot⟩ := ih left u (by omega) (fun b hb => by rw [hcb]; exact hd b (by simp [hb]))
      (by rw [hcfg, hcnt]; omega) (fun _ => by
        rw [hcb, h1]
        rw [CbEntry.length_bits] at hr2
        exact hr2)
    refine ⟨t, ?_, ?_, by rw [hct, hcnt, List.length_cons]; omega, fun i hi => ?_, fun j hj => ?_⟩
    · rw [List.length_cons, show syms.length + 1 + left = (syms.length + left) + 1 by omega, decodeLoop, hstep]
      simp only
      rw [hu, ht]
    · have hl : (a :: syms).getLast?.getD s.rSym = syms.getLast?.getD a := by
        cases syms with
        | nil => rfl
        | cons b l => simp [List.getLast?_cons]
      rw [hft, hl, hcb, hstream, List.length_append, CbEntry.length_bits, h1]
      simp only [State.advanced, BitVec.add_assoc, BitVec.ofNat_add]
    · cases i with
      | zero =>
        rw [Nat.add_zero, hot _ (.inl (by omega))]
        exact h3 (by show s.rSymcnt.toNat < s.cfg.dataBytes; omega)
      | succ i =>
        have := hdt i (by simpa using hi)
        rw [hcnt] at this
        rw [show s.rSymcnt.toNat + (i + 1) = s.rSymcnt.toNat + 1 + i by omega, this]
        simp
    · rw [List.length_cons] at hj
      rw [hot j (by omega), h5 j (by show j ≠ s.rSymcnt.toNat; omega)]
      rfl

/-- Everything the loop of R_DECODE can do from `s` with `left` symbols to go. -/
def DecodeLoopOutcome (s : State) (left : Nat) : Host.Outcome State Fault Refusal → Prop
  | .next t =>
    t = { s with rSym := t.rSym, data := t.data, rSymcnt := t.rSymcnt, rBitpos := t.rBitpos, rstate := t.rstate,
                 err := t.err, pending := none } ∧
    s.rSymcnt.toNat ≤ t.rSymcnt.toNat ∧ t.rSymcnt.toNat ≤ s.rSymcnt.toNat + left ∧
    t.rSymcnt.toNat ≤ t.rBitpos.toNat ∧ s.rBitpos.toNat ≤ t.rBitpos.toNat ∧ t.rBitpos.toNat ≤ s.cfg.payloadBits ∧
    (s.data.wf → t.data.wf) ∧
    ((∀ c ∈ s.data, c.1 < s.cfg.dataBytes) → ∀ c ∈ t.data, c.1 < s.cfg.dataBytes) ∧
    (∀ j, j < s.rSymcnt.toNat ∨ t.rSymcnt.toNat ≤ j → t.data.read j = s.data.read j) ∧
    (t.err = .ok ∧ t.rstate = s.rstate ∧ t.rSymcnt.toNat = s.rSymcnt.toNat + left ∨
     t.rstate = .failed ∧ t.rSymcnt.toNat < s.rSymcnt.toNat + left ∧
      (t.err = .offCode ∨
       (t.err = .exhausted ∧ (s.rNbits.toNat ≤ t.rBitpos.toNat ∨ s.cfg.payloadBits ≤ t.rBitpos.toNat)) ∨
       (t.err = .emptyCodebook ∧ s.codebook.isEmpty = true)))
  | .fault f => ∃ a, f = .unwritten .payload a ∧ s.payload.read a = none ∧ 8 * a < s.cfg.payloadBits
  | .refused _ => False

theorem decodeLoop_outcome :
    ∀ (left : Nat) {s : State}, s.rSymcnt.toNat ≤ s.rBitpos.toNat → s.rBitpos.toNat ≤ s.cfg.payloadBits →
      DecodeLoopOutcome s left (decodeLoop left s)
  | 0, s, hs, hb =>
    ⟨rfl, Nat.le_refl _, by simp [State.finish], hs, Nat.le_refl _, hb, id, id, fun _ _ => rfl,
      .inl ⟨rfl, rfl, rfl⟩⟩
  | left + 1, s, hs, hb => by
    have hstep := decodeStep_outcome s
    rw [decodeLoop]
    generalize decodeStep s = r at hstep
    cases r with
    | stopped f => exact hstep
    | ended t =>
      obtain ⟨h1, h2, h3, h4⟩ := hstep
      have hcnt : t.rSymcnt = s.rSymcnt := by rw [h1]
      have hdata : t.data = s.data := by rw [h1]
      have hrst : t.rstate = .failed := by rw [h1]
      simp only
      refine ⟨by rw [h1], by rw [hcnt], by rw [hcnt]; omega, by rw [hcnt]; omega, h2, ?_, by rw [hdata]; exact id,
        by rw [hdata]; exact id, fun _ _ => by rw [hdata], .inr ⟨hrst, by rw [hcnt]; omega, ?_⟩⟩
      · rcases h3 with h3 | h3
        · rw [h3]; exact hb
        · exact h3.2
      · rcases h4 with h4 | h4 | ⟨h4, h5, _⟩
        · exact .inl h4
        · exact .inr (.inl h4)
        · exact .inr (.inr ⟨h4, h5⟩)
    | ok a u =>
      obtain ⟨h1, h2, h3, h4⟩ := hstep
      have hbp := s.rBitpos.isLt
      have hup := u.rBitpos.isLt
      have hucnt : u.rSymcnt = s.rSymcnt := by rw [h1]
      have hudata : u.data = s.data := by rw [h1]
      have hucfg : u.cfg = s.cfg := by rw [h1]
      obtain ⟨e1, e2, e3, e4, e5, e6, e7⟩ := emit_spec a (s := u) (by rw [hucnt]; omega)
      simp only
      have ih := decodeLoop_outcome left (s := emit a u)
        (by rw [e2, hucnt, show (emit a u).rBitpos = u.rBitpos from rfl]; omega)
        (by rw [show (emit a u).rBitpos = u.rBitpos from rfl, show (emit a u).cfg = u.cfg from rfl, hucfg]; exact h4)
      have hframe : emit a u = { s with rSym := a, data := (emit a u).data, rSymcnt := (emit a u).rSymcnt,
                                        rBitpos := u.rBitpos } := by rw [e1]; rw [h1]
      generalize hv : emit a u = v at *
      have hcfg : v.cfg = s.cfg := by rw [hframe]
      have hcb : v.codebook = s.codebook := by rw [hframe]
      have hpl : v.payload = s.payload := by rw [hframe]
      have hnb : v.rNbits = s.rNbits := by rw [hframe]
      have hrs : v.rstate = s.rstate := by rw [hframe]
      have hbit : v.rBitpos = u.rBitpos := by rw [hframe]
      have hcnt : v.rSymcnt.toNat = s.rSymcnt.toNat + 1 := by rw [e2, hucnt]
      generalize decodeLoop left v = o at ih
      cases o with
      | refused r => exact ih
      | fault f =>
        obtain ⟨j, i1, i2, i3⟩ := ih
        exact ⟨j, i1, by rw [← hpl]; exact i2, by rw [← hcfg]; exact i3⟩
      | next t =>
        obtain ⟨i1, i2, i3, i4, i5, i6, i7, i8, i9, i10⟩ := ih
        rw [hcfg] at i6 i8 i10
        rw [hcb, hnb, hrs, hcnt] at i10
        rw [hudata] at e5 e6 e7
        rw [hucfg] at e7
        rw [hucnt] at e5
        refine ⟨by rw [i1, hframe], by omega, by omega, i4, by rw [hbit] at i5; omega, i6, fun h => i7 (e6 h),
          fun h => i8 (e7 h), fun j hj => ?_, ?_⟩
        · rw [i9 j (by omega), e5 j (by omega)]
        · rcases i10 with ⟨i10, i11, i12⟩ | ⟨i10, i11, i12⟩
          · exact .inl ⟨i10, i11, by omega⟩
          · exact .inr ⟨i10, by omega, i12⟩

end Sys2Proof.Machine
end

