-- ==== Sys2Proof/Laws/Tree.lean ====
section
/-! SUPPORT. The laws of code tables: the order in which a codebook is loaded (R219). -/

namespace Sys2Proof.Machine

theorem mem_allSymbols (a : Symbol) : a ∈ allSymbols :=
  List.mem_map.2 ⟨a.toNat, List.mem_range.2 a.isLt, by simp⟩

theorem allSymbols_ascending : allSymbols.Pairwise fun a b => a.toNat < b.toNat := by
  rw [allSymbols, List.pairwise_map]
  refine List.Pairwise.imp_of_mem (fun {a b} ha hb h => ?_) List.pairwise_lt_range
  rw [List.mem_range] at ha hb
  simpa [Nat.mod_eq_of_lt ha, Nat.mod_eq_of_lt hb] using h

/-- What `find?` finds for a symbol is that symbol's entry. -/
theorem CodeTable.fst_of_find? {c : CodeTable} {a : Symbol} {e : Symbol × List Bool}
    (h : (c.find? fun e => e.1 == a) = some e) : e.1 = a := by
  simpa using List.find?_some h

/-- The loading order is strictly ascending by symbol. -/
theorem CodeTable.ascending_pairwise (c : CodeTable) :
    (CodeTable.ascending c).Pairwise fun d e => d.1.toNat < e.1.toNat := by
  rw [CodeTable.ascending, List.pairwise_filterMap]
  refine allSymbols_ascending.imp fun {a b} hab d hd e he => ?_
  rw [CodeTable.fst_of_find? hd, CodeTable.fst_of_find? he]
  exact hab

/-- With one entry for each symbol, the loading order has the same entries. -/
theorem CodeTable.mem_ascending {c : CodeTable} (hc : (c.map Prod.fst).Nodup) (e : Symbol × List Bool) :
    e ∈ CodeTable.ascending c ↔ e ∈ c := by
  rw [CodeTable.ascending, List.mem_filterMap]
  constructor
  · rintro ⟨a, _, h⟩
    exact List.mem_of_find?_eq_some h
  · intro he
    refine ⟨e.1, mem_allSymbols _, ?_⟩
    induction c with
    | nil => cases he
    | cons d c ih =>
      rw [List.map_cons, List.nodup_cons] at hc
      rw [List.find?_cons]
      rcases List.mem_cons.1 he with rfl | he
      · simp
      · have : (d.1 == e.1) = false := by
          rw [beq_eq_false_iff_ne]
          exact fun h => hc.1 (h ▸ List.mem_map_of_mem he)
        rw [this]
        exact ih hc.2 he

end Sys2Proof.Machine
end

