-- ==== Sys2Proof/Laws/Writer.lean ====
section
/-! SUPPORT. The laws of appending: what AppendBit, AppendCode and the loop of W_ENCODE can do (R151, R153, R160), and the
algebra of `Appended`. -/

namespace Sys2Proof.Machine

theorem Config.payloadBits_le_of_legal {c : Config} (h : c.Legal) : c.payloadBits ≤ 2 ^ 31 := by
  have := h.1.2
  simp only [Config.payloadBits]
  omega

/-! ### Bits in bytes (R64) -/

theorem bitOfByte_bitInByte (b : Bool) (p q : Nat) (h : p / 8 = q / 8) :
    bitOfByte (bitInByte b (p % 8)) q = (b && decide (q = p)) := by
  have hp : p % 8 < 8 := Nat.mod_lt _ (by decide)
  have hq : q % 8 < 8 := Nat.mod_lt _ (by decide)
  have hpq : q = p ↔ q % 8 = p % 8 := by omega
  simp only [hpq]
  generalize p % 8 = i at *
  generalize hj : q % 8 = j at *
  simp only [bitOfByte, hj]
  clear h hpq hj
  cases b
  · simp [bitInByte]
  · interval_cases i <;> interval_cases j <;> decide

theorem bitOfByte_or (v w : Byte) (q : Nat) : bitOfByte (v ||| w) q = (bitOfByte v q || bitOfByte w q) := by
  simp [bitOfByte]

theorem State.payloadBit_eq_some_of_read {s : State} {q : Nat} {v : Byte} (h : s.payload.read (q / 8) = some v) :
    s.payloadBit q = some (bitOfByte v q) := by
  simp [State.payloadBit, h]

theorem State.payloadBit_congr {s t : State} {q : Nat} (h : t.payload.read (q / 8) = s.payload.read (q / 8)) :
    t.payloadBit q = s.payloadBit q := by
  simp [State.payloadBit, h]

/-! ### AppendBit (R151) -/

/-- Everything AppendBit can do: stop at a partly filled byte without a value, or write one byte and count one bit. -/
theorem appendBit_cases (b : Bool) (s : State) :
    (s.wBitcnt.toNat % 8 ≠ 0 ∧ s.payload.read (s.wBitcnt.toNat / 8) = none ∧
      appendBit b s = .error (.unwritten .payload (s.wBitcnt.toNat / 8))) ∨
    ∃ v : Byte, appendBit b s =
        .ok { s with payload := s.payload.write (s.wBitcnt.toNat / 8) v, wBitcnt := s.wBitcnt + 1 } ∧
      ((s.wBitcnt.toNat % 8 = 0 ∧ v = bitInByte b 0) ∨
       (s.wBitcnt.toNat % 8 ≠ 0 ∧ ∃ old, s.payload.read (s.wBitcnt.toNat / 8) = some old ∧
          v = (old ||| bitInByte b (s.wBitcnt.toNat % 8)))) := by
  unfold appendBit
  by_cases hj : s.wBitcnt.toNat % 8 = 0
  · exact .inr ⟨_, by simp [hj], .inl ⟨hj, rfl⟩⟩
  · cases hr : s.payload.read (s.wBitcnt.toNat / 8) with
    | none => exact .inl ⟨hj, rfl, by simp only [hj, if_false, hr]⟩
    | some old => exact .inr ⟨_, by simp only [hj, if_false, hr], .inr ⟨hj, old, rfl, rfl⟩⟩

/-- AppendBit changes PL and W_BITCNT only. -/
theorem appendBit_frame {b : Bool} {s t : State} (h : appendBit b s = .ok t) :
    t = { s with payload := t.payload, wBitcnt := t.wBitcnt } := by
  rcases appendBit_cases b s with ⟨_, _, he⟩ | ⟨v, he, _⟩
  · rw [he] at h; cases h
  · rw [he] at h; cases h; rfl

/-- AppendBit below the top of the counter appends one bit. -/
theorem appendBit_appended {b : Bool} {s t : State} (h : appendBit b s = .ok t) (hlt : s.wBitcnt.toNat + 1 < 2 ^ 32) :
    s.Appended t [b] := by
  rcases appendBit_cases b s with ⟨_, _, he⟩ | ⟨v, he, hv⟩
  · rw [he] at h; cases h
  rw [he] at h; cases h
  have hcnt : (s.wBitcnt + 1).toNat = s.wBitcnt.toNat + 1 := by
    rw [BitVec.toNat_add]; exact Nat.mod_eq_of_lt hlt
  refine ⟨hcnt, fun q hq => ?_, fun q hq hb => ?_, fun a ha => ?_⟩
  · -- bits below stay
    by_cases hbyte : q / 8 = s.wBitcnt.toNat / 8
    · rcases hv with ⟨hj, _⟩ | ⟨_, old, hold, rfl⟩
      · omega
      · rw [State.payloadBit_eq_some_of_read (s := s) (v := old) (by rw [hbyte]; exact hold),
          State.payloadBit_eq_some_of_read (by rw [hbyte]; exact Memory.read_write_self _ _ _), bitOfByte_or,
          bitOfByte_bitInByte _ _ _ hbyte.symm, decide_eq_false (by omega)]
        simp
    · exact State.payloadBit_congr (Memory.read_write_ne _ _ hbyte)
  · -- the byte the bit falls in
    have hbyte : q / 8 = s.wBitcnt.toNat / 8 := by
      simp at hb; omega
    have hd : [b].getD (q - s.wBitcnt.toNat) false = (b && decide (q = s.wBitcnt.toNat)) := by
      by_cases hqe : q = s.wBitcnt.toNat
      · simp [hqe]
      · obtain ⟨k, hk⟩ : ∃ k, q - s.wBitcnt.toNat = k + 1 := ⟨q - s.wBitcnt.toNat - 1, by omega⟩
        simp [hqe, hk]
    rw [State.payloadBit_eq_some_of_read (by rw [hbyte]; exact Memory.read_write_self _ _ _), State.mergedBit, hd]
    rcases hv with ⟨hj, rfl⟩ | ⟨hj, old, hold, rfl⟩
    · have := bitOfByte_bitInByte b _ q hbyte.symm
      rw [hj] at this
      rw [this]
      simp [hj]
    · rw [bitOfByte_or, bitOfByte_bitInByte _ _ _ hbyte.symm,
        State.payloadBit_eq_some_of_read (v := old) (by rw [hbyte]; exact hold)]
      simp [hj, hbyte, Bool.or_comm]
  · -- other bytes stay
    refine Memory.read_write_ne _ _ ?_
    simp at ha
    omega

/-- AppendBit leaves the byte it wrote with a value, so the next merge finds one. -/
theorem appendBit_partial {b : Bool} {s t : State} (h : appendBit b s = .ok t) (hlt : s.wBitcnt.toNat + 1 < 2 ^ 32) :
    t.wBitcnt.toNat % 8 ≠ 0 → (t.payload.read (t.wBitcnt.toNat / 8)).isSome := by
  rcases appendBit_cases b s with ⟨_, _, he⟩ | ⟨v, he, _⟩
  · rw [he] at h; cases h
  rw [he] at h; cases h
  have hcnt : (s.wBitcnt + 1).toNat = s.wBitcnt.toNat + 1 := by
    rw [BitVec.toNat_add]; exact Nat.mod_eq_of_lt hlt
  intro hm
  simp only [hcnt] at hm ⊢
  have : (s.wBitcnt.toNat + 1) / 8 = s.wBitcnt.toNat / 8 := by omega
  simp [this]

/-- AppendBit succeeds when the partly filled byte, if there is one, has a value. -/
theorem appendBit_ok {s : State} (b : Bool)
    (hp : s.wBitcnt.toNat % 8 ≠ 0 → (s.payload.read (s.wBitcnt.toNat / 8)).isSome) : ∃ t, appendBit b s = .ok t := by
  rcases appendBit_cases b s with ⟨hj, hn, _⟩ | ⟨v, he, _⟩
  · rw [hn] at hp; simp at hp; contradiction
  · exact ⟨_, he⟩

/-! ### The algebra of appending -/

theorem State.Appended.refl {s : State}
    (hp : s.wBitcnt.toNat % 8 ≠ 0 → (s.payload.read (s.wBitcnt.toNat / 8)).isSome) : s.Appended s [] := by
  refine ⟨by simp, fun _ _ => rfl, fun q hq hb => ?_, fun _ _ => rfl⟩
  simp at hb
  have hbyte : q / 8 = s.wBitcnt.toNat / 8 := by omega
  obtain ⟨v, hv⟩ := Option.isSome_iff_exists.1 (hp (by omega))
  rw [State.mergedBit, State.payloadBit_eq_some_of_read (v := v) (by rw [hbyte]; exact hv)]
  have hj : s.wBitcnt.toNat % 8 ≠ 0 := by omega
  simp [hj, hbyte]

/-- Appending `bs` and then `cs` is appending `bs ++ cs`. -/
theorem State.Appended.trans {s t u : State} {bs cs : List Bool} (h1 : s.Appended t bs) (h2 : t.Appended u cs) :
    s.Appended u (bs ++ cs) := by
  obtain ⟨n1, l1, m1, b1⟩ := h1
  obtain ⟨n2, l2, m2, b2⟩ := h2
  refine ⟨by rw [n2, n1, List.length_append]; omega, fun q hq => ?_, fun q hq hb => ?_, fun a ha => ?_⟩
  · rw [l2 q (by omega), l1 q hq]
  · rw [List.length_append] at hb
    by_cases hqt : q < t.wBitcnt.toNat
    · rw [l2 q hqt, m1 q hq (by omega)]
      congr 2
      rw [List.getD_append]
      omega
    · rw [m2 q (by omega) (by omega)]
      have hd : (bs ++ cs).getD (q - s.wBitcnt.toNat) false = cs.getD (q - t.wBitcnt.toNat) false := by
        rw [List.getD_append_right _ _ _ _ (by omega)]
        congr 1
        omega
      rw [hd]
      simp only [State.mergedBit]
      congr 2
      by_cases hin : t.wBitcnt.toNat % 8 ≠ 0 ∧ q / 8 = t.wBitcnt.toNat / 8
      · have := m1 q hq (by omega)
        have hnone : bs.getD (q - s.wBitcnt.toNat) false = false := by
          rw [List.getD_eq_default]; omega
        rw [this, hnone]
        simp [hin.1, hin.2, State.mergedBit]
      · have hl : (decide (t.wBitcnt.toNat % 8 ≠ 0) && decide (q / 8 = t.wBitcnt.toNat / 8)) = false := by
          simpa using hin
        have hr : (decide (s.wBitcnt.toNat % 8 ≠ 0) && decide (q / 8 = s.wBitcnt.toNat / 8)) = false := by
          by_contra hc
          simp at hc
          omega
        rw [hl, hr]
        simp
  · rw [List.length_append] at ha
    rw [b2 a (by omega), b1 a (by omega)]

/-- Appending looks at PL and W_BITCNT alone. -/
theorem State.Appended.congr {s s' t t' : State} {bs : List Bool} (h : s.Appended t bs) (hs : s'.payload = s.payload)
    (hsc : s'.wBitcnt = s.wBitcnt) (ht : t'.payload = t.payload) (htc : t'.wBitcnt = t.wBitcnt) :
    s'.Appended t' bs := by
  simp only [State.Appended, State.payloadBit, State.mergedBit, hs, hsc, ht, htc] at h ⊢
  exact h

/-! ### AppendCode (R153) -/

/-- AppendCode changes PL and W_BITCNT only. -/
theorem appendCode_frame {w : Nat} (v : BitVec w) :
    ∀ (n : Nat) {s t : State}, appendCode v n s = .ok t → t = { s with payload := t.payload, wBitcnt := t.wBitcnt }
  | 0, s, t, h => by simp [appendCode] at h; subst h; rfl
  | n + 1, s, t, h => by
    simp only [appendCode] at h
    split at h
    · cases h
    · rename_i s' hs'
      have h1 := appendBit_frame hs'
      have h2 := appendCode_frame v n h
      rw [h2, h1]

/-- AppendCode stops only at the partly filled byte of the state it starts in. -/
theorem appendCode_error {w : Nat} (v : BitVec w) :
    ∀ (n : Nat) {s : State} {f : Fault}, s.wBitcnt.toNat + n < 2 ^ 32 → appendCode v n s = .error f →
      s.wBitcnt.toNat % 8 ≠ 0 ∧ s.payload.read (s.wBitcnt.toNat / 8) = none ∧
        f = .unwritten .payload (s.wBitcnt.toNat / 8)
  | 0, s, f, _, h => by simp [appendCode] at h
  | n + 1, s, f, hlt, h => by
    simp only [appendCode] at h
    split at h
    · rename_i f' hf
      cases h
      rcases appendBit_cases (v.getLsbD n) s with ⟨h1, h2, he⟩ | ⟨_, he, _⟩
      · rw [he] at hf; cases hf; exact ⟨h1, h2, rfl⟩
      · rw [he] at hf; cases hf
    · rename_i s' hs'
      have happ := (appendBit_appended hs' (by omega)).1
      simp at happ
      obtain ⟨h1, h2, _⟩ := appendCode_error v n (by omega) h
      have := appendBit_partial hs' (by omega) h1
      rw [h2] at this
      simp at this

/-- AppendCode within the counter appends the bits of v, the most significant first, and keeps the partly filled byte's
value. -/
theorem appendCode_appended {w : Nat} (v : BitVec w) :
    ∀ (n : Nat) {s t : State}, s.wBitcnt.toNat + n < 2 ^ 32 →
      (s.wBitcnt.toNat % 8 ≠ 0 → (s.payload.read (s.wBitcnt.toNat / 8)).isSome) → appendCode v n s = .ok t →
      s.Appended t (msbFirst v n) ∧ (t.wBitcnt.toNat % 8 ≠ 0 → (t.payload.read (t.wBitcnt.toNat / 8)).isSome)
  | 0, s, t, _, hp, h => by
    simp [appendCode] at h
    subst h
    exact ⟨by simpa [msbFirst] using State.Appended.refl hp, hp⟩
  | n + 1, s, t, hlt, hp, h => by
    simp only [appendCode] at h
    split at h
    · cases h
    · rename_i s' hs'
      have h1 := appendBit_appended hs' (by omega)
      have hc := h1.1
      simp at hc
      obtain ⟨h2, hp2⟩ := appendCode_appended v n (by omega) (appendBit_partial hs' (by omega)) h
      rw [msbFirst_succ]
      exact ⟨h1.trans h2, hp2⟩

/-- AppendCode succeeds when the partly filled byte, if there is one, has a value. -/
theorem appendCode_ok {w : Nat} (v : BitVec w) {n : Nat} {s : State} (hlt : s.wBitcnt.toNat + n < 2 ^ 32)
    (hp : s.wBitcnt.toNat % 8 ≠ 0 → (s.payload.read (s.wBitcnt.toNat / 8)).isSome) : ∃ t, appendCode v n s = .ok t := by
  cases h : appendCode v n s with
  | ok t => exact ⟨t, rfl⟩
  | error f =>
    obtain ⟨h1, h2, _⟩ := appendCode_error v n hlt h
    have := hp h1
    rw [h2] at this
    simp at this

/-- AppendCode keeps the canonical form of PL. -/
theorem appendCode_wf {w : Nat} (v : BitVec w) :
    ∀ (n : Nat) {s t : State}, s.payload.wf → appendCode v n s = .ok t → t.payload.wf
  | 0, s, t, hw, h => by simp [appendCode] at h; subst h; exact hw
  | n + 1, s, t, hw, h => by
    simp only [appendCode] at h
    split at h
    · cases h
    · rename_i s' hs'
      refine appendCode_wf v n ?_ h
      rcases appendBit_cases (v.getLsbD n) s with ⟨_, _, he⟩ | ⟨x, he, _⟩
      · rw [he] at hs'; cases hs'
      · rw [he] at hs'; cases hs'
        exact Memory.write_wf hw _ _

/-- AppendCode within PL keeps the range of its addresses. -/
theorem appendCode_within {w : Nat} (v : BitVec w) {size : Nat} :
    ∀ (n : Nat) {s t : State}, s.wBitcnt.toNat + n ≤ 8 * size → s.wBitcnt.toNat + n < 2 ^ 32 →
      (∀ c ∈ s.payload, c.1 < size) → appendCode v n s = .ok t → ∀ c ∈ t.payload, c.1 < size
  | 0, s, t, _, _, hr, h => by simp [appendCode] at h; subst h; exact hr
  | n + 1, s, t, hs, hlt, hr, h => by
    simp only [appendCode] at h
    split at h
    · cases h
    · rename_i s' hs'
      have hc := (appendBit_appended hs' (by omega)).1
      simp at hc
      refine appendCode_within v n (by omega) (by omega) ?_ h
      rcases appendBit_cases (v.getLsbD n) s with ⟨_, _, he⟩ | ⟨x, he, _⟩
      · rw [he] at hs'; cases hs'
      · rw [he] at hs'; cases hs'
        exact Memory.write_within hr (by omega) _

/-- "The partly filled byte has a value": what AppendBit's merge needs. -/
def State.partialHeld (s : State) : Prop :=
  s.wBitcnt.toNat % 8 ≠ 0 → (s.payload.read (s.wBitcnt.toNat / 8)).isSome

/-! ### One whole append (R152, R153) -/

/-- Everything an append of the low `n` bits of `v` can do where the partly filled byte has a value: PAYLOAD_FULL with
nothing appended where it does not fit, and else the bits. -/
theorem appendAll_outcome {w : Nat} (n : Nat) (v : BitVec w) {s : State} (hl : s.cfg.Legal) (hp : s.partialHeld) :
    (s.cfg.payloadBits < s.wBitcnt.toNat + n ∧ appendAll n v s = .next (s.finish .payloadFull)) ∨
    (s.wBitcnt.toNat + n ≤ s.cfg.payloadBits ∧ ∃ t, appendAll n v s = .next t ∧
      t = { s with payload := t.payload, wBitcnt := t.wBitcnt, err := .ok, pending := none } ∧
      s.Appended t (msbFirst v n) ∧ t.partialHeld ∧ (s.payload.wf → t.payload.wf) ∧
      ((∀ c ∈ s.payload, c.1 < s.cfg.payloadBytes) → ∀ c ∈ t.payload, c.1 < s.cfg.payloadBytes)) := by
  have hb := Config.payloadBits_le_of_legal hl
  unfold appendAll
  by_cases hf : s.wBitcnt.toNat + n ≤ s.cfg.payloadBits
  · obtain ⟨u, hu⟩ := appendCode_ok v (n := n) (s := s) (by omega) hp
    obtain ⟨ha, hpu⟩ := appendCode_appended v n (by omega) hp hu
    rw [if_neg (by simpa [State.fits] using hf), hu]
    refine .inr ⟨hf, u.finish .ok, rfl, by rw [appendCode_frame v n hu]; rfl, ha.congr rfl rfl rfl rfl, hpu,
      fun h => appendCode_wf (t := u) v n h hu,
      fun h => appendCode_within (t := u) v n hf (by omega) h hu⟩
  · exact .inl ⟨by omega, by rw [if_pos (by simpa [State.fits] using hf)]⟩

/-- W_PUTBIT's append is the append of one bit. -/
theorem appendAll_one (b : Bool) (s : State) :
    appendAll 1 (BitVec.ofBool b) s =
      if !s.fits 1 then .next (s.finish .payloadFull)
      else match appendBit b s with
        | .error f => .fault f
        | .ok s' => .next (s'.finish .ok) := by
  have hb : (BitVec.ofBool b).getLsbD 0 = b := by cases b <;> rfl
  simp only [appendAll, appendCode, hb]
  split
  · rfl
  · cases appendBit b s <;> rfl

/-! ### The loop of W_ENCODE (R160) -/

/-- The codes of `syms`, all coded and fitting, move the loop on over as many bytes. -/
theorem encodeLoop_advance (syms : List Symbol) :
    ∀ (i left : Nat) (s : State), s.cfg.Legal → s.partialHeld → s.holdsData i syms →
      (∀ a ∈ syms, (s.codebook.get a).len ≠ 0) →
      s.wBitcnt.toNat + (s.codebook.stream syms).length ≤ s.cfg.payloadBits →
      ∃ t, encodeLoop (syms.length + left) i s = encodeLoop left (i + syms.length) t ∧
        t = { s with payload := t.payload, wBitcnt := t.wBitcnt, wDatapos := t.wDatapos } ∧
        s.Appended t (s.codebook.stream syms) ∧ t.partialHeld := by
  induction syms with
  | nil =>
    intro i left s _ hp _ _ _
    exact ⟨s, by simp, rfl, by simpa [Codebook.stream] using State.Appended.refl hp, hp⟩
  | cons a syms ih =>
    intro i left s hl hp hd hc hfit
    have hbits : s.cfg.payloadBits ≤ 2 ^ 31 := Config.payloadBits_le_of_legal hl
    have hstream : s.codebook.stream (a :: syms) = (s.codebook.get a).bits ++ s.codebook.stream syms := by
      simp [Codebook.stream]
    rw [hstream, List.length_append, CbEntry.length_bits] at hfit
    have hlen : (s.codebook.get a).len.toNat ≠ 0 := fun h => hc a (by simp) (BitVec.eq_of_toNat_eq (by simpa using h))
    obtain ⟨s2, hs2⟩ := appendCode_ok (s := { s with wDatapos := BitVec.ofNat 32 i }) (s.codebook.get a).code
      (n := (s.codebook.get a).len.toNat) (by simp only; omega) hp
    have hframe := appendCode_frame _ _ hs2
    obtain ⟨happ, hp2⟩ := appendCode_appended (s.codebook.get a).code (s.codebook.get a).len.toNat
      (s := { s with wDatapos := BitVec.ofNat 32 i }) (by simp only; omega) hp hs2
    have hcb : s2.codebook = s.codebook := by rw [hframe]
    have hcfg : s2.cfg = s.cfg := by rw [hframe]
    have hdata : s2.data = s.data := by rw [hframe]
    have hcnt : s2.wBitcnt.toNat = s.wBitcnt.toNat + (s.codebook.get a).len.toNat := by
      have := happ.1
      simpa using this
    obtain ⟨t, ht, hft, hat, hpt⟩ := ih (i + 1) left s2 (by rw [hcfg]; exact hl) hp2
      (fun j hj => by
        have := hd (j + 1) (by simpa using hj)
        rw [hdata, show i + 1 + j = i + (j + 1) by omega, this]
        simp)
      (fun b hb => by rw [hcb]; exact hc b (by simp [hb])) (by rw [hcb, hcfg, hcnt]; omega)
    refine ⟨t, ?_, ?_, ?_, hpt⟩
    · have hread : s.data.read i = some a := by simpa using hd 0 (by simp)
      rw [show (a :: syms).length + left = (syms.length + left) + 1 by rw [List.length_cons]; omega, encodeLoop]
      simp only [hread, hlen, if_false]
      rw [if_neg (by simp only [State.fits, Bool.not_eq_true, Bool.not_eq_false', decide_eq_true_eq]; omega)]
      rw [hs2]
      simp only
      rw [ht, show (a :: syms).length = syms.length + 1 from rfl]
      congr 1
      omega
    · rw [hft, hframe]
    · rw [hstream]
      rw [hcb] at hat
      exact State.Appended.trans (State.Appended.congr happ rfl rfl rfl rfl) hat

/-- Everything the loop of W_ENCODE can do from `s` at byte `i` with `left` bytes to go. -/
def EncodeOutcome (s : State) (i left : Nat) : Host.Outcome State Fault Refusal → Prop
  | .next t =>
    t = { s with payload := t.payload, wBitcnt := t.wBitcnt, wDatapos := t.wDatapos, err := t.err, pending := none } ∧
    (∃ bits, s.Appended t bits) ∧ t.partialHeld ∧ t.wBitcnt.toNat ≤ s.cfg.payloadBits ∧
    (s.payload.wf → t.payload.wf) ∧
    ((∀ c ∈ s.payload, c.1 < s.cfg.payloadBytes) → ∀ c ∈ t.payload, c.1 < s.cfg.payloadBytes) ∧
    i ≤ t.wDatapos.toNat ∧ t.wDatapos.toNat ≤ i + left ∧
    (t.err = .ok ∧ t.wDatapos.toNat = i + left ∨
     ∃ a, t.wDatapos.toNat < i + left ∧ s.data.read t.wDatapos.toNat = some a ∧
      (t.err = .noCode ∧ (s.codebook.get a).len = 0 ∨
       t.err = .payloadFull ∧ (s.codebook.get a).len ≠ 0 ∧
        s.cfg.payloadBits < t.wBitcnt.toNat + (s.codebook.get a).len.toNat))
  | .fault f => ∃ j, i ≤ j ∧ j < i + left ∧ f = .unwritten .data j ∧ s.data.read j = none
  | .refused _ => False

theorem encodeLoop_outcome :
    ∀ (left i : Nat) {s : State}, s.cfg.Legal → s.partialHeld → s.wBitcnt.toNat ≤ s.cfg.payloadBits →
      i + left < 2 ^ 32 → EncodeOutcome s i left (encodeLoop left i s)
  | 0, i, s, _, hp, hb, hi => by
    have hi' : (BitVec.ofNat 32 i).toNat = i := by rw [BitVec.toNat_ofNat]; exact Nat.mod_eq_of_lt hi
    refine ⟨rfl, ⟨[], (State.Appended.refl hp).congr rfl rfl rfl rfl⟩, hp, hb, id, id, ?_, ?_, .inl ⟨rfl, ?_⟩⟩ <;>
      simp [State.finish, hi']
  | left + 1, i, s, hl, hp, hb, hi => by
    have hbits : s.cfg.payloadBits ≤ 2 ^ 31 := Config.payloadBits_le_of_legal hl
    have hi' : (BitVec.ofNat 32 i).toNat = i := by rw [BitVec.toNat_ofNat]; exact Nat.mod_eq_of_lt (by omega)
    have hsame : ∃ bits, s.Appended { s with wDatapos := BitVec.ofNat 32 i } bits :=
      ⟨[], (State.Appended.refl hp).congr rfl rfl rfl rfl⟩
    rw [encodeLoop]
    simp only
    cases hr : s.data.read i with
    | none => exact ⟨i, Nat.le_refl _, by omega, rfl, hr⟩
    | some a =>
      simp only
      by_cases hlen : (s.codebook.get a).len.toNat = 0
      · rw [if_pos hlen]
        refine ⟨rfl, ?_, hp, hb, id, id, by simp [State.finish, hi'], by simp [State.finish, hi'],
          .inr ⟨a, by simp [State.finish, hi'], by simpa [State.finish, hi'] using hr, .inl ⟨rfl, ?_⟩⟩⟩
        · obtain ⟨bits, h⟩ := hsame
          exact ⟨bits, h.congr rfl rfl rfl rfl⟩
        · exact BitVec.eq_of_toNat_eq (by simpa using hlen)
      · rw [if_neg hlen]
        have hne : (s.codebook.get a).len ≠ 0 := fun h => hlen (by rw [h]; rfl)
        by_cases hfit : s.wBitcnt.toNat + (s.codebook.get a).len.toNat ≤ s.cfg.payloadBits
        · rw [if_neg (by simpa [State.fits] using hfit)]
          obtain ⟨s2, hs2⟩ := appendCode_ok (s := { s with wDatapos := BitVec.ofNat 32 i }) (s.codebook.get a).code
            (n := (s.codebook.get a).len.toNat) (by simp only; omega) hp
          have hframe := appendCode_frame _ _ hs2
          obtain ⟨happ, hp2⟩ := appendCode_appended (s.codebook.get a).code (s.codebook.get a).len.toNat
            (s := { s with wDatapos := BitVec.ofNat 32 i }) (by simp only; omega) hp hs2
          have hcb : s2.codebook = s.codebook := by rw [hframe]
          have hcfg : s2.cfg = s.cfg := by rw [hframe]
          have hdata : s2.data = s.data := by rw [hframe]
          have hcnt : s2.wBitcnt.toNat = s.wBitcnt.toNat + (s.codebook.get a).len.toNat := by
            have := happ.1
            simpa using this
          have ih := encodeLoop_outcome left (i + 1) (s := s2) (by rw [hcfg]; exact hl) hp2 (by rw [hcnt, hcfg]; exact hfit)
            (by omega)
          rw [hs2]
          simp only
          generalize encodeLoop left (i + 1) s2 = o at ih
          cases o with
          | next t =>
            obtain ⟨h1, ⟨bits, h2⟩, h3, h4, h5, h6, h7, h8, h9⟩ := ih
            rw [hcfg] at h4 h6 h9
            rw [hcb, hdata] at h9
            refine ⟨by rw [h1, hframe], ⟨_, (happ.congr rfl rfl rfl rfl).trans h2⟩, h3, h4, ?_, ?_, by omega, by omega, ?_⟩
            · exact fun hw => h5 (appendCode_wf _ _ (s := { s with wDatapos := BitVec.ofNat 32 i }) hw hs2)
            · exact fun hr => h6 (appendCode_within _ _ (s := { s with wDatapos := BitVec.ofNat 32 i }) hfit
                (by simp only; omega) hr hs2)
            · rcases h9 with ⟨h9, h10⟩ | ⟨c, h9, h10⟩
              · exact .inl ⟨h9, by omega⟩
              · exact .inr ⟨c, by omega, h10⟩
          | fault f =>
            obtain ⟨j, h1, h2, h3, h4⟩ := ih
            exact ⟨j, by omega, by omega, h3, by rw [← hdata]; exact h4⟩
          | refused r => exact ih
        · rw [if_pos (by simpa [State.fits] using hfit)]
          refine ⟨rfl, ?_, hp, hb, id, id, by simp [State.finish, hi'], by simp [State.finish, hi'],
            .inr ⟨a, by simp [State.finish, hi'], by simpa [State.finish, hi'] using hr, .inr ⟨rfl, hne, ?_⟩⟩⟩
          · obtain ⟨bits, h⟩ := hsame
            exact ⟨bits, h.congr rfl rfl rfl rfl⟩
          · simp [State.finish]; omega

end Sys2Proof.Machine
end

