-- ==== Sys2Proof/Tests/Slice0.lean ====
section
/-! SUPPORT. Tests of the model on the vectors of 95_test_vectors.md, and a witness for the hypotheses of every
obligation. Each expected value is the spec's. -/

namespace Sys2Proof.Tests

open Sys2Proof.Machine

-- One theorem at a time: each `decide +kernel` waits for the kernel, and a thread for each would take too much memory.
set_option Elab.async false

/-! ### Helpers -/

/-- What `f` reads of the next state, if there is one. -/
def after {α : Type} (f : State → α) : Host.Outcome State Fault Refusal → Option α
  | .next t => some (f t)
  | .fault _ => none
  | .refused _ => none

/-- CB1 = {a: 11, b: 0, c: 10} (95_test_vectors.md). -/
def cb1 : Codebook :=
  ((Codebook.cleared.put 0x61 { len := 2, code := 3 }).put 0x62 { len := 1, code := 0 }).put 0x63 { len := 2, code := 2 }

/-- A fresh block, PAYLOAD_BYTES = DATA_BYTES = 16, with CB1 loaded. -/
def block : State := { State.reset with codebook := cb1 }

/-- A fresh stream. -/
def stream : State := { block with wstate := .opened }

/-- A fresh session on PL = FC 20, R_NBITS = 12, ORIG_LEN = 8 (V2). -/
def session : State :=
  { block with rstate := .active, payload := [(0, 0xFC), (1, 0x20)], rNbits := 12, origLen := 8 }

/-- A block of 2 bytes of each RAM, full but for one bit. -/
def small : State :=
  { block with cfg := { payloadBytes := 2, dataBytes := 2 }, wstate := .opened, wBitcnt := 15,
               payload := [(0, 0), (1, 0)] }

/-- A block with a command in progress and DROPPED set. -/
def working : State := { block with pending := some 0x10, dropped := true }

theorem cb1_get (a : Symbol) :
    cb1.get a = if a = 0x63 then { len := 2, code := 2 } else if a = 0x62 then { len := 1, code := 0 }
      else if a = 0x61 then { len := 2, code := 3 } else { len := 0, code := 0 } := by
  simp only [cb1, Codebook.get_put, Codebook.get_cleared]

theorem cb1_wf (a : Symbol) : (cb1.get a).wf := by
  rw [cb1_get]
  split
  · decide
  · split
    · decide
    · split <;> decide

theorem cb1_prefixFree : cb1.PrefixFree := by
  intro a b
  rw [cb1_get, cb1_get]
  split <;> split <;> (try split) <;> (try split) <;> (try split) <;> (try split) <;> intro h hp <;>
    first
    | (subst_vars; rfl)
    | exact absurd rfl h
    | (exfalso; revert hp; decide)

/-- The invariant of a state, from the clause of the codebook and the others. -/
theorem inv_of {s : State} (hc : ∀ a : Symbol, (s.codebook.get a).wf)
    (h : s.cfg.Legal ∧ s.payload.wf ∧ (∀ c ∈ s.payload, c.1 < s.cfg.payloadBytes) ∧ s.data.wf ∧
      (∀ c ∈ s.data, c.1 < s.cfg.dataBytes) ∧ s.wBitcnt.toNat ≤ s.cfg.payloadBits ∧
      (s.wBitcnt.toNat % 8 ≠ 0 → (s.payload.read (s.wBitcnt.toNat / 8)).isSome) ∧
      (s.wstate ≠ .final → s.wPad = 0) ∧
      (s.wstate = .final → s.wPad.toNat = (8 - s.wBitcnt.toNat % 8) % 8) ∧
      s.wDatapos.toNat ≤ s.cfg.dataBytes ∧ s.rBitpos.toNat ≤ s.cfg.payloadBits ∧
      s.rSymcnt.toNat ≤ s.rBitpos.toNat ∧ (s.busy = true → s.err = .ok)) : s.Inv := by
  obtain ⟨h1, h2, h3, h4, h5, h6, h7, h8, h9, h10, h11, h12, h13⟩ := h
  exact ⟨h1, h2, h3, h4, h5, hc, h6, h7, h8, h9, h10, h11, h12, h13⟩

theorem block_inv : block.Inv := inv_of cb1_wf (by decide)
theorem stream_inv : stream.Inv := inv_of cb1_wf (by decide)
theorem session_inv : session.Inv := inv_of cb1_wf (by decide)
theorem small_inv : small.Inv := inv_of cb1_wf (by decide)
theorem working_inv : working.Inv := inv_of cb1_wf (by decide)

/-! ### WellFormed: each check refuses an ill-formed term -/

theorem test_wf_busRd_refuses_we : RawWord.wf (.busRd 0b100001001) = false := by decide
theorem test_wf_busRd_admits : RawWord.wf (.busRd 0b000001001) = true := by decide
theorem test_wf_busWr_refuses_no_we : RawWord.wf (.busWr 0x0812345678) = false := by decide
theorem test_wf_busWr_admits : RawWord.wf (.busWr 0x10812345678) = true := by decide
theorem test_wf_busRd_is_refused : decode (.busRd 0b100001001) = .error .wrongWe := by decide
theorem test_wf_busWr_is_refused : decode (.busWr 0x0812345678) = .error .wrongWe := by decide
theorem test_wf_payload_zero : ¬ Config.LegalPayload { payloadBytes := 0, dataBytes := 1 } := by decide
theorem test_wf_payload_above : ¬ Config.LegalPayload { payloadBytes := 2 ^ 28 + 1, dataBytes := 1 } := by decide
theorem test_wf_data_zero : ¬ Config.LegalData { payloadBytes := 1, dataBytes := 0 } := by decide
theorem test_wf_data_above : ¬ Config.LegalData { payloadBytes := 1, dataBytes := 2 ^ 28 + 1 } := by decide
theorem test_wf_largest : Config.Legal { payloadBytes := 2 ^ 28, dataBytes := 2 ^ 28 } := by decide
theorem test_wf_reserved_opc : decodeTableWord 8 0x04 = none := by decide

/-! ### Decoding: words written out from R92 and R98 -/

theorem test_decode_nop : decodeTableWord 8 0x00 = some .nop := by decide
theorem test_decode_cbClear : decodeTableWord 8 0x01 = some .cbClear := by decide
theorem test_decode_cbWrite : decodeTableWord 32 0x00006102 = some (.cbWrite 0x61) := by decide
theorem test_decode_cbRead : decodeTableWord 32 0x0000FF03 = some (.cbRead 0xFF) := by decide
theorem test_decode_wInit : decodeTableWord 8 0x10 = some .wInit := by decide
theorem test_decode_wPutbit : decodeTableWord 32 0x00000111 = some (.wPutbit true) := by decide
theorem test_decode_wPutbit_arg0 : decodeTableWord 32 0x0000FE11 = some (.wPutbit false) := by decide
theorem test_decode_wPutbits : decodeTableWord 32 0x00002112 = some (.wPutbits 33) := by decide
theorem test_decode_wPutsym : decodeTableWord 32 0x00006113 = some (.wPutsym 0x61) := by decide
theorem test_decode_wEncode : decodeTableWord 8 0x14 = some .wEncode := by decide
theorem test_decode_wFinal : decodeTableWord 32 0xFFFFFF15 = some .wFinal := by decide
theorem test_decode_rInit : decodeTableWord 8 0x20 = some .rInit := by decide
theorem test_decode_rGetbit : decodeTableWord 8 0x21 = some .rGetbit := by decide
theorem test_decode_rDecsym : decodeTableWord 8 0x22 = some .rDecsym := by decide
theorem test_decode_rDecode : decodeTableWord 8 0x23 = some .rDecode := by decide
theorem test_decode_busRd : decodeTableWord 16 0b000001001 = some (.busRd 0x09) := by decide
theorem test_decode_busWr :
    decodeTableWord 48 0b10000100000000000000000000110000100010011 = some (.busWr 0x08 0x00006113) := by decide

/-! ### The placing of an instruction -/

theorem test_fetch_command : after (fun t => (t.wstate, t.busy, t.inputs)) (step (State.reset.withFetchWord 8 0x10)) =
    some (.opened, false, []) := by decide +kernel
theorem test_fetch_busWr :
    after (fun t => (t.wBitsval, t.inputs)) (step (State.reset.withFetchWord 48 0x12000000005)) = some (5, []) := by
  decide +kernel

/-! ### One step of each instruction, on vectors of 95_test_vectors.md -/

/-- CBK-6. -/
theorem test_nop : after (fun t => (t.err, t.busy)) (exec .nop { block with err := .illegalCmd }) = some (.ok, false) := by
  decide +kernel
/-- BUS-8. -/
theorem test_reserved :
    after (fun t => readReg t .status) (engineTurn { State.reset with pending := some 0x16 }) = some (.ok 0x10) := by
  decide +kernel
/-- CBK-1. -/
theorem test_cbClear : after (fun t => (t.codebook.get 0x61, t.err)) (exec .cbClear block) =
    some ({ len := 0, code := 0 }, .ok) := by decide +kernel
/-- CBK-2: bits above the length are dropped. -/
theorem test_cbWrite_masks :
    after (fun t => t.codebook.get 0x64)
      (exec (.cbWrite 0x64) { block with cbLen := 2, cbCode := Vector.replicate 8 0xFFFFFFFF }) =
    some { len := 2, code := 3 } := by decide +kernel
/-- CBK-3: the second staging word holds bit 32. -/
theorem test_cbWrite_33 :
    after (fun t => t.codebook.get 0x41)
      (exec (.cbWrite 0x41) { block with cbLen := 33, cbCode := Vector.replicate 8 0xFFFFFFFF }) =
    some { len := 33, code := 0x1FFFFFFFF } := by decide +kernel
/-- CBK-4: bit 255 of the stage is never stored. -/
theorem test_cbRead_255 :
    after (fun t => (t.cbLen, t.cbCode[7], t.cbCode[0]))
      (exec (.cbRead 0xFF) { block with codebook := block.codebook.put 0xFF { len := 255, code := BitVec.allOnes 255 } }) =
    some (255, 0x7FFFFFFF, 0xFFFFFFFF) := by decide +kernel
/-- CBK-7. -/
theorem test_cbRead : after (fun t => (t.cbLen, t.cbCode[0])) (exec (.cbRead 0x62) block) = some (1, 0) := by
  decide +kernel
/-- WRT-21. -/
theorem test_wInit :
    after (fun t => (t.wstate, t.wBitcnt, t.wPad, t.payload))
      (exec .wInit { block with wstate := .final, wBitcnt := 1, wPad := 7, payload := [(0, 0x80)] }) =
    some (.opened, 0, 0, [(0, 0x80)]) := by decide +kernel
/-- WRT-19: the first bit of a byte overwrites it. -/
theorem test_wPutbit_overwrites :
    after (fun t => (t.payload, t.wBitcnt)) (exec (.wPutbit false) { stream with payload := [(0, 0xFF)] }) =
    some ([(0, 0)], 1) := by decide +kernel
/-- WRT-20: later bits are ORed in. -/
theorem test_wPutbit_merges :
    after (fun t => (t.payload, t.wBitcnt))
      (exec (.wPutbit false) { stream with payload := [(0, 0x81)], wBitcnt := 1 }) = some ([(0, 0x81)], 2) := by
  decide +kernel
/-- WRT-8. -/
theorem test_wPutbits_spans :
    after (fun t => (t.payload, t.wBitcnt))
      (exec (.wPutbits 7) { stream with payload := [(0, 0xA0)], wBitcnt := 3, wBitsval := 0xFFFFFF81 }) =
    some ([(0, 0xA0), (1, 0x40)], 10) := by decide +kernel
/-- WRT-2: the state is checked before the operand. -/
theorem test_wPutbits_order : after (fun t => t.err) (exec (.wPutbits 0) block) = some .badState := by decide +kernel
/-- WRT-12. -/
theorem test_wPutsym : after (fun t => (t.payload, t.wBitcnt)) (exec (.wPutsym 0x61) stream) =
    some ([(0, 0xC0)], 2) := by decide +kernel
/-- WRT-11 and WRT-13: NO_CODE is checked before the capacity. -/
theorem test_wPutsym_noCode : after (fun t => t.err) (exec (.wPutsym 0x64) { small with wBitcnt := 16 }) =
    some .noCode := by decide +kernel
/-- V1, its first three bytes: a, b, c. -/
theorem test_wEncode :
    after (fun t => (t.payload, t.wBitcnt, t.wDatapos, t.err))
      (exec .wEncode { stream with data := [(0, 0x61), (1, 0x62), (2, 0x63)], wDatalen := 3 }) =
    some ([(0, 0xD0)], 5, 3, .ok) := by decide +kernel
/-- WRT-14 with CB1: the byte with no code is the third. -/
theorem test_wEncode_stops :
    after (fun t => (t.payload, t.wBitcnt, t.wDatapos, t.err))
      (exec .wEncode { stream with data := [(0, 0x61), (1, 0x62), (2, 0x78)], wDatalen := 3 }) =
    some ([(0, 0xC0)], 3, 2, .noCode) := by decide +kernel
/-- V1: W_PAD = 4 after 12 bits. -/
theorem test_wFinal : after (fun t => (t.wPad, readReg t .status)) (exec .wFinal { stream with wBitcnt := 12 }) =
    some (4, .ok 0x200) := by decide +kernel
/-- WRT-18: a whole byte needs no padding. -/
theorem test_wFinal_whole : after (fun t => t.wPad) (exec .wFinal { stream with wBitcnt := 8 }) = some 0 := by
  decide +kernel
/-- RDR-5. -/
theorem test_rInit_too_many : after (fun t => (t.err, t.rstate)) (exec .rInit { block with rNbits := 129 }) =
    some (.badOperand, .idle) := by decide +kernel
/-- RDR-5. -/
theorem test_rInit : after (fun t => (t.err, t.rstate)) (exec .rInit { block with rNbits := 128 }) =
    some (.ok, .active) := by decide +kernel
/-- RDR-2. -/
theorem test_rGetbit : after (fun t => (t.rBit, t.rBitpos)) (exec .rGetbit session) = some (1, 1) := by decide +kernel
/-- RDR-6. -/
theorem test_rGetbit_exhausted :
    after (fun t => (t.err, t.rstate, t.rBitpos)) (exec .rGetbit { session with rNbits := 0 }) =
    some (.exhausted, .failed, 0) := by decide +kernel
/-- RDR-3. -/
theorem test_rDecsym :
    after (fun t => (t.rSym, t.rBitpos, t.rSymcnt, t.data)) (exec .rDecsym session) =
    some (0x61, 2, 1, [(0, 0x61)]) := by decide +kernel
/-- RDR-17: the lowest matching symbol wins. -/
theorem test_rDecsym_lowest :
    after (fun t => t.rSym) (exec .rDecsym { session with
      codebook := (Codebook.cleared.put 0x62 { len := 1, code := 0 }).put 0x41 { len := 1, code := 0 },
      payload := [(0, 0x40)] }) = some 0x41 := by decide +kernel
/-- V2. -/
theorem test_rDecode :
    after (fun t => (t.data.map Prod.snd, t.rBitpos, t.rSymcnt, t.rSym)) (exec .rDecode session) =
    some ([0x61, 0x61, 0x61, 0x62, 0x62, 0x62, 0x62, 0x63], 12, 8, 0x63) := by decide +kernel
/-- RDR-7. -/
theorem test_rDecode_truncated :
    after (fun t => (t.err, t.rBitpos, t.rSymcnt, t.data)) (exec .rDecode { session with rNbits := 4 }) =
    some (.exhausted, 4, 2, [(0, 0x61), (1, 0x61)]) := by decide +kernel
/-- BUS-1. -/
theorem test_busRd : after (fun t => t.replies) (exec (.busRd 0x01) block) = some [0x6d616e20] := by decide +kernel
/-- BUS-13: the byte was never written. -/
theorem test_busRd_unwritten : after (fun t => t.replies) (exec (.busRd 0x41) block) = none := by decide +kernel
/-- BUS-12. -/
theorem test_busWr_hi : after (fun t => t.origLen) (exec (.busWr 0x32 1) { block with origLen := 5 }) =
    some 0x0000000100000005 := by decide +kernel
/-- BUS-5. -/
theorem test_busWr_dropped :
    after (fun t => (t.dropped, t.wBitsval)) (exec (.busWr 0x20 5) { block with pending := some 0x10 }) =
    some (true, 0) := by decide +kernel

/-! ### The reference firmware, on vectors of 95_test_vectors.md -/

/-- W3: codebook(buildTree(freq("aaabbbbc"))) is CB1. -/
theorem test_codes : codesOf [(0x61, 3), (0x62, 4), (0x63, 1)] =
    [(0x62, [false]), (0x63, [true, false]), (0x61, [true, true])] := by decide +kernel
/-- FW-2: CB2. -/
theorem test_codes_cb2 :
    codesOf [(0x61, 5), (0x62, 2), (0x63, 1), (0x64, 1), (0x72, 2)] =
    [(0x61, [false]), (0x63, [true, false, false]), (0x64, [true, false, true]), (0x62, [true, true, false]),
     (0x72, [true, true, true])] := by decide +kernel
/-- P1: the codebook is loaded in ascending symbol order, so the code of c is the one left in the stage. -/
theorem test_loadCodebook :
    (loadCodebook 1 (codesOf [(0x61, 3), (0x62, 4), (0x63, 1)]) State.reset).map
      (fun t => (t.cbLen, t.cbCode[0], t.codebook.get 0x61, t.codebook.get 0x62, t.codebook.get 0x63)) =
    .ok (2, 2, { len := 2, code := 3 }, { len := 1, code := 0 }, { len := 2, code := 2 }) := by decide +kernel
/-- FW-5: the container of "ab". -/
def containerAb : Container :=
  { originalLength := 2, symbolTable := [(0x61, 1), (0x62, 1)], paddingBits := 6, payload := [0x40] }
/-- FW-5. -/
theorem test_container : containerAb.bytes =
    [0x48, 0x55, 0x46, 0x46, 0x01, 0, 0, 0, 0, 0, 0, 0, 2, 0, 2, 0x61, 0, 0, 0, 1, 0x62, 0, 0, 0, 1, 6, 0x40] := by
  decide +kernel
/-- FW-11: check 7. -/
theorem test_header_counts : parseContainer [0x48, 0x55, 0x46, 0x46, 1, 0, 0, 0, 0, 0, 0, 0, 1, 0, 0, 0] =
    .error .invalidFormat := by decide +kernel
/-- FW-12: check 2. -/
theorem test_header_magic : parseContainer [0x49, 0x55, 0x46, 0x46, 1, 0, 0, 0, 0, 0, 0, 0, 0, 0, 0, 0] =
    .error .invalidFormat := by decide +kernel
/-- W5 on the block: N = 5, read to the container. -/
theorem test_encode : (fwEncode 1 [0x61, 0x61, 0x61, 0x61, 0x61] State.reset).map Prod.fst =
    .ok [0x48, 0x55, 0x46, 0x46, 1, 0, 0, 0, 0, 0, 0, 0, 5, 0, 1, 0x61, 0, 0, 0, 5, 3, 0] := by decide +kernel

/-! ### Witnesses: for every obligation with hypotheses, states and operands that meet them, clause by clause -/

/-- The symbols of V2, "aaabbbbc". -/
def v2 : List Symbol := [0x61, 0x61, 0x61, 0x62, 0x62, 0x62, 0x62, 0x63]

/-- A stream with "abc" in DT and W_DATALEN = 3. -/
def loaded : State := { stream with data := [(0, 0x61), (1, 0x62), (2, 0x63)], wDatalen := 3 }

/-- A stream with "ab" and a byte without a code in DT and W_DATALEN = 3. -/
def uncoded : State := { stream with data := [(0, 0x61), (1, 0x62), (2, 0x78)], wDatalen := 3 }

/-- RDR-10's codebook, {a: 0}, and PL = 80: bit 1 is no code. -/
def offCode : State :=
  { session with codebook := Codebook.cleared.put 0x61 { len := 1, code := 0 }, payload := [(0, 0x80)] }

/-- A failed reader. -/
def failed : State := { session with rstate := .failed }

theorem loaded_inv : loaded.Inv := inv_of cb1_wf (by decide)
theorem uncoded_inv : uncoded.Inv := inv_of cb1_wf (by decide)

theorem offCode_inv : offCode.Inv := by
  refine inv_of (fun a => ?_) (by decide)
  simp only [offCode, Codebook.get_put, Codebook.get_cleared]
  split <;> decide

theorem cb1_coded (a : Symbol) (h : a ∈ v2) : (cb1.get a).len ≠ 0 := by
  revert a
  decide +kernel

theorem cb1_decodes (a : Symbol) (h : a ∈ v2) : cb1.Decodes a := cb1_prefixFree.decodes (cb1_coded a h)

theorem witness_DecodeAndEncodeAgree :
    Instr.wf (.wPutbits 255) = true ∧ decodeCmd 0xFFFFFF11 = .ok (.wPutbit true) ∧
    decode (.busRd 0x0FF) = .ok (.busRd 0xFF) ∧ decode (.busWr 0x1FF00000001) = .ok (.busWr 0xFF 1) := by decide

theorem witness_DecodeFunctionOfTheOpcodeMap :
    (0x00000023 : Word).toNat % 256 = 0x23 ∧ (0xFFFFFF15 : Word).toNat % 256 = 0x15 ∧
    (0x04 : Word).toNat % 256 ∉ [0x00, 0x01, 0x02, 0x03, 0x10, 0x11, 0x12, 0x13, 0x14, 0x15, 0x20, 0x21, 0x22, 0x23] ∧
    (0xFF : Word).toNat % 256 ∉ [0x00, 0x01, 0x02, 0x03, 0x10, 0x11, 0x12, 0x13, 0x14, 0x15, 0x20, 0x21, 0x22, 0x23] := by
  decide

theorem witness_ReservedOpcodesCompleteWithIllegalCmd :
    { block with pending := some 0x04 }.pending = some 0x04 ∧
    (0x04 ≤ (0x04 : Word).toNat % 256 ∧ (0x0F : Word).toNat % 256 ≤ 0x0F) ∧
    (0x16 ≤ (0x16 : Word).toNat % 256 ∧ (0x1F : Word).toNat % 256 ≤ 0x1F) ∧
    0x24 ≤ (0x24 : Word).toNat % 256 ∧ 0x24 ≤ (0xFF : Word).toNat % 256 := by decide

theorem witness_StepRunsTheDecodedInstruction :
    { block with inputs := [wr .wBitsval 5] }.inputs = .bus { we := true, address := 0x20, writeData := 5 } :: [] ∧
    { block with inputs := [rd .status] }.inputs = .bus { we := false, address := 0x09, writeData := 0 } :: [] ∧
    working.pending = some 0x10 ∧ decodeCmd 0x10 = .ok .wInit ∧ working.inputs = [] ∧
    { working with inputs := [.engine] }.inputs = .engine :: [] ∧
    block.pending = none ∧ block.inputs = [] ∧ { block with inputs := [.engine] }.inputs = .engine :: [] := by
  decide

theorem witness_IssuedCommandIsPerformedByTheEngineTurn :
    block.pending = none ∧
    { block with inputs := [give .wInit, .engine] }.inputs =
      .bus { we := true, address := 0x08, writeData := 0x10 } :: .engine :: [] := by decide

/-- The fault of an outcome, if it is one. -/
def stopOf : Host.Outcome State Fault Refusal → Option Fault
  | .next _ => none
  | .fault f => some f
  | .refused _ => none

theorem fault_of_stopOf {o : Host.Outcome State Fault Refusal} {f : Fault} (h : stopOf o = some f) : o = .fault f := by
  cases o with
  | next t => cases h
  | fault g => cases h; rfl
  | refused r => cases h

theorem witness_OnlyUnwrittenBytesStopTheMachine :
    { session with payload := [] }.Inv ∧
    exec .rGetbit { session with payload := [] } = .fault (.unwritten .payload 0) ∧
    exec .rDecsym { session with payload := [] } = .fault (.unwritten .payload 0) ∧
    exec .rDecode { session with payload := [] } = .fault (.unwritten .payload 0) ∧
    exec (.busRd 0x41) { session with payload := [] } = .fault (.unwritten .payload 0) ∧
    { loaded with data := [(0, 0x61)] }.Inv ∧
    exec .wEncode { loaded with data := [(0, 0x61)] } = .fault (.unwritten .data 1) ∧
    exec (.busRd 0x43) { loaded with data := [] } = .fault (.unwritten .data 0) := by
  refine ⟨inv_of cb1_wf (by decide), fault_of_stopOf ?_, fault_of_stopOf ?_, fault_of_stopOf ?_, fault_of_stopOf ?_,
    inv_of cb1_wf (by decide), fault_of_stopOf ?_, fault_of_stopOf ?_⟩ <;> decide +kernel

theorem witness_ResetMayComeAtAnyTime :
    { working with inputs := [.reset] }.inputs = .reset :: [] ∧ working.busy = true := by decide

theorem witness_CommandsAcceptedAfterReset :
    after State.err (exec (.cbRead 0xFF) (State.resetWith { payloadBytes := 1, dataBytes := 1 })) = some .ok ∧
    block.wstate = .idle ∧ block.rstate = .idle ∧
    (∃ t, step working = .next t ∧ working.wstate = .idle ∧ t.wstate ≠ .idle) ∧
    ∃ t, step { working with pending := some 0x20 } = .next t ∧ working.rstate = .idle ∧ t.rstate ≠ .idle :=
  ⟨by decide +kernel, rfl, rfl, ⟨_, rfl, rfl, by decide⟩, _, rfl, rfl, by decide⟩

theorem witness_BusReadReturnsTheRegister :
    block.pending = none ∧
    (∀ a : RegAddr, a ∈ [0x03, 0x07] → 0x03 ≤ a.toNat ∧ a.toNat ≤ 0x07) ∧
    (∀ a : RegAddr, a ∈ [0x0A, 0x0F] → 0x0A ≤ a.toNat ∧ a.toNat ≤ 0x0F) ∧
    (∀ a : RegAddr, a ∈ [0x19, 0x1F] → 0x19 ≤ a.toNat ∧ a.toNat ≤ 0x1F) ∧
    (∀ a : RegAddr, a ∈ [0x25, 0x2F] → 0x25 ≤ a.toNat ∧ a.toNat ≤ 0x2F) ∧
    (∀ a : RegAddr, a ∈ [0x38, 0x3F] → 0x38 ≤ a.toNat ∧ a.toNat ≤ 0x3F) ∧
    ∀ a : RegAddr, a ∈ [0x44, 0xFF] → 0x44 ≤ a.toNat := by decide

theorem witness_RamWindowsReadAndWriteOneByte :
    let last : State := { block with plAddr := 15, dtAddr := 15, payload := [(15, 7)], data := [(15, 7)] }
    let past : State := { block with plAddr := 16, dtAddr := 16 }
    last.pending = none ∧ past.pending = none ∧
    (last.plAddr.toNat < last.cfg.payloadBytes ∧ last.payload.read last.plAddr.toNat = some 7) ∧
    (last.dtAddr.toNat < last.cfg.dataBytes ∧ last.data.read last.dtAddr.toNat = some 7) ∧
    (block.plAddr.toNat < block.cfg.payloadBytes ∧ block.payload.read block.plAddr.toNat = none) ∧
    (block.dtAddr.toNat < block.cfg.dataBytes ∧ block.data.read block.dtAddr.toNat = none) ∧
    past.cfg.payloadBytes ≤ past.plAddr.toNat ∧ past.cfg.dataBytes ≤ past.dtAddr.toNat := by decide

theorem witness_BusWriteWritesTheRegister :
    block.pending = none ∧ ∀ a : RegAddr, a ∈ [0x00, 0x07, 0x0A, 0x0F, 0x19, 0x22, 0x2F, 0x33, 0x3F, 0x44, 0xFF] →
      a ∉ [0x08, 0x09, 0x10, 0x11, 0x12, 0x13, 0x14, 0x15, 0x16, 0x17, 0x18, 0x20, 0x21, 0x30, 0x31, 0x32, 0x40, 0x41,
        0x42, 0x43] := by decide

theorem witness_DroppedIsSetByWritesWhileBusy :
    working.busy = true ∧ block.busy = false ∧
    step { block with dropped := true, inputs := [wr .status 2] } = .next block ∧ block.dropped = false ∧
    ∃ t, step { working with inputs := [.reset] } = .next t ∧ t.dropped = false := by
  refine ⟨rfl, rfl, rfl, rfl, _, rfl, rfl⟩

theorem witness_ReadsWhileBusyAreLiveOrDrawn :
    working.busy = true ∧ ∀ a : RegAddr, a ∈ [0x03, 0x08, 0x0A, 0x41, 0xFF] → a ∉ [0x00, 0x01, 0x02, 0x09] := by
  decide

theorem witness_ReadsHaveNoSideEffect :
    exec (.busRd 0x01) block = .next { block with replies := [0x6d616e20] } ∧ block.busy = false ∧
    exec (.busRd 0x03) { block with replies := [0x6d616e20] } = .next { block with replies := [0, 0x6d616e20] } ∧
    exec (.busRd 0x01) working = .next { working with replies := [0x6d616e20] } := by
  refine ⟨rfl, rfl, rfl, rfl⟩

theorem witness_HostRegistersReadBackWhatWasWritten :
    block.pending = none ∧
    (0x32 : RegAddr) ∈ [0x11, 0x12, 0x13, 0x14, 0x15, 0x16, 0x17, 0x18, 0x20, 0x21, 0x30, 0x31, 0x32, 0x40, 0x42] ∧
    (0x31 : RegAddr) ∉ [0x32, 0x41, 0x43] ∧ exec (.busRd 0x31) block = .next { block with replies := [0] } := by
  refine ⟨rfl, by decide, by decide, rfl⟩

theorem witness_of_the_decoding_clauses :
    (0xFFFFFF00 : Word).toNat % 256 = 0 ∧ (0xFFFFFF01 : Word).toNat % 256 = 0x01 ∧ (0x6102 : Word).toNat % 256 = 0x02 ∧
    (0x6103 : Word).toNat % 256 = 0x03 ∧ (0xFFFFFF10 : Word).toNat % 256 = 0x10 ∧ (0xFE11 : Word).toNat % 256 = 0x11 ∧
    (0x2112 : Word).toNat % 256 = 0x12 ∧ (0x6113 : Word).toNat % 256 = 0x13 ∧ (0xFFFFFF15 : Word).toNat % 256 = 0x15 ∧
    (0xFFFFFF20 : Word).toNat % 256 = 0x20 := by decide

theorem witness_CbClearInvalidatesEveryEntry :
    after State.wstate (exec .cbClear stream) = some .opened := by decide +kernel

theorem witness_CbWriteStoresTheStagedCode :
    (31 < 32 ∧ 32 * (6 : Fin 8).val + 31 < 255) ∧ (30 < 32 ∧ 32 * (7 : Fin 8).val + 30 < 255) ∧
    (0x62 : Symbol) ≠ 0x61 := by decide

theorem witness_CbReadLoadsTheStage :
    (block.codebook.get 0x64).wf ∧ (block.codebook.get 0x64).len = 0 ∧
    ∃ t u, exec (.cbWrite 0x64) { block with cbLen := 2, cbCode := Vector.replicate 8 3 } = .next t ∧
      exec (.cbRead 0x64) t = .next u :=
  ⟨cb1_wf _, by decide +kernel, _, _, rfl, rfl⟩

theorem witness_OnlyClearAndWriteChangeTheCodebook :
    after (fun t => decide (t.codebook.get 0x61 ≠ stream.codebook.get 0x61)) (exec .cbClear stream) = some true ∧
    after (fun t => decide (t.codebook.get 0x61 ≠ stream.codebook.get 0x61)) (exec (.cbWrite 0x61) stream) =
      some true := by decide +kernel

theorem witness_AppendBitWritesThrough :
    small.cfg.Legal ∧ small.wBitcnt.toNat < small.cfg.payloadBits ∧
    (small.payload.read (small.wBitcnt.toNat / 8)).isSome ∧ small.wBitcnt.toNat % 8 ≠ 0 ∧
    small.payload.read (small.wBitcnt.toNat / 8) = some 0 ∧
    stream.cfg.Legal ∧ stream.wBitcnt.toNat < stream.cfg.payloadBits ∧ stream.wBitcnt.toNat % 8 = 0 := by decide

theorem witness_PutbitAppendsOneBit :
    block.wstate ≠ .opened ∧
    ({ small with wBitcnt := 16 }.wstate = .opened ∧ 8 * small.cfg.payloadBytes < 16 + 1) ∧
    small.Inv ∧ small.wstate = .opened ∧ small.wBitcnt.toNat < 8 * small.cfg.payloadBytes :=
  ⟨by decide, by decide, small_inv, by decide, by decide⟩

theorem witness_PutbitsAppendsTheLowBits :
    block.wstate ≠ .opened ∧ stream.wstate = .opened ∧ (0 : BitVec 8).toNat = 0 ∧ 33 ≤ (33 : BitVec 8).toNat ∧
    (small.wstate = .opened ∧ 1 ≤ (2 : BitVec 8).toNat ∧ (2 : BitVec 8).toNat ≤ 32 ∧
      8 * small.cfg.payloadBytes < small.wBitcnt.toNat + (2 : BitVec 8).toNat) ∧
    (small.Inv ∧ 1 ≤ (1 : BitVec 8).toNat ∧
      small.wBitcnt.toNat + (1 : BitVec 8).toNat ≤ 8 * small.cfg.payloadBytes) ∧
    stream.Inv ∧ (32 : BitVec 8).toNat ≤ 32 ∧ stream.wBitcnt.toNat + (32 : BitVec 8).toNat ≤ 8 * stream.cfg.payloadBytes :=
  ⟨by decide, by decide, by decide, by decide, by decide, ⟨small_inv, by decide, by decide⟩, stream_inv, by decide,
    by decide⟩

theorem witness_PutsymAppendsTheCode :
    block.wstate ≠ .opened ∧ (stream.wstate = .opened ∧ (stream.codebook.get 0x64).len = 0) ∧
    (small.wstate = .opened ∧ (small.codebook.get 0x61).len ≠ 0 ∧
      8 * small.cfg.payloadBytes < small.wBitcnt.toNat + (small.codebook.get 0x61).len.toNat) ∧
    small.Inv ∧ (small.codebook.get 0x62).len ≠ 0 ∧
    small.wBitcnt.toNat + (small.codebook.get 0x62).len.toNat ≤ 8 * small.cfg.payloadBytes :=
  ⟨by decide, by decide +kernel, by decide +kernel, small_inv, by decide +kernel, by decide +kernel⟩

theorem loaded_holds : loaded.holdsData 0 [0x61, 0x62, 0x63] := by
  unfold State.holdsData
  decide +kernel

theorem uncoded_holds : uncoded.holdsData 0 ([0x61, 0x62] ++ [0x78]) := by
  unfold State.holdsData
  decide +kernel

theorem witness_EncodePacksTheDataRam :
    loaded.Inv ∧ loaded.wstate = .opened ∧ [0x61, 0x62, 0x63].length = loaded.wDatalen.toNat ∧
    loaded.wDatalen.toNat ≤ loaded.cfg.dataBytes ∧ loaded.holdsData 0 [0x61, 0x62, 0x63] ∧
    (∀ a ∈ [0x61, 0x62, 0x63], (loaded.codebook.get a).len ≠ 0) ∧
    loaded.wBitcnt.toNat + (loaded.codebook.stream [0x61, 0x62, 0x63]).length ≤ 8 * loaded.cfg.payloadBytes :=
  ⟨loaded_inv, by decide, by decide, by decide, loaded_holds, by decide +kernel, by decide +kernel⟩

theorem witness_EncodeStopsAtTheFailingByte :
    block.wstate ≠ .opened ∧ (stream.wstate = .opened ∧ { stream with wDatalen := 17 }.wDatalen.toNat > 16) ∧
    uncoded.Inv ∧ uncoded.wstate = .opened ∧ uncoded.wDatalen.toNat ≤ uncoded.cfg.dataBytes ∧
    [0x61, 0x62].length < uncoded.wDatalen.toNat ∧ uncoded.holdsData 0 ([0x61, 0x62] ++ [0x78]) ∧
    (∀ a ∈ [0x61, 0x62], (uncoded.codebook.get a).len ≠ 0) ∧
    uncoded.wBitcnt.toNat + (uncoded.codebook.stream [0x61, 0x62]).length ≤ 8 * uncoded.cfg.payloadBytes ∧
    (uncoded.codebook.get 0x78).len = 0 :=
  ⟨by decide, by decide, uncoded_inv, by decide, by decide, by decide, uncoded_holds, by decide +kernel,
    by decide +kernel, by decide +kernel⟩

/-- The other clause of `EncodeStopsAtTheFailingByte`: the code of the first byte does not fit. -/
theorem witness_EncodeStopsAtTheFailingByte_full :
    let s : State := { small with data := [(0, 0x61)], wDatalen := 1 }
    s.Inv ∧ s.wstate = .opened ∧ s.wDatalen.toNat ≤ s.cfg.dataBytes ∧ ([] : List Symbol).length < s.wDatalen.toNat ∧
    s.holdsData 0 ([] ++ [0x61]) ∧ s.wBitcnt.toNat + (s.codebook.stream []).length ≤ 8 * s.cfg.payloadBytes ∧
    (s.codebook.get 0x61).len ≠ 0 ∧
    8 * s.cfg.payloadBytes < s.wBitcnt.toNat + (s.codebook.stream ([] ++ [0x61])).length := by
  refine ⟨inv_of cb1_wf (by decide), by decide, by decide, by decide, ?_, by decide, by decide +kernel,
    by decide +kernel⟩
  unfold State.holdsData
  decide +kernel

theorem witness_WFinalReportsThePadding : block.wstate ≠ .opened ∧ stream.wstate = .opened := by decide

theorem witness_WriterCommandsFrame :
    (∃ t, exec .wFinal stream = .next t ∧ t.wstate ≠ stream.wstate) ∧
    (∃ t, exec (.wPutbit true) block = .next t ∧ t.err ≠ .ok) ∧
    small.Inv ∧ ∃ t, exec (.wPutbit true) small = .next t ∧ 0 < small.wBitcnt.toNat / 8 ∧ t.wBitcnt.toNat ≤ 8 * 2 :=
  ⟨⟨_, rfl, by decide⟩, ⟨_, rfl, by decide⟩, small_inv, _, rfl, by decide, by decide⟩

theorem witness_UnwrittenTailBitsStayZero :
    small.Inv ∧ small.ZeroTail ∧ ∃ t, exec (.wPutbit true) small = .next t := by
  refine ⟨small_inv, fun _ q h1 h2 => ?_, _, rfl⟩
  have h3 : 15 ≤ q := h1
  have h4 : q / 8 = 1 := h2
  obtain rfl : q = 15 := by omega
  rfl

/-- W_PUTBIT 1, a write of W_BITSVAL, and W_PUTBITS 2, after W_INIT. -/
theorem witness_PackedStreamIsTheConcatenation :
    block.Inv ∧ exec .wInit block = .next stream ∧
    (∀ i ∈ [Instr.wPutbit true, .busWr 0x20 2, .wPutbits 2], i ≠ .wInit ∧ ∀ d, i ≠ .busWr 0x41 d) ∧
    ∃ bits t, Packs [.wPutbit true, .busWr 0x20 2, .wPutbits 2] stream bits t :=
  ⟨block_inv, rfl, by simp, _, _, _, _, rfl, rfl, rfl, _, _, rfl, rfl, rfl, _, _, rfl, rfl, rfl, rfl, rfl⟩

theorem witness_RInitStartsTheReader :
    8 * block.cfg.payloadBytes < { block with rNbits := 129 }.rNbits.toNat ∧
    { block with rNbits := 128 }.rNbits.toNat ≤ 8 * block.cfg.payloadBytes := by decide

theorem witness_GetbitReadsOneBit :
    block.cfg.Legal ∧ block.rstate ≠ .active ∧
    ({ session with rBitpos := 12 }.rstate = .active ∧ session.rNbits.toNat ≤ { session with rBitpos := 12 }.rBitpos.toNat) ∧
    (let s : State := { session with rBitpos := 128, rNbits := 129 }
     s.rstate = .active ∧ 8 * s.cfg.payloadBytes ≤ s.rBitpos.toNat) ∧
    (let s : State := { session with rBitpos := 11 }
     s.rstate = .active ∧ s.rBitpos.toNat < s.rNbits.toNat ∧ s.rBitpos.toNat < 8 * s.cfg.payloadBytes ∧
      s.payload.read (s.rBitpos.toNat / 8) = some 0x20) ∧
    (let s : State := { session with rBitpos := 16, rNbits := 17 }
     s.rstate = .active ∧ s.rBitpos.toNat < s.rNbits.toNat ∧ s.rBitpos.toNat < 8 * s.cfg.payloadBytes ∧
      s.payload.read (s.rBitpos.toNat / 8) = none) := by decide

theorem session_holds : session.holdsBits 0 (session.codebook.stream v2) := by
  unfold State.holdsBits
  decide +kernel

theorem witness_DecsymDecodesOneSymbol :
    session.Inv ∧ session.rstate = .active ∧ session.rSymcnt.toNat < session.origLen.toNat ∧
    session.codebook.Decodes 0x61 ∧ session.holdsBits session.rBitpos.toNat (session.codebook.get 0x61).bits ∧
    session.rBitpos.toNat + (session.codebook.get 0x61).len.toNat ≤ session.rNbits.toNat ∧
    session.rBitpos.toNat + (session.codebook.get 0x61).len.toNat ≤ 8 * session.cfg.payloadBytes := by
  refine ⟨session_inv, by decide, by decide, cb1_decodes _ (by decide), ?_, by decide +kernel, by decide +kernel⟩
  unfold State.holdsBits
  decide +kernel

theorem witness_DecodeRecoversTheSymbols :
    session.Inv ∧ session.rstate = .active ∧ session.origLen.toNat ≤ session.cfg.dataBytes ∧
    v2.length = session.origLen.toNat - session.rSymcnt.toNat ∧ (∀ a ∈ v2, session.codebook.Decodes a) ∧
    session.holdsBits session.rBitpos.toNat (session.codebook.stream v2) ∧
    session.rBitpos.toNat + (session.codebook.stream v2).length ≤ session.rNbits.toNat ∧
    session.rBitpos.toNat + (session.codebook.stream v2).length ≤ 8 * session.cfg.payloadBytes :=
  ⟨session_inv, by decide, by decide, by decide, cb1_decodes, session_holds, by decide +kernel, by decide +kernel⟩

theorem witness_DecodeCommandsTurnAway :
    block.rstate ≠ .active ∧
    (let s : State := { session with rSymcnt := 8 }
     s.rstate = .active ∧ s.origLen.toNat ≤ s.rSymcnt.toNat ∧ s.origLen.toNat ≤ s.cfg.dataBytes) ∧
    (let s : State := { session with origLen := 17 }
     s.rstate = .active ∧ s.cfg.dataBytes < s.origLen.toNat) ∧
    (let s : State := { session with codebook := Codebook.cleared }
     s.rstate = .active ∧ s.rSymcnt.toNat < s.origLen.toNat ∧ (∀ a : Symbol, (s.codebook.get a).len = 0) ∧
      s.origLen.toNat ≤ s.cfg.dataBytes) ∧
    (let s : State := { session with rBitpos := 12 }
     s.rstate = .active ∧ s.rSymcnt.toNat < s.origLen.toNat ∧ (∃ a : Symbol, (s.codebook.get a).len ≠ 0) ∧
      s.rNbits.toNat ≤ s.rBitpos.toNat ∧ s.origLen.toNat ≤ s.cfg.dataBytes) :=
  ⟨by decide, by decide, by decide, ⟨rfl, by decide, fun a => by simp, by decide⟩,
    ⟨rfl, by decide, ⟨0x61, by decide +kernel⟩, by decide, by decide⟩⟩

theorem witness_DecsymOffCodeAfterMaxlenBits :
    offCode.Inv ∧ offCode.rstate = .active ∧ offCode.rSymcnt.toNat < offCode.origLen.toNat ∧
    (∃ a : Symbol, (offCode.codebook.get a).len ≠ 0) ∧ [true].length = offCode.codebook.maxlen ∧
    offCode.holdsBits offCode.rBitpos.toNat [true] ∧ offCode.rBitpos.toNat + [true].length ≤ offCode.rNbits.toNat ∧
    offCode.rBitpos.toNat + [true].length ≤ 8 * offCode.cfg.payloadBytes ∧
    ∀ a : Symbol, (offCode.codebook.get a).len ≠ 0 → ¬ (offCode.codebook.get a).bits <+: [true] := by
  refine ⟨offCode_inv, by decide, by decide, ⟨0x61, by decide +kernel⟩, by decide +kernel, ?_, by decide, by decide,
    fun a h => ?_⟩
  · unfold State.holdsBits
    decide +kernel
  · simp only [offCode, Codebook.get_put, Codebook.get_cleared] at h ⊢
    split at h
    · rename_i ha
      rw [if_pos ha]
      decide
    · exact absurd rfl h

/-- RDR-10's state, its R_DECODE clause: a decodes and then no code matches. -/
theorem witness_DecsymOffCodeAfterMaxlenBits_decode :
    let s : State := { offCode with payload := [(0, 0x40)], origLen := 2, rNbits := 8 }
    s.Inv ∧ s.rstate = .active ∧ s.origLen.toNat ≤ s.cfg.dataBytes ∧
    s.rSymcnt.toNat + [(0x61 : Symbol)].length < s.origLen.toNat ∧ (∃ a : Symbol, (s.codebook.get a).len ≠ 0) ∧
    (∀ a ∈ [(0x61 : Symbol)], s.codebook.Decodes a) ∧ [true].length = s.codebook.maxlen ∧
    s.holdsBits s.rBitpos.toNat (s.codebook.stream [0x61] ++ [true]) ∧
    s.rBitpos.toNat + (s.codebook.stream [0x61] ++ [true]).length ≤ s.rNbits.toNat ∧
    s.rBitpos.toNat + (s.codebook.stream [0x61] ++ [true]).length ≤ 8 * s.cfg.payloadBytes ∧
    ∀ a : Symbol, (s.codebook.get a).len ≠ 0 → ¬ (s.codebook.get a).bits <+: [true] := by
  have hget : ∀ b : Symbol, (offCode.codebook.get b).len ≠ 0 → b = 0x61 := fun b h => by
    by_contra hne
    exact h (by rw [offCode, Codebook.get_put_ne _ _ hne, Codebook.get_cleared])
  refine ⟨inv_of offCode_inv.codebookWf (by decide), rfl, by decide, by decide, ⟨0x61, by decide +kernel⟩, fun a ha => ?_,
    by decide +kernel, ?_, by decide +kernel, by decide +kernel, fun a h => ?_⟩
  · rw [List.mem_singleton] at ha
    subst ha
    exact ⟨by decide +kernel, fun b hb _ => by rw [hget b hb]; exact ⟨rfl, Nat.le_refl _⟩⟩
  · unfold State.holdsBits
    decide +kernel
  · rw [hget a h]
    decide +kernel

theorem witness_ReaderFailureIsSticky :
    (∃ t, exec .rInit failed = .next t ∧ t.rstate ≠ failed.rstate) ∧
    (∃ t, exec .rGetbit { session with rBitpos := 12 } = .next t ∧ t.rstate ≠ .active ∧ t.err = .exhausted) ∧
    failed.rstate = .failed :=
  ⟨⟨_, rfl, by decide⟩, ⟨_, rfl, by decide, rfl⟩, rfl⟩

theorem witness_ReaderCommandsFrame : ∃ t, exec .rGetbit session = .next t := ⟨_, rfl⟩

theorem witness_EmitRecordsTheSymbol :
    (let s : State := { session with rSymcnt := 15 }
     s.rSymcnt.toNat + 1 < 2 ^ 64 ∧ s.rSymcnt.toNat < s.cfg.dataBytes) ∧
    (let s : State := { session with rSymcnt := 16 }
     s.rSymcnt.toNat + 1 < 2 ^ 64 ∧ s.cfg.dataBytes ≤ s.rSymcnt.toNat) := by decide

/-- W3's tree. -/
def tree3 : Tree := .full (.internal 8 (.leaf 0x62 4) (.internal 4 (.leaf 0x63 1) (.leaf 0x61 3)))

theorem witness_DecodeStepIsTheTreeWalk :
    (tree3.codes.map Prod.fst).Nodup ∧ (∀ e ∈ tree3.codes, 1 ≤ e.2.length ∧ e.2.length ≤ 255) ∧
    { session with codebook := Codebook.ofCodes tree3.codes }.codebook = Codebook.ofCodes tree3.codes := by
  refine ⟨by decide +kernel, by decide +kernel, rfl⟩

theorem witness_DecodingInvertsEncoding :
    loaded.Inv ∧ loaded.wstate = .opened ∧ loaded.wBitcnt = 0 ∧ loaded.codebook.PrefixFree ∧
    [0x61, 0x62, 0x63].length = loaded.wDatalen.toNat ∧ loaded.wDatalen.toNat ≤ loaded.cfg.dataBytes ∧
    loaded.holdsData 0 [0x61, 0x62, 0x63] ∧ (∀ a ∈ [0x61, 0x62, 0x63], (loaded.codebook.get a).len ≠ 0) ∧
    (loaded.codebook.stream [0x61, 0x62, 0x63]).length ≤ 8 * loaded.cfg.payloadBytes ∧
    Memory.wf [] ∧ (5 : Word).toNat = (loaded.codebook.stream [0x61, 0x62, 0x63]).length ∧
    (8 : Word).toNat = (loaded.codebook.stream [0x61, 0x62, 0x63]).length + (padCount 5).toNat :=
  ⟨loaded_inv, by decide, by decide, cb1_prefixFree, by decide, by decide, loaded_holds, by decide +kernel,
    by decide +kernel, by decide, by decide +kernel, by decide +kernel⟩

theorem witness_TruncationIsDetected :
    let s : State := { session with rNbits := 11 }
    s.Inv ∧ s.rstate = .active ∧ s.codebook.PrefixFree ∧ (∀ a ∈ v2, (s.codebook.get a).len ≠ 0) ∧
    s.origLen.toNat ≤ s.cfg.dataBytes ∧ v2.length = s.origLen.toNat ∧ s.rSymcnt = 0 ∧ s.rBitpos = 0 ∧
    s.holdsBits 0 (s.codebook.stream v2) ∧ s.rNbits.toNat < (s.codebook.stream v2).length ∧
    (s.codebook.stream v2).length ≤ 8 * s.cfg.payloadBytes :=
  ⟨inv_of cb1_wf (by decide), rfl, cb1_prefixFree, cb1_coded, by decide, by decide, rfl, rfl, session_holds,
    by decide +kernel, by decide +kernel⟩

theorem witness_BadStateCommandByCommand :
    block.wstate = .idle ∧ { block with wstate := .final }.wstate = .final ∧ block.rstate = .idle ∧
    failed.rstate = .failed ∧ ∃ t, exec .wInit block = .next t :=
  ⟨rfl, rfl, rfl, rfl, _, rfl⟩

theorem witness_EveryErrorHasItsCause :
    after State.err (exec .wEncode block) = some .badState ∧ after State.err (exec .rGetbit block) = some .badState ∧
    after State.err (exec (.wPutbits 33) stream) = some .badOperand ∧
    after State.err (exec .rInit { block with rNbits := 129 }) = some .badOperand ∧
    after State.err (exec (.wPutsym 0x64) stream) = some .noCode ∧
    after State.err (exec (.wPutbits 2) small) = some .payloadFull ∧
    after State.err (exec .rDecsym { session with rNbits := 1 }) = some .exhausted ∧
    after State.err (exec .rDecsym offCode) = some .offCode ∧
    after State.err (exec .rDecode { session with codebook := Codebook.cleared }) = some .emptyCodebook ∧
    after State.err (exec .rDecsym { session with rSymcnt := 8 }) = some .countReached := by decide +kernel

theorem witness_AppendsThatDoNotFitAppendNothing :
    small.wstate = .opened ∧ 8 * small.cfg.payloadBytes < { small with wBitcnt := 16 }.wBitcnt.toNat + 1 ∧
    (1 ≤ (2 : BitVec 8).toNat ∧ (2 : BitVec 8).toNat ≤ 32 ∧
      8 * small.cfg.payloadBytes < small.wBitcnt.toNat + (2 : BitVec 8).toNat) ∧
    ((small.codebook.get 0x61).len ≠ 0 ∧
      8 * small.cfg.payloadBytes < small.wBitcnt.toNat + (small.codebook.get 0x61).len.toNat) := by decide +kernel

theorem witness_CommandsEndAndLeaveTheHostsRegisters : ∃ t, exec .nop working = .next t := ⟨_, rfl⟩

theorem witness_InvariantHoldsAtReset : Config.Legal { payloadBytes := 1, dataBytes := 2 ^ 28 } := by decide

theorem witness_EveryInstructionKeepsTheInvariant : session.Inv ∧ ∃ t, exec .rGetbit session = .next t :=
  ⟨session_inv, _, rfl⟩

theorem witness_EveryStepKeepsTheInvariant :
    working.Inv ∧ ∃ t, step { working with inputs := [.engine] } = .next t ∧ t.busy = false :=
  ⟨working_inv, _, rfl, rfl⟩

theorem witness_DerivedCodesArePrefixFree :
    (([(0x61, 3), (0x62, 4), (0x63, 1)] : FrequencyTable).map Prod.fst).Nodup := by decide

theorem witness_ContainerParsesBack :
    strictlyAscending containerAb.symbolTable = true ∧ (∀ e ∈ containerAb.symbolTable, e.2 ≠ 0) ∧
    (containerAb.symbolTable.map fun e => e.2.toNat).sum = containerAb.originalLength.toNat ∧
    containerAb.paddingBits.toNat ≤ 7 := by
  refine ⟨by decide, by simp [containerAb], rfl, by decide⟩

theorem reset_inv : State.reset.Inv := by
  refine inv_of (fun a => ?_) (by decide)
  have h : State.reset.codebook.get a = { len := 0, code := 0 } := Codebook.get_cleared a
  rw [h]
  decide

theorem exists_of_map_fst {ε α β : Type} {e : Except ε (α × β)} {a : α} (h : e.map Prod.fst = .ok a) :
    ∃ b, e = .ok (a, b) := by
  cases e with
  | error x => cases h
  | ok p =>
    cases h
    exact ⟨p.2, rfl⟩

theorem witness_FirmwareRoundTrip :
    State.reset.Inv ∧ State.reset.pending = none ∧ ∃ bytes s', fwEncode 1 [0x61, 0x61, 0x61, 0x61, 0x61] State.reset =
      .ok (bytes, s') :=
  ⟨reset_inv, rfl, _, exists_of_map_fst test_encode⟩

/-- W5 on a block that streams: one byte of data RAM. -/
theorem test_encode_streamed :
    (fwEncode 0 [0x61, 0x61, 0x61, 0x61, 0x61] (State.resetWith { payloadBytes := 2, dataBytes := 1 })).map Prod.fst =
    .ok [0x48, 0x55, 0x46, 0x46, 1, 0, 0, 0, 0, 0, 0, 0, 5, 0, 1, 0x61, 0, 0, 0, 5, 3, 0] := by decide +kernel

theorem streamed_inv : (State.resetWith { payloadBytes := 2, dataBytes := 1 }).Inv := by
  refine inv_of (fun a => ?_) (by decide)
  have h : (State.resetWith { payloadBytes := 2, dataBytes := 1 }).codebook.get a = { len := 0, code := 0 } :=
    Codebook.get_cleared a
  rw [h]
  decide

theorem witness_DerivedCodesAreMonotone :
    (([(0x61, 3), (0x62, 4), (0x63, 1)] : FrequencyTable).map Prod.fst).Nodup ∧
    ((0x62, 4) : Symbol × Nat) ∈ ([(0x61, 3), (0x62, 4), (0x63, 1)] : FrequencyTable) ∧
    ((0x63, 1) : Symbol × Nat) ∈ ([(0x61, 3), (0x62, 4), (0x63, 1)] : FrequencyTable) ∧
    (0x62, [false]) ∈ codesOf [(0x61, 3), (0x62, 4), (0x63, 1)] ∧
    (0x63, [true, false]) ∈ codesOf [(0x61, 3), (0x62, 4), (0x63, 1)] := by decide +kernel

theorem witness_DerivedCodesDoNotExpand :
    ((0x61 : Byte) ∈ [0x61, 0x62] ∧ (0x62 : Byte) ∈ [0x61, 0x62] ∧ (0x61 : Byte) ≠ 0x62) ∧
    ([0x61, 0x61] : List Byte) ≠ [] ∧ ∀ b ∈ ([0x61, 0x61] : List Byte), b = 0x61 := by decide

theorem witness_EncodingIsDeterministic :
    State.reset.Inv ∧ (State.resetWith { payloadBytes := 2, dataBytes := 1 }).Inv ∧ State.reset.pending = none ∧
    (State.resetWith { payloadBytes := 2, dataBytes := 1 }).pending = none ∧
    (∃ bytes u, fwEncode 1 [0x61, 0x61, 0x61, 0x61, 0x61] State.reset = .ok (bytes, u)) ∧
    ∃ bytes u, fwEncode 0 [0x61, 0x61, 0x61, 0x61, 0x61] (State.resetWith { payloadBytes := 2, dataBytes := 1 }) =
      .ok (bytes, u) :=
  ⟨reset_inv, streamed_inv, rfl, rfl, ⟨_, exists_of_map_fst test_encode⟩, _, exists_of_map_fst test_encode_streamed⟩

end Sys2Proof.Tests
end

section
/-! PROOFS. The frame of the commands, and DROPPED (R28): what a bus write does while BUSY and while idle, and what each
turn of the host, the engine and reset does to it. -/

namespace Sys2Proof.Machine

/-! ### What the loops of the commands leave unchanged, from every state -/

/-- The loop of R_DECODE changes the reader's registers and DT only, and completes the command (R188). -/
theorem decodeLoop_frame :
    ∀ (left : Nat) {s t : State}, decodeLoop left s = .next t →
      t = { s with rSym := t.rSym, data := t.data, rSymcnt := t.rSymcnt, rBitpos := t.rBitpos, rstate := t.rstate,
                   err := t.err, pending := none }
  | 0, s, t, h => by
    rw [decodeLoop] at h
    cases h; rfl
  | left + 1, s, t, h => by
    have hstep := decodeStep_outcome s
    rw [decodeLoop] at h
    generalize decodeStep s = r at hstep h
    cases r with
    | stopped f => cases h
    | ended u =>
      cases h
      obtain ⟨hu, -⟩ := hstep
      rw [hu]
    | ok a u =>
      obtain ⟨hu, -⟩ := hstep
      have ht := decodeLoop_frame left h
      rw [ht, hu]; rfl

/-- An append of a whole code changes PL and W_BITCNT only, and completes the command (R152, R153). -/
theorem appendAll_frame {w : Nat} {n : Nat} {v : BitVec w} {s t : State} (h : appendAll n v s = .next t) :
    t = { s with payload := t.payload, wBitcnt := t.wBitcnt, err := t.err, pending := none } := by
  unfold appendAll at h
  split at h
  · cases h; rfl
  · split at h
    · cases h
    · rename_i u hu
      cases h
      rw [appendCode_frame v n hu]; rfl

/-- The loop of W_ENCODE changes PL, W_BITCNT and W_DATAPOS only, and completes the command (R160). -/
theorem encodeLoop_frame :
    ∀ (left i : Nat) {s t : State}, encodeLoop left i s = .next t →
      t = { s with payload := t.payload, wBitcnt := t.wBitcnt, wDatapos := t.wDatapos, err := t.err, pending := none }
  | 0, i, s, t, h => by
    rw [encodeLoop] at h
    cases h; rfl
  | left + 1, i, s, t, h => by
    rw [encodeLoop] at h
    dsimp only at h
    split at h
    · cases h
    · split at h
      · cases h; rfl
      · split at h
        · cases h; rfl
        · split at h
          · cases h
          · rename_i u hu
            have ht := encodeLoop_frame left (i + 1) h
            rw [ht, appendCode_frame _ _ hu]

/-! ### The frame of the commands -/

/-- `t` is what a completed command may leave of `s`: BUSY is clear, and of the other fields only ERR, the states and
registers of the writer and the reader, the codebook with its staging registers, and the two RAMs may differ. -/
def State.CommandFrame (s t : State) : Prop :=
  t = { s with pending := none, err := t.err, wstate := t.wstate, rstate := t.rstate, cbLen := t.cbLen,
               cbCode := t.cbCode, wBitcnt := t.wBitcnt, wPad := t.wPad, wDatapos := t.wDatapos,
               rBitpos := t.rBitpos, rSymcnt := t.rSymcnt, rBit := t.rBit, rSym := t.rSym, codebook := t.codebook,
               payload := t.payload, data := t.data }

theorem State.CommandFrame.finish (s : State) (e : ErrCode) : s.CommandFrame (s.finish e) := rfl

theorem State.CommandFrame.dropped {s t : State} (h : s.CommandFrame t) : t.dropped = s.dropped := by rw [h]

theorem appendAll_commandFrame {w : Nat} {n : Nat} {v : BitVec w} {s t : State} (h : appendAll n v s = .next t) :
    s.CommandFrame t := by
  rw [appendAll_frame h]; rfl

theorem execWPutbit_commandFrame {b : Bool} {s t : State} (h : execWPutbit b s = .next t) : s.CommandFrame t := by
  unfold execWPutbit at h
  split at h
  · cases h; exact .finish s _
  · split at h
    · cases h; exact .finish s _
    · split at h
      · cases h
      · rename_i u hu
        cases h
        rw [appendBit_frame hu]; rfl

theorem execWPutbits_commandFrame {n : BitVec 8} {s t : State} (h : execWPutbits n s = .next t) :
    s.CommandFrame t := by
  unfold execWPutbits at h
  split at h
  · cases h; exact .finish s _
  · split at h
    · cases h; exact .finish s _
    · exact appendAll_commandFrame h

theorem execWPutsym_commandFrame {a : Symbol} {s t : State} (h : execWPutsym a s = .next t) : s.CommandFrame t := by
  unfold execWPutsym at h
  dsimp only at h
  split at h
  · cases h; exact .finish s _
  · split at h
    · cases h; exact .finish s _
    · exact appendAll_commandFrame h

theorem execWEncode_commandFrame {s t : State} (h : execWEncode s = .next t) : s.CommandFrame t := by
  unfold execWEncode at h
  split at h
  · cases h; exact .finish s _
  · split at h
    · cases h; exact .finish s _
    · rw [encodeLoop_frame _ _ h]; rfl

theorem execWFinal_commandFrame {s t : State} (h : execWFinal s = .next t) : s.CommandFrame t := by
  unfold execWFinal at h
  split at h <;> cases h <;> rfl

theorem execRInit_commandFrame {s t : State} (h : execRInit s = .next t) : s.CommandFrame t := by
  unfold execRInit at h
  split at h <;> cases h <;> rfl

theorem execRGetbit_commandFrame {s t : State} (h : execRGetbit s = .next t) : s.CommandFrame t := by
  unfold execRGetbit at h
  split at h
  · cases h; exact .finish s _
  · rcases readBit_cases s with ⟨-, he⟩ | ⟨-, -, ⟨-, he⟩ | ⟨b, -, he⟩⟩ <;> rw [he] at h <;> cases h <;> rfl

theorem execRDecsym_commandFrame {s t : State} (h : execRDecsym s = .next t) : s.CommandFrame t := by
  unfold execRDecsym at h
  split at h
  · cases h; exact .finish s _
  · split at h
    · cases h; exact .finish s _
    · have hstep := decodeStep_outcome s
      generalize decodeStep s = r at hstep h
      cases r with
      | stopped f => cases h
      | ended u =>
        cases h
        obtain ⟨hu, -⟩ := hstep
        rw [hu]; rfl
      | ok a u =>
        cases h
        obtain ⟨hu, -⟩ := hstep
        rw [hu]; rfl

theorem execRDecode_commandFrame {s t : State} (h : execRDecode s = .next t) : s.CommandFrame t := by
  unfold execRDecode at h
  split at h
  · cases h; exact .finish s _
  · split at h
    · cases h; exact .finish s _
    · rw [decodeLoop_frame _ h]; rfl

/-- Every instruction but the two bus transactions keeps the frame of the commands. -/
theorem exec_commandFrame {i : Instr} {s t : State} (hrd : ∀ a, i ≠ .busRd a) (hwr : ∀ a d, i ≠ .busWr a d)
    (h : exec i s = .next t) : s.CommandFrame t := by
  cases i with
  | nop => cases h; rfl
  | cbClear => cases h; rfl
  | cbWrite a => cases h; rfl
  | cbRead a => cases h; rfl
  | wInit => cases h; rfl
  | wPutbit b => exact execWPutbit_commandFrame h
  | wPutbits n => exact execWPutbits_commandFrame h
  | wPutsym a => exact execWPutsym_commandFrame h
  | wEncode => exact execWEncode_commandFrame h
  | wFinal => exact execWFinal_commandFrame h
  | rInit => exact execRInit_commandFrame h
  | rGetbit => exact execRGetbit_commandFrame h
  | rDecsym => exact execRDecsym_commandFrame h
  | rDecode => exact execRDecode_commandFrame h
  | busRd a => exact absurd rfl (hrd a)
  | busWr a d => exact absurd rfl (hwr a d)

/-- A command word never decodes to a bus transaction (R92, R95). -/
theorem decodeCmd_ne_bus {w : Word} {i : Instr} (h : decodeCmd w = .ok i) :
    (∀ a, i ≠ .busRd a) ∧ ∀ a d, i ≠ .busWr a d := by
  unfold decodeCmd at h
  split at h <;> cases h <;> exact ⟨nofun, nofun⟩

/-- What the engine performs keeps the frame of the commands, a reserved opcode included (R117). -/
theorem perform_commandFrame {w : Word} {s t : State} (h : perform w s = .next t) : s.CommandFrame t := by
  unfold perform at h
  split at h
  · rename_i i hi
    obtain ⟨hrd, hwr⟩ := decodeCmd_ne_bus hi
    exact exec_commandFrame hrd hwr h
  · cases h; exact .finish s _

/-! ### A bus write (R111) -/

theorem execBusWr_of_busy {s : State} (hb : s.busy = true) (a : RegAddr) (d : Word) :
    execBusWr a d s = .next { s with dropped := true } := by
  rw [execBusWr, if_pos hb]

theorem execBusWr_of_idle {s : State} (hb : s.busy = false) (a : RegAddr) (d : Word) :
    execBusWr a d s = .next ((regOfAddr a).elim s (writeReg d s)) := by
  rw [execBusWr, if_neg (by simp [hb])]
  cases regOfAddr a <;> rfl

/-- STATUS is the only register whose write touches DROPPED (R28). -/
theorem writeReg_dropped_of_ne_status (d : Word) (s : State) {r : Reg} (hr : r ≠ .status) :
    (writeReg d s r).dropped = s.dropped := by
  cases r with
  | status => exact absurd rfl hr
  | plData => rw [writeReg]; split <;> rfl
  | dtData => rw [writeReg]; split <;> rfl
  | _ => rfl

theorem writeReg_status_dropped (d : Word) (s : State) :
    (writeReg d s .status).dropped = (s.dropped && !d.getLsbD 1) := by
  rw [writeReg]
  cases d.getLsbD 1 <;> simp

/-! ### Who clears DROPPED -/

theorem execBusRd_dropped {a : RegAddr} {s t : State} (h : execBusRd a s = .next t) : t.dropped = s.dropped := by
  rcases execBusRd_cases a s with ⟨v, n, he, -⟩ | ⟨-, r, f, -, -, he⟩
  · rw [he] at h; cases h; rfl
  · rw [he] at h; cases h

/-- A bus write that clears DROPPED is a write of STATUS with data[1] = 1 and BUSY = 0. -/
theorem execBusWr_clears_dropped {a : RegAddr} {d : Word} {s t : State} (h : execBusWr a d s = .next t)
    (hs : s.dropped = true) (ht : t.dropped = false) : a = 0x09 ∧ d.getLsbD 1 = true ∧ s.busy = false := by
  cases hb : s.busy with
  | true =>
    rw [execBusWr_of_busy hb] at h
    cases h
    cases ht
  | false =>
    rw [execBusWr_of_idle hb] at h
    cases h
    cases hreg : regOfAddr a with
    | none =>
      rw [hreg, Option.elim_none, hs] at ht
      cases ht
    | some r =>
      rw [hreg, Option.elim_some] at ht
      by_cases hr : r = .status
      · subst hr
        rw [writeReg_status_dropped, hs] at ht
        exact ⟨(regOfAddr_eq_some_iff a .status).1 hreg, by simpa using ht, rfl⟩
      · rw [writeReg_dropped_of_ne_status d s hr, hs] at ht
        cases ht

/-- A transaction that clears DROPPED is such a write (R98). -/
theorem hostTurn_clears_dropped {q : BusReq} {s t : State} (h : hostTurn q s = .next t) (hs : s.dropped = true)
    (ht : t.dropped = false) :
    q = { we := true, address := 0x09, writeData := q.writeData } ∧ q.writeData.getLsbD 1 = true ∧ s.busy = false := by
  obtain ⟨we, a, d⟩ := q
  cases we with
  | false =>
    rw [execBusRd_dropped h, hs] at ht
    cases ht
  | true =>
    obtain ⟨rfl, hd, hb⟩ := execBusWr_clears_dropped h hs ht
    exact ⟨rfl, hd, hb⟩

theorem engineTurn_dropped {s t : State} (h : engineTurn s = .next t) : t.dropped = s.dropped := by
  unfold engineTurn at h
  split at h
  · exact (perform_commandFrame h).dropped
  · cases h; rfl

theorem resetTurn_dropped {s t : State} (h : resetTurn s = .next t) : t.dropped = false := by
  cases h; rfl

theorem step_of_reset {s : State} {rest : List Input} (hi : s.inputs = .reset :: rest) :
    step s = resetTurn { s with inputs := rest } := by
  rw [step, nextTurn, hi]

/-- A step that clears DROPPED is the host's write of STATUS with data[1] = 1 and BUSY = 0, or reset. -/
theorem step_clears_dropped {s t : State} (h : step s = .next t) (hs : s.dropped = true) (ht : t.dropped = false) :
    (∃ d rest, s.inputs = .bus { we := true, address := 0x09, writeData := d } :: rest ∧ d.getLsbD 1 = true ∧
      s.busy = false) ∨ ∃ rest, s.inputs = .reset :: rest := by
  have hne : t.dropped ≠ s.dropped := by rw [hs, ht]; decide
  rw [step, nextTurn] at h
  split at h
  · exact absurd (engineTurn_dropped h) hne
  · rename_i q rest hi
    obtain ⟨hq, hd, hb⟩ := hostTurn_clears_dropped h hs ht
    exact .inl ⟨q.writeData, rest, by rw [hi, ← hq], hd, hb⟩
  · exact absurd (engineTurn_dropped h) hne
  · rename_i rest hi
    exact .inr ⟨rest, hi⟩

/-- Settles O16: the two cases of a bus write, the one turn besides reset that can clear DROPPED, and the reset turn. -/
theorem droppedIsSetByWritesWhileBusy : Obligations.DroppedIsSetByWritesWhileBusy := by
  refine ⟨fun s a d hb => execBusWr_of_busy hb a d, fun s d hb => execBusWr_of_idle hb 0x09 d,
    fun s t h hs ht => step_clears_dropped h hs ht, fun s t rest hi h => ?_⟩
  rw [step_of_reset hi] at h
  exact resetTurn_dropped h

end Sys2Proof.Machine
end

section
/-! PROOFS. The RAM windows PL_DATA and DT_DATA with BUSY = 0 (R66, R115): what a bus transaction on a register comes to,
the three outcomes of a read through a window, and the one byte a write through it stores. -/

namespace Sys2Proof.Machine

/-! ### A transaction on a mapped register (R110, R111) -/

theorem regOfAddr_regAddr (r : Reg) : regOfAddr (regAddr r) = some r := (regOfAddr_eq_some_iff _ r).2 rfl

theorem execBusRd_of_readReg_ok {s : State} {r : Reg} {v : Word} (hb : s.busy = false) (hr : readReg s r = .ok v) :
    execBusRd (regAddr r) s = .next (s.reply v) := by
  simp [execBusRd, hb, regOfAddr_regAddr, hr]

theorem execBusRd_of_readReg_error {s : State} {r : Reg} {f : Fault} (hb : s.busy = false)
    (hr : readReg s r = .error f) : execBusRd (regAddr r) s = .fault f := by
  simp [execBusRd, hb, regOfAddr_regAddr, hr]

theorem execBusWr_regAddr {s : State} (hb : s.busy = false) (r : Reg) (d : Word) :
    execBusWr (regAddr r) d s = .next (writeReg d s r) := by
  rw [execBusWr_of_idle hb, regOfAddr_regAddr, Option.elim_some]

/-! ### A read through a window (R63, R66) -/

section
variable {ram : Ram} {m : Memory} {size : Nat} {a : Word}

theorem windowRead_of_read_eq_some {v : Byte} (ha : a.toNat < size) (hv : m.read a.toNat = some v) :
    windowRead ram m size a = .ok (v.setWidth 32) := by
  rw [windowRead, if_pos ha, hv]

theorem windowRead_of_read_eq_none (ha : a.toNat < size) (hv : m.read a.toNat = none) :
    windowRead ram m size a = .error (.unwritten ram a.toNat) := by
  rw [windowRead, if_pos ha, hv]

theorem windowRead_of_le (ha : size ≤ a.toNat) : windowRead ram m size a = .ok 0 := by
  rw [windowRead, if_neg (Nat.not_lt.2 ha)]

end

/-! ### A write through a window (R66, R115) -/

theorem writeReg_plData_of_lt {s : State} (d : Word) (ha : s.plAddr.toNat < s.cfg.payloadBytes) :
    writeReg d s .plData = s.writePayload s.plAddr.toNat (d.extractLsb' 0 8) := by
  rw [writeReg, if_pos ha]

theorem writeReg_plData_of_le {s : State} (d : Word) (ha : s.cfg.payloadBytes ≤ s.plAddr.toNat) :
    writeReg d s .plData = s := by
  rw [writeReg, if_neg (Nat.not_lt.2 ha)]

theorem writeReg_dtData_of_lt {s : State} (d : Word) (ha : s.dtAddr.toNat < s.cfg.dataBytes) :
    writeReg d s .dtData = s.writeData s.dtAddr.toNat (d.extractLsb' 0 8) := by
  rw [writeReg, if_pos ha]

theorem writeReg_dtData_of_le {s : State} (d : Word) (ha : s.cfg.dataBytes ≤ s.dtAddr.toNat) :
    writeReg d s .dtData = s := by
  rw [writeReg, if_neg (Nat.not_lt.2 ha)]

/-- The byte data[7:0] of a register word. -/
theorem extractLsb'_zero_eight (d : Word) : d.extractLsb' 0 8 = BitVec.ofNat 8 d.toNat := rfl

/-- Settles O14: each window's reads are the three outcomes of `windowRead`, and its write in range is one write of its
RAM. -/
theorem ramWindowsReadAndWriteOneByte : Obligations.RamWindowsReadAndWriteOneByte := by
  intro s hp
  have hb : s.busy = false := (State.busy_eq_false_iff s).2 hp
  have hpl (d : Word) : exec (.busWr 0x41 d) s = .next (writeReg d s .plData) := execBusWr_regAddr hb .plData d
  have hdt (d : Word) : exec (.busWr 0x43 d) s = .next (writeReg d s .dtData) := execBusWr_regAddr hb .dtData d
  refine ⟨fun v ha hv => ?_, fun ha hv => ?_, fun ha => ?_, fun v ha hv => ?_, fun ha hv => ?_, fun ha => ?_,
    fun d ha => ?_, fun d ha => ?_, fun d ha => ?_, fun d ha => ?_⟩
  · exact execBusRd_of_readReg_ok (r := .plData) hb (windowRead_of_read_eq_some ha hv)
  · exact execBusRd_of_readReg_error (r := .plData) hb (windowRead_of_read_eq_none ha hv)
  · exact execBusRd_of_readReg_ok (r := .plData) hb (windowRead_of_le ha)
  · exact execBusRd_of_readReg_ok (r := .dtData) hb (windowRead_of_read_eq_some ha hv)
  · exact execBusRd_of_readReg_error (r := .dtData) hb (windowRead_of_read_eq_none ha hv)
  · exact execBusRd_of_readReg_ok (r := .dtData) hb (windowRead_of_le ha)
  · rw [hpl, writeReg_plData_of_lt d ha, extractLsb'_zero_eight]
    exact ⟨_, rfl, rfl, Memory.read_write_self .., fun _ hne => Memory.read_write_ne _ _ hne⟩
  · rw [hpl, writeReg_plData_of_le d ha]
  · rw [hdt, writeReg_dtData_of_lt d ha, extractLsb'_zero_eight]
    exact ⟨_, rfl, rfl, Memory.read_write_self .., fun _ hne => Memory.read_write_ne _ _ hne⟩
  · rw [hdt, writeReg_dtData_of_le d ha]

end Sys2Proof.Machine
end

section
/-! PROOFS. The decode function by the number CMDW[7:0]: the opcode a command word carries, its argument as a number, and
the words whose opcode the map does not hold (R93-R95). -/

namespace Sys2Proof

theorem cmdOpc_of_toNat_mod {w : Word} {k : Nat} (h : w.toNat % 256 = k) : cmdOpc w = BitVec.ofNat 8 k :=
  BitVec.eq_of_toNat_eq (by rw [cmdOpc_toNat, BitVec.toNat_ofNat, ← h, Nat.mod_mod])

/-- The argument `arg[0]` of W_PUTBIT is CMDW[8] (R91). -/
theorem cmdArg_getLsbD_zero (w : Word) : (cmdArg w).getLsbD 0 = w.toNat.testBit 8 := by
  rw [cmdArg, BitVec.getLsbD_extractLsb']
  rfl

/-- The opcodes of the map of R92. -/
def mappedOpcodes : List Nat :=
  [0x00, 0x01, 0x02, 0x03, 0x10, 0x11, 0x12, 0x13, 0x14, 0x15, 0x20, 0x21, 0x22, 0x23]

/-- The last line of R95: in each other line of the match the opcode is one of the map. -/
theorem decodeCmd_of_not_mem_mappedOpcodes {w : Word} (h : w.toNat % 256 ∉ mappedOpcodes) :
    decodeCmd w = .error (.illegal (cmdOpc w)) := by
  rw [← cmdOpc_toNat] at h
  unfold decodeCmd
  split
  case h_15 => rfl
  all_goals
    rename_i hopc
    exact absurd (by rw [hopc]; decide) h

/-- Settles O2: with the opcode rewritten to its number, a line of the map is the branch of the match it stands for;
every other opcode is in none. -/
theorem decodeFunctionOfTheOpcodeMap : Obligations.DecodeFunctionOfTheOpcodeMap := by
  intro w
  dsimp only
  rw [← cmdArg_eq, ← cmdArg_getLsbD_zero]
  refine ⟨?_, ?_, ?_, ?_, ?_, ?_, ?_, ?_, ?_, ?_, ?_, ?_, ?_, ?_, fun h => ?unmapped⟩
  case unmapped => rw [decodeCmd_of_not_mem_mappedOpcodes h, cmdOpc_of_toNat_mod rfl]
  all_goals
    intro h
    rw [decodeCmd, cmdOpc_of_toNat_mod h]
    rfl

end Sys2Proof
end

section
/-! PROOFS. BUS_WR to an idle block (R111-R114): the words a write can change, each write's next state where the model
writes it in another form, and the words a write leaves alone (R23). -/

namespace Sys2Proof.Machine

/-- The addresses a write of which can change the block (R22, R111): CMD, STATUS, the host's registers, the windows. -/
def writableAddrs : List RegAddr :=
  [0x08, 0x09, 0x10, 0x11, 0x12, 0x13, 0x14, 0x15, 0x16, 0x17, 0x18, 0x20, 0x21, 0x30, 0x31, 0x32, 0x40, 0x41,
    0x42, 0x43]

theorem regAddr_cbCode (k : Fin 8) : regAddr (.cbCode k) = BitVec.ofNat 8 (0x11 + k.val) :=
  (BitVec.ofNat_add 0x11 k.val).symm

theorem regAddr_cbCode_mem_writableAddrs : ∀ k : Fin 8, regAddr (.cbCode k) ∈ writableAddrs := by decide

/-- A write to a read-only register is ignored (R23). -/
theorem writeReg_of_not_mem_writableAddrs (d : Word) (s : State) {r : Reg} (hr : regAddr r ∉ writableAddrs) :
    writeReg d s r = s := by
  cases r with
  | name0 | name1 | version | wBitcnt | wPad | wDatapos | rBitpos | rSymcntLo | rSymcntHi | rBit | rSym => rfl
  | cbCode k => exact absurd (regAddr_cbCode_mem_writableAddrs k) hr
  | _ => exact absurd (by decide) hr

/-- A write to a read-only or an unmapped word changes nothing (R23). -/
theorem execBusWr_of_not_mem_writableAddrs {a : RegAddr} {s : State} (hb : s.busy = false) (d : Word)
    (ha : a ∉ writableAddrs) : execBusWr a d s = .next s := by
  rw [execBusWr_of_idle hb]
  cases hreg : regOfAddr a with
  | none => rfl
  | some r =>
    rw [(regOfAddr_eq_some_iff a r).1 hreg] at ha
    rw [Option.elim_some, writeReg_of_not_mem_writableAddrs d s ha]

/-- A write of STATUS clears DROPPED when data[1] = 1, and writes nothing else (R114). -/
theorem writeReg_status (d : Word) (s : State) :
    writeReg d s .status = { s with dropped := s.dropped && !d.getLsbD 1 } := by
  rw [writeReg]
  cases d.getLsbD 1 <;> simp

/-- Two register words side by side, as a number. -/
theorem append_eq_ofNat (hi lo : Word) : hi ++ lo = BitVec.ofNat 64 (hi.toNat * 2 ^ 32 + lo.toNat) := by
  apply BitVec.eq_of_toNat_eq
  rw [BitVec.toNat_append, ← Nat.shiftLeft_add_eq_or_of_lt lo.isLt, Nat.shiftLeft_eq, BitVec.toNat_ofNat,
    Nat.mod_eq_of_lt (by omega)]

theorem writeReg_origLenLo (d : Word) (s : State) :
    writeReg d s .origLenLo =
      { s with origLen := BitVec.ofNat 64 (s.origLen.toNat / 2 ^ 32 * 2 ^ 32 + d.toNat) } := by
  have hhi : (s.origLen.extractLsb' 32 32).toNat = s.origLen.toNat / 2 ^ 32 := by
    rw [BitVec.extractLsb'_toNat, Nat.shiftRight_eq_div_pow, Nat.mod_eq_of_lt (by omega)]
  rw [writeReg, append_eq_ofNat, hhi]

theorem writeReg_origLenHi (d : Word) (s : State) :
    writeReg d s .origLenHi =
      { s with origLen := BitVec.ofNat 64 (d.toNat * 2 ^ 32 + s.origLen.toNat % 2 ^ 32) } := by
  have hlo : (s.origLen.extractLsb' 0 32).toNat = s.origLen.toNat % 2 ^ 32 := BitVec.extractLsb'_toNat ..
  rw [writeReg, append_eq_ofNat, hlo]

/-- Settles O15: at a register's address the write is `writeReg`, whose equation is the clause; every other address is
read-only or unmapped. -/
theorem busWriteWritesTheRegister : Obligations.BusWriteWritesTheRegister := by
  intro s d hp
  have hb : s.busy = false := (State.busy_eq_false_iff s).2 hp
  have hwr (r : Reg) : exec (.busWr (regAddr r) d) s = .next (writeReg d s r) := execBusWr_regAddr hb r d
  refine ⟨hwr .cmd, ?status, hwr .cbLen, fun k => ?cbCode, hwr .wBitsval, hwr .wDatalen, hwr .rNbits, ?origLenLo,
    ?origLenHi, hwr .plAddr, hwr .dtAddr, fun a ha => execBusWr_of_not_mem_writableAddrs hb d ha⟩
  case status => exact (hwr .status).trans (congrArg _ (writeReg_status d s))
  case cbCode => rw [← regAddr_cbCode]; exact hwr (.cbCode k)
  case origLenLo => exact (hwr .origLenLo).trans (congrArg _ (writeReg_origLenLo d s))
  case origLenHi => exact (hwr .origLenHi).trans (congrArg _ (writeReg_origLenHi d s))

end Sys2Proof.Machine
end

section
/-! PROOFS. CB_CLEAR (R131): the cleared codebook is empty, and what a decode step and W_PUTSYM come to where no symbol has
a code. -/

namespace Sys2Proof.Machine

@[simp] theorem Codebook.isEmpty_cleared : Codebook.cleared.isEmpty = true :=
  (Codebook.isEmpty_iff _).2 fun a => by rw [Codebook.get_cleared]

@[simp] theorem Codebook.maxlen_cleared : Codebook.cleared.maxlen = 0 :=
  Nat.le_zero.1 ((Codebook.maxlen_le_iff _ _).2 fun a => by rw [Codebook.get_cleared]; decide)

/-- The decode step of an empty codebook fails before it reads a bit (R183). -/
theorem decodeStep_of_isEmpty {s : State} (h : s.codebook.isEmpty = true) :
    decodeStep s = .ended (s.failReader .emptyCodebook) := by
  rw [decodeStep, if_pos h]

/-- W_PUTSYM of a symbol without a code, with the writer OPEN (R158). -/
theorem execWPutsym_of_len_eq_zero {s : State} {a : Symbol} (hw : s.wstate = .opened)
    (ha : (s.codebook.get a).len = 0) : execWPutsym a s = .next (s.finish .noCode) := by
  simp [execWPutsym, hw, ha]

/-- Settles O21: the codebook CB_CLEAR leaves is `Codebook.cleared`, which is empty and gives no symbol a code. -/
theorem cbClearInvalidatesEveryEntry : Obligations.CbClearInvalidatesEveryEntry := by
  refine ⟨fun w => ?decodes, fun s => ⟨_, rfl, rfl, Codebook.get_cleared, Codebook.isEmpty_cleared,
    Codebook.maxlen_cleared, ?decodeStep, fun a hw => ?putsym⟩⟩
  case decodes =>
    obtain ⟨-, h, -⟩ := decodeFunctionOfTheOpcodeMap w
    exact h
  case decodeStep => exact decodeStep_of_isEmpty Codebook.isEmpty_cleared
  case putsym => exact execWPutsym_of_len_eq_zero hw (congrArg CbEntry.len (Codebook.get_cleared a))

end Sys2Proof.Machine
end

section
/-! PROOFS. CB_READ (R133): the bits of the stage, of the entry CB_WRITE stores from it, and of the words CB_READ loads from
an entry. -/

namespace Sys2Proof.Machine

/-- `STAGE[32k+31:32k] = CB_CODEk` (R33). -/
theorem stage_extractLsb' (codes : Vector Word 8) (k : Fin 8) :
    (stage codes).extractLsb' (32 * k.val) 32 = codes[k] := by
  -- the width of `stage` as a sum, so that the laws of append apply
  change BitVec.extractLsb' (n := 32 + 32 + 32 + 32 + 32 + 32 + 32 + 32) _ _ (codes[7] ++ codes[6] ++ codes[5] ++
    codes[4] ++ codes[3] ++ codes[2] ++ codes[1] ++ codes[0]) = _
  fin_cases k
  all_goals
    simp (disch := decide) only [BitVec.extractLsb'_append_eq_of_le, BitVec.extractLsb'_append_eq_of_add_le]
    exact BitVec.extractLsb'_eq_self

theorem stage_getLsbD (codes : Vector Word 8) (k : Fin 8) {j : Nat} (hj : j < 32) :
    (stage codes).getLsbD (32 * k.val + j) = codes[k].getLsbD j := by
  rw [← stage_extractLsb' codes k, BitVec.getLsbD_extractLsb', decide_eq_true hj, Bool.true_and]

/-- `CB_CODE(k) <- V[32k+31:32k]` (R133). -/
theorem unstage_getLsbD (v : BitVec 256) (k : Fin 8) {j : Nat} (hj : j < 32) :
    (unstage v)[k].getLsbD j = v.getLsbD (32 * k.val + j) := by
  simp [unstage, hj]

theorem entryOfStage_code_getLsbD (len : BitVec 8) (v : BitVec 256) (i : Nat) :
    (entryOfStage len v).code.getLsbD i = (decide (i < len.toNat) && v.getLsbD i) := by
  rw [BitVec.getLsbD, entryOfStage_code_toNat, Nat.testBit_mod_two_pow, BitVec.getLsbD]

/-- An entry, zero-extended to the eight staging words (R133). -/
theorem unstage_setWidth_getLsbD (v : BitVec 255) (k : Fin 8) {j : Nat} (hj : j < 32) :
    (unstage (v.setWidth 256))[k].getLsbD j = v.getLsbD (32 * k.val + j) := by
  rw [unstage_getLsbD _ _ hj, BitVec.getLsbD_setWidth, decide_eq_true (by omega), Bool.true_and]

/-- An invalid entry that holds the invariant has code 0 (R47). -/
theorem CbEntry.wf.code_eq_zero {e : CbEntry} (he : e.wf) (hl : e.len = 0) : e.code = 0 := by
  have hlt : e.code.toNat < 2 ^ e.len.toNat := he
  rw [hl] at hlt
  exact BitVec.eq_of_toNat_eq (Nat.lt_one_iff.1 hlt)

@[simp] theorem unstage_zero (k : Fin 8) : (unstage 0)[k] = 0 := by
  simp [unstage]

/-- Settles O23: the bits of the words CB_READ loads are those of the entry, and the entry CB_WRITE stores has the bits of
the stage below its length. -/
theorem cbReadLoadsTheStage : Obligations.CbReadLoadsTheStage := by
  refine ⟨fun w => ?decodes, fun s a => ⟨_, rfl, rfl, fun k j hj => unstage_setWidth_getLsbD _ k hj,
    fun hwf hl => ⟨hl, fun k => ?invalid⟩, ?topBit⟩, fun s t u a ht hu => ?readAfterWrite⟩
  case decodes =>
    obtain ⟨-, -, -, h, -⟩ := decodeFunctionOfTheOpcodeMap w
    exact h
  case invalid =>
    show (unstage ((s.codebook.get a).code.setWidth 256))[k] = 0
    rw [hwf.code_eq_zero hl]
    exact unstage_zero k
  case topBit =>
    exact (unstage_setWidth_getLsbD _ 7 (by decide)).trans (BitVec.getLsbD_of_ge _ _ (by decide))
  case readAfterWrite =>
    cases ht
    cases hu
    simp only [State.finish_cbLen, State.finish_cbCode, State.finish_codebook, Codebook.get_put_self]
    refine ⟨rfl, fun k j hj => ?_⟩
    rw [unstage_setWidth_getLsbD _ k hj, entryOfStage_code_getLsbD, stage_getLsbD _ k hj]

end Sys2Proof.Machine
end

section
/-! PROOFS. The writer's W_INIT, W_PUTBIT, W_PUTBITS and W_FINAL (R150, R154, R156, R162): the two outcomes of a whole
append, and what each command comes to once the writer is OPEN. -/

namespace Sys2Proof.Machine

/-! ### W_INIT (R150) -/

/-- Settles O25: the next state of W_INIT reads no field it writes, WSTATE included. -/
theorem wInitOpensTheStream : Obligations.WInitOpensTheStream := by
  refine ⟨fun w => ?decodes, fun s => rfl⟩
  obtain ⟨-, -, -, -, h, -⟩ := decodeFunctionOfTheOpcodeMap w
  exact h

/-! ### A whole append (R152, R153) -/

theorem appendAll_of_lt {w n : Nat} (v : BitVec w) {s : State}
    (h : 8 * s.cfg.payloadBytes < s.wBitcnt.toNat + n) : appendAll n v s = .next (s.finish .payloadFull) := by
  rw [appendAll, if_pos (by simpa [State.fits] using h)]

theorem appendAll_of_le {w n : Nat} (v : BitVec w) {s : State} (hs : s.Inv)
    (h : s.wBitcnt.toNat + n ≤ 8 * s.cfg.payloadBytes) :
    ∃ t, appendAll n v s = .next t ∧
      t = { s with payload := t.payload, wBitcnt := t.wBitcnt, err := .ok, pending := none } ∧
      s.Appended t (msbFirst v n) := by
  rcases appendAll_outcome n v hs.cfgLegal hs.partialByte with ⟨hlt, -⟩ | ⟨-, t, he, ht, happ, -⟩
  · exact absurd h (Nat.not_le.2 hlt)
  · exact ⟨t, he, ht, happ⟩

/-! ### W_PUTBIT (R154) -/

theorem msbFirst_ofBool (b : Bool) : msbFirst (BitVec.ofBool b) 1 = [b] := by
  cases b <;> rfl

theorem execWPutbit_of_ne_opened (b : Bool) {s : State} (hw : s.wstate ≠ .opened) :
    execWPutbit b s = .next (s.finish .badState) := if_pos hw

/-- An OPEN writer appends the bit as a code of one bit. -/
theorem execWPutbit_of_opened (b : Bool) {s : State} (hw : s.wstate = .opened) :
    execWPutbit b s = appendAll 1 (BitVec.ofBool b) s := by
  rw [appendAll_one]
  exact if_neg (not_not.2 hw)

/-- Settles O27: an OPEN writer appends a code of one bit, so the two outcomes are those of a whole append. -/
theorem putbitAppendsOneBit : Obligations.PutbitAppendsOneBit := by
  refine ⟨fun w => ?decodes, fun s b => ⟨fun hw => execWPutbit_of_ne_opened b hw, fun hw hfull => ?full,
    fun hs hw hfits => ?appended⟩⟩
  case decodes =>
    obtain ⟨-, -, -, -, -, h, -⟩ := decodeFunctionOfTheOpcodeMap w
    exact h
  case full => exact (execWPutbit_of_opened b hw).trans (appendAll_of_lt _ hfull)
  case appended =>
    obtain ⟨t, he, ht, happ⟩ := appendAll_of_le (n := 1) (BitVec.ofBool b) hs hfits
    rw [msbFirst_ofBool] at happ
    exact ⟨t, (execWPutbit_of_opened b hw).trans he, ht, happ⟩

/-! ### W_PUTBITS (R156) -/

theorem execWPutbits_of_ne_opened (n : BitVec 8) {s : State} (hw : s.wstate ≠ .opened) :
    execWPutbits n s = .next (s.finish .badState) := if_pos hw

theorem execWPutbits_of_bad_count {n : BitVec 8} {s : State} (hw : s.wstate = .opened)
    (hn : n.toNat = 0 ∨ 33 ≤ n.toNat) : execWPutbits n s = .next (s.finish .badOperand) := by
  rw [execWPutbits, if_neg (not_not.2 hw)]
  exact if_pos hn

theorem execWPutbits_of_good_count {n : BitVec 8} {s : State} (hw : s.wstate = .opened) (hpos : 1 ≤ n.toNat)
    (hle : n.toNat ≤ 32) : execWPutbits n s = appendAll n.toNat s.wBitsval s := by
  rw [execWPutbits, if_neg (not_not.2 hw), if_neg (by omega)]

/-- Settles O28: past the checks of WSTATE and of the count, the two outcomes are those of a whole append. -/
theorem putbitsAppendsTheLowBits : Obligations.PutbitsAppendsTheLowBits := by
  refine ⟨fun w => ?decodes, fun s n => ⟨fun hw => execWPutbits_of_ne_opened n hw,
    fun hw hn => execWPutbits_of_bad_count hw hn, fun hw hpos hle hfull => ?full,
    fun hs hw hpos hle hfits => ?appended⟩⟩
  case decodes =>
    obtain ⟨-, -, -, -, -, -, h, -⟩ := decodeFunctionOfTheOpcodeMap w
    exact h
  case full => exact (execWPutbits_of_good_count hw hpos hle).trans (appendAll_of_lt _ hfull)
  case appended =>
    obtain ⟨t, he, ht, happ⟩ := appendAll_of_le s.wBitsval hs hfits
    exact ⟨t, (execWPutbits_of_good_count hw hpos hle).trans he, ht, happ⟩

/-! ### W_FINAL (R162) -/

theorem padCount_toNat (bitcnt : Word) : (padCount bitcnt).toNat = (8 - bitcnt.toNat % 8) % 8 := by
  rw [padCount, BitVec.toNat_ofNat]
  exact Nat.mod_mod _ 8

/-- The padding fills the last byte of the payload. -/
theorem payload_bits_eq_add_padCount (bitcnt : Word) :
    8 * ((bitcnt.toNat + 7) / 8) = bitcnt.toNat + (padCount bitcnt).toNat := by
  rw [padCount_toNat]
  omega

theorem execWFinal_of_ne_opened {s : State} (hw : s.wstate ≠ .opened) :
    execWFinal s = .next (s.finish .badState) := if_pos hw

theorem execWFinal_of_opened {s : State} (hw : s.wstate = .opened) :
    execWFinal s = .next ({ s with wPad := padCount s.wBitcnt, wstate := .final }.finish .ok) :=
  if_neg (not_not.2 hw)

/-- Settles O32: W_PAD is `padCount` of W_BITCNT, which is the distance to the end of the last byte. -/
theorem wFinalReportsThePadding : Obligations.WFinalReportsThePadding := by
  refine ⟨fun w => ?decodes, fun s => ⟨fun hw => execWFinal_of_ne_opened hw,
    fun hw => ⟨_, execWFinal_of_opened hw, rfl, padCount_toNat s.wBitcnt, payload_bits_eq_add_padCount s.wBitcnt⟩⟩⟩
  obtain ⟨-, -, -, -, -, -, -, -, -, h, -⟩ := decodeFunctionOfTheOpcodeMap w
  exact h

end Sys2Proof.Machine
end

section
/-! PROOFS. The reader over a payload of whole codes: Emit (R185), and R_DECODE over a stream with fewer valid bits
declared than its codes have (R190). -/

namespace Sys2Proof.Machine

/-! ### Emit (R185) -/

/-- Settles O44: the clauses of `emit_spec` without those on the canonical form of DT. -/
theorem emitRecordsTheSymbol : Obligations.EmitRecordsTheSymbol := by
  intro s a h
  obtain ⟨hframe, hcnt, hin, hout, hother, -, -⟩ := emit_spec a h
  exact ⟨_, rfl, hframe, hcnt, hin, hout, hother⟩

/-! ### Beginnings of a packed stream (R164) -/

@[simp] theorem Codebook.stream_cons (cb : Codebook) (a : Symbol) (syms : List Symbol) :
    cb.stream (a :: syms) = (cb.get a).bits ++ cb.stream syms := rfl

/-- The first `n` bits of a stream, short of its end, are the codes of some of its symbols and a part of the code of
the next. -/
theorem Codebook.take_stream (cb : Codebook) (syms : List Symbol) {n : Nat} (hn : n < (cb.stream syms).length) :
    ∃ (done : List Symbol) (a : Symbol) (rest : List Symbol) (bs : List Bool), syms = done ++ a :: rest ∧
      bs <+: (cb.get a).bits ∧ bs.length < (cb.get a).bits.length ∧ (cb.stream syms).take n = cb.stream done ++ bs := by
  induction syms generalizing n with
  | nil => exact absurd hn (Nat.not_lt_zero n)
  | cons b syms ih =>
    rw [Codebook.stream_cons] at hn ⊢
    by_cases hb : n < (cb.get b).bits.length
    · exact ⟨[], b, syms, (cb.get b).bits.take n, rfl, List.take_prefix _ _,
        by rw [List.length_take]; omega, List.take_append_of_le_length (Nat.le_of_lt hb)⟩
    · obtain ⟨done, a, rest, bs, rfl, hp, hlt, htake⟩ :=
        ih (n := n - (cb.get b).bits.length) (by rw [List.length_append] at hn; omega)
      refine ⟨b :: done, a, rest, bs, rfl, hp, hlt, ?_⟩
      rw [List.take_append, List.take_of_length_le (Nat.le_of_not_lt hb), htake, Codebook.stream_cons,
        List.append_assoc]

/-! ### The reader at the end of the declared bits (R182, R183, R188) -/

theorem State.holdsBits_take {s : State} {p : Nat} {bits : List Bool} (h : s.holdsBits p bits) (n : Nat) :
    s.holdsBits p (bits.take n) := by
  intro i hi
  rw [List.length_take, Nat.lt_min] at hi
  rw [h i hi.2, List.getElem?_take_of_lt hi.1]

/-- Where no code begins another, the first bits of a code, short of its end, complete none. -/
theorem Codebook.PrefixFree.bits_ne {cb : Codebook} (hcb : cb.PrefixFree) {a b : Symbol} {q : List Bool}
    (hq : q <+: (cb.get a).bits) (hlt : q.length < (cb.get a).bits.length) (hne : q ≠ []) : (cb.get b).bits ≠ q := by
  rintro rfl
  rw [hcb b a ((CbEntry.len_ne_zero_iff _).2 hne) hq] at hlt
  exact Nat.lt_irrefl _ hlt

/-- The decode step inside a code when R_NBITS ends the stream there. -/
theorem decodeStep_truncated {s : State} (hcb : s.codebook.PrefixFree) {a : Symbol} {bs : List Bool}
    (hp : bs <+: (s.codebook.get a).bits) (hlt : bs.length < (s.codebook.get a).bits.length) (hr : s.readable bs)
    (hend : s.rNbits.toNat = s.rBitpos.toNat + bs.length) :
    decodeStep s = .ended ((s.advanced bs.length).failReader .exhausted) := by
  have hmax := s.codebook.len_le_maxlen a
  rw [← CbEntry.length_bits] at hmax
  exact decodeStep_exhausted hr (by omega)
    (fun q hq hne b => hcb.bits_ne (hq.trans hp) (Nat.lt_of_le_of_lt hq.length_le hlt) hne) (.inl hend)

theorem decodeLoop_of_ended {s t : State} (h : decodeStep s = .ended t) (left : Nat) :
    decodeLoop (left + 1) s = .next t := by
  rw [decodeLoop, h]

theorem execRDecode_of_active {s : State} (ha : s.rstate = .active) (hlen : s.origLen.toNat ≤ s.cfg.dataBytes) :
    execRDecode s = decodeLoop (s.origLen.toNat - s.rSymcnt.toNat) s := by
  rw [execRDecode, if_neg (not_not.2 ha), if_neg (Nat.not_lt.2 hlen)]

/-- The loop of R_DECODE over the codes of `done` and the beginning of another code, where R_NBITS ends the stream: the
symbols of `done` are recorded, and the reader fails at R_NBITS. -/
theorem decodeLoop_truncated {s : State} (hcb : s.codebook.PrefixFree) {done : List Symbol} {a : Symbol}
    {bs : List Bool} (hcoded : ∀ b ∈ done, (s.codebook.get b).len ≠ 0) (hp : bs <+: (s.codebook.get a).bits)
    (hlt : bs.length < (s.codebook.get a).bits.length) (hroom : s.rSymcnt.toNat + done.length ≤ s.cfg.dataBytes)
    (hcnt : s.rSymcnt.toNat + done.length < 2 ^ 64) (hr : s.readable (s.codebook.stream done ++ bs))
    (hend : s.rNbits.toNat = s.rBitpos.toNat + (s.codebook.stream done ++ bs).length) (left : Nat) :
    ∃ t, decodeLoop (done.length + (left + 1)) s = .next t ∧
      t = { s with rSym := t.rSym, data := t.data, rSymcnt := t.rSymcnt, rBitpos := t.rBitpos, rstate := .failed,
                   err := .exhausted, pending := none } ∧
      t.rBitpos = s.rNbits ∧ t.rSymcnt.toNat = s.rSymcnt.toNat + done.length ∧ t.holdsData s.rSymcnt.toNat done := by
  obtain ⟨hrdone, hrbs⟩ := State.readable_append hr
  obtain ⟨u, hloop, hframe, hcount, hdata, -⟩ := decodeLoop_advance done (left + 1) s hcnt
    (fun b hb => hcb.decodes (hcoded b hb)) hroom fun _ => hrdone
  have hcodebook : u.codebook = s.codebook := by rw [hframe]
  have hnbits : u.rNbits = s.rNbits := by rw [hframe]
  have hbitpos : u.rBitpos.toNat = s.rBitpos.toNat + (s.codebook.stream done).length := by
    rw [hframe]
    exact rBitpos_add hrdone.2.1
  have huend : u.rNbits.toNat = u.rBitpos.toNat + bs.length := by
    rw [List.length_append] at hend
    rw [hnbits, hbitpos]
    omega
  have hstep : decodeStep u = .ended ((u.advanced bs.length).failReader .exhausted) := by
    rw [← hcodebook] at hcb hp hlt
    exact decodeStep_truncated hcb hp hlt (by rw [hframe]; exact hrbs) huend
  have hstop : (u.advanced bs.length).rBitpos = s.rNbits :=
    BitVec.eq_of_toNat_eq ((rBitpos_add (Nat.le_of_eq huend.symm)).trans (by rw [← huend, hnbits]))
  refine ⟨_, hloop.trans (decodeLoop_of_ended hstep left), by rw [hframe]; rfl, hstop, hcount, hdata⟩

/-- Settles O47: the declared bits are the codes of some of the symbols and a part of the next code, over which
`decodeLoop_truncated` runs. -/
theorem truncationIsDetected : Obligations.TruncationIsDetected := by
  intro s syms _ hactive hcb hcoded hdb hlen hcnt hpos hbits hshort hroom
  obtain ⟨done, a, rest, bs, rfl, hp, hlt, htake⟩ := s.codebook.take_stream syms hshort
  have hnb : (s.codebook.stream done ++ bs).length = s.rNbits.toNat := by
    rw [← htake, List.length_take, Nat.min_eq_left (Nat.le_of_lt hshort)]
  have hcnt0 : s.rSymcnt.toNat = 0 := by rw [hcnt]; rfl
  have hpos0 : s.rBitpos.toNat = 0 := by rw [hpos]; rfl
  have hreadable : s.readable (s.codebook.stream done ++ bs) := by
    refine ⟨?_, by omega, by rw [hnb, Config.payloadBits]; omega⟩
    rw [← htake, hpos0]
    exact State.holdsBits_take hbits _
  have hsize : done.length + (rest.length + 1) = s.origLen.toNat := by simpa using hlen
  have horig := s.origLen.isLt
  obtain ⟨t, hloop, hframe, hstop, hcount, hdata⟩ := decodeLoop_truncated hcb (fun b hb => hcoded b (by simp [hb])) hp hlt
    (by omega) (by omega) hreadable (by omega) rest.length
  rw [hcnt0] at hcount hdata
  rw [Nat.zero_add] at hcount
  refine ⟨t, ?_, by rw [hframe], by rw [hframe], hstop, ?_, ?_, ?_⟩
  · rw [← hloop, hsize]
    exact (execRDecode_of_active hactive hdb).trans (by rw [hcnt0, Nat.sub_zero])
  · rw [hcount, List.length_append, List.length_cons]; omega
  · rw [hcount, List.take_left]
    exact hdata
  · rw [hframe]

end Sys2Proof.Machine
end

section
/-! PROOFS. The decode step against the walk of the tree (R183, R184): the codebook RAM that holds a code table, the codes
below a node, and one induction over the nodes. -/

namespace Sys2Proof.Machine

/-! ### The codebook RAM of a code table (R219) -/

/-- The entry that holds a code of a table. -/
def CbEntry.ofBits (bs : List Bool) : CbEntry :=
  { len := BitVec.ofNat 8 bs.length, code := BitVec.ofNat 255 (codeValue bs) }

theorem CbEntry.bits_ofBits {bs : List Bool} (h : bs.length ≤ 255) : (CbEntry.ofBits bs).bits = bs := by
  have hvalue : codeValue bs < 2 ^ 255 := Nat.lt_of_lt_of_le (codeValue_lt bs) (Nat.pow_le_pow_right (by decide) h)
  have hlen : (BitVec.ofNat 8 bs.length).toNat = bs.length := Nat.mod_eq_of_lt (by omega)
  have hcode : (BitVec.ofNat 255 (codeValue bs)).toNat = codeValue bs := Nat.mod_eq_of_lt hvalue
  rw [← CbEntry.isCode_iff, CbEntry.isCode, CbEntry.ofBits, hlen, hcode, Nat.mod_eq_of_lt (codeValue_lt bs)]
  simp

theorem Codebook.ofCodes_concat (c : CodeTable) (e : Symbol × List Bool) :
    Codebook.ofCodes (c ++ [e]) = (Codebook.ofCodes c).put e.1 (.ofBits e.2) := by
  simp only [Codebook.ofCodes, List.foldl_append, List.foldl_cons, List.foldl_nil, CbEntry.ofBits]

theorem Codebook.get_ofCodes_of_not_mem {c : CodeTable} {a : Symbol} (ha : a ∉ c.map Prod.fst) :
    (Codebook.ofCodes c).get a = { len := 0, code := 0 } := by
  induction c using List.reverseRecOn with
  | nil => exact Codebook.get_cleared a
  | append_singleton c e ih =>
    rw [List.map_append, List.mem_append, not_or] at ha
    obtain ⟨hc, he⟩ := ha
    rw [Codebook.ofCodes_concat, Codebook.get_put_ne _ _ (by simpa using he), ih hc]

theorem Codebook.get_ofCodes_of_mem {c : CodeTable} (hc : (c.map Prod.fst).Nodup) {e : Symbol × List Bool} (he : e ∈ c) :
    (Codebook.ofCodes c).get e.1 = .ofBits e.2 := by
  induction c using List.reverseRecOn with
  | nil => cases he
  | append_singleton c d ih =>
    rw [List.map_append, List.map_singleton, List.nodup_append] at hc
    obtain ⟨hnodup, -, hdisj⟩ := hc
    rw [Codebook.ofCodes_concat]
    rcases List.mem_append.1 he with he | he
    · rw [Codebook.get_put_ne _ _ (hdisj _ (List.mem_map_of_mem he) _ (by simp)), ih hnodup he]
    · rw [List.mem_singleton.1 he, Codebook.get_put_self]

/-- The RAM holds the codes of the table and no other. -/
theorem Codebook.mem_table_iff_bits_ofCodes {c : CodeTable} (hc : (c.map Prod.fst).Nodup)
    (hlen : ∀ e ∈ c, 1 ≤ e.2.length ∧ e.2.length ≤ 255) (a : Symbol) (bs : List Bool) :
    (a, bs) ∈ c ↔ ((Codebook.ofCodes c).get a).bits = bs ∧ bs ≠ [] := by
  constructor
  · intro h
    obtain ⟨hpos, hle⟩ := hlen _ h
    exact ⟨by rw [Codebook.get_ofCodes_of_mem hc h, CbEntry.bits_ofBits hle], List.ne_nil_of_length_pos hpos⟩
  · rintro ⟨hbits, hne⟩
    by_cases ha : a ∈ c.map Prod.fst
    · obtain ⟨e, he, rfl⟩ := List.mem_map.1 ha
      rw [Codebook.get_ofCodes_of_mem hc he, CbEntry.bits_ofBits (hlen e he).2] at hbits
      exact hbits ▸ he
    · rw [Codebook.get_ofCodes_of_not_mem ha] at hbits
      exact absurd hbits.symm hne

/-! ### The codes below a node (R218) -/

/-- The child of an internal node that bit `b` leads to. -/
def Node.child (l r : Node) (b : Bool) : Node := if b then r else l

theorem Node.mem_codes_internal (w : Nat) (l r : Node) (path : List Bool) (e : Symbol × List Bool) :
    e ∈ (Node.internal w l r).codes path ↔ ∃ b, e ∈ (Node.child l r b).codes (path ++ [b]) := by
  rw [Node.codes, List.mem_append, Bool.exists_bool]
  rfl

theorem Node.prefix_of_mem_codes {n : Node} {path : List Bool} {e : Symbol × List Bool} (he : e ∈ n.codes path) :
    path <+: e.2 := by
  induction n generalizing path with
  | leaf a w => rw [List.mem_singleton.1 he]
  | internal w l r ihl ihr =>
    rcases List.mem_append.1 he with he | he
    · exact (List.prefix_append _ _).trans (ihl he)
    · exact (List.prefix_append _ _).trans (ihr he)

theorem Node.exists_mem_codes (n : Node) (path : List Bool) : ∃ e, e ∈ n.codes path := by
  induction n generalizing path with
  | leaf a w => exact ⟨_, List.mem_singleton_self _⟩
  | internal w l r ihl _ =>
    obtain ⟨e, he⟩ := ihl (path ++ [false])
    exact ⟨e, List.mem_append_left _ he⟩

/-- A bit sequence goes on from a path in one way. -/
theorem eq_of_concat_prefix {path bs : List Bool} {b c : Bool} (hb : path ++ [b] <+: bs) (hc : path ++ [c] <+: bs) :
    b = c := by
  have hle := List.prefix_of_prefix_length_le hb hc (by simp)
  simpa using hle

/-- The codes of the RAM that begin with `path` are those below the node at `path`. -/
def Codebook.HoldsBelow (cb : Codebook) (n : Node) (path : List Bool) : Prop :=
  ∀ (a : Symbol) (bs : List Bool), (a, bs) ∈ n.codes path ↔ (cb.get a).bits = bs ∧ bs ≠ [] ∧ path <+: bs

section
variable {cb : Codebook} {w : Nat} {l r : Node} {path : List Bool} (h : cb.HoldsBelow (.internal w l r) path)
include h

theorem Codebook.HoldsBelow.child (b : Bool) : cb.HoldsBelow (Node.child l r b) (path ++ [b]) := by
  intro a bs
  constructor
  · intro hmem
    obtain ⟨hbits, hbs, -⟩ := (h a bs).1 ((Node.mem_codes_internal w l r path _).2 ⟨b, hmem⟩)
    exact ⟨hbits, hbs, Node.prefix_of_mem_codes hmem⟩
  · rintro ⟨hbits, hbs, hpre⟩
    obtain ⟨c, hc⟩ := (Node.mem_codes_internal w l r path _).1
      ((h a bs).2 ⟨hbits, hbs, (List.prefix_append _ _).trans hpre⟩)
    rwa [← eq_of_concat_prefix (Node.prefix_of_mem_codes hc) hpre]

/-- No code ends at an internal node. -/
theorem Codebook.HoldsBelow.bits_ne (hpath : path ≠ []) (a : Symbol) : (cb.get a).bits ≠ path := by
  intro hbits
  obtain ⟨b, hb⟩ := (Node.mem_codes_internal w l r path _).1 ((h a path).2 ⟨hbits, hpath, List.prefix_rfl⟩)
  simpa using (Node.prefix_of_mem_codes hb).length_le

/-- Some code goes on below an internal node. -/
theorem Codebook.HoldsBelow.length_lt_maxlen : path.length < cb.maxlen := by
  obtain ⟨⟨a, bs⟩, he⟩ := l.exists_mem_codes (path ++ [false])
  obtain ⟨hbits, -, -⟩ := (h a bs).1 ((Node.mem_codes_internal w l r path _).2 ⟨false, he⟩)
  have hlong : (path ++ [false]).length ≤ bs.length := (Node.prefix_of_mem_codes he).length_le
  have hmax := cb.len_le_maxlen a
  rw [← CbEntry.length_bits, hbits] at hmax
  rw [List.length_append, List.length_singleton] at hlong
  omega

end

/-- The one code that ends at a leaf is the leaf's. -/
theorem Codebook.HoldsBelow.lookup_leaf {cb : Codebook} {a : Symbol} {w : Nat} {path : List Bool}
    (h : cb.HoldsBelow (.leaf a w) path) : cb.lookup path.length (codeValue path) = some a := by
  obtain ⟨hbits, hpath, -⟩ := (h a path).1 (List.mem_singleton_self _)
  refine (Codebook.lookup_bits_eq_some_iff _ _ _).2 ⟨hbits, fun b hb => ?_⟩
  have hmem := List.mem_singleton.1 ((h b path).2 ⟨hb, hpath, List.prefix_rfl⟩)
  rw [(Prod.mk.inj hmem).1]

/-! ### The walk (R183, R184) -/

/-- The loop of R183 once a bit has been read: a code that matches ends it, and otherwise it goes on. -/
def matchOrGoOn (left k acc : Nat) (s : State) : Prim Symbol :=
  match s.codebook.lookup k acc with
  | some sym => .ok sym s
  | none => decodeBits left k acc s

/-- What is done with the value of a sub-operation, when it has one. -/
def Prim.andThen {α β : Type} : Prim α → (α → State → Prim β) → Prim β
  | .ok a s, f => f a s
  | .ended s, _ => .ended s
  | .stopped e, _ => .stopped e

theorem decodeBits_succ (left : Nat) (path : List Bool) (s : State) :
    decodeBits (left + 1) path.length (codeValue path) s =
      (readBit s).andThen fun b t => matchOrGoOn left (path ++ [b]).length (codeValue (path ++ [b])) t := by
  simp only [codeValue_append, List.length_append, List.length_singleton]
  rw [decodeBits]
  cases readBit s <;> rfl

theorem Node.descend_internal (w : Nat) (l r : Node) (s : State) :
    (Node.internal w l r).descend s = (readBit s).andThen fun b t => (Node.child l r b).descend t := by
  rw [Node.descend]
  cases readBit s with
  | stopped f => rfl
  | ended t => rfl
  | ok b t => cases b <;> rfl

theorem Tree.descend_oneLeaf (a : Symbol) (w : Nat) (s : State) :
    (Tree.oneLeaf a w).descend s =
      (readBit s).andThen fun b t => if b then .ended (t.failReader .offCode) else .ok a t := by
  rw [Tree.descend]
  cases readBit s <;> rfl

theorem codebook_of_readBit_ok {s t : State} {b : Bool} (h : readBit s = .ok b t) : t.codebook = s.codebook := by
  rcases readBit_cases s with ⟨-, he⟩ | ⟨-, -, ⟨-, he⟩ | ⟨c, -, he⟩⟩ <;> rw [he] at h <;> cases h
  rfl

/-- After a bit has been read the codebook is the same, so what is done next may depend on that. -/
theorem readBit_andThen_congr {β : Type} {s : State} {f g : Bool → State → Prim β}
    (h : ∀ b t, t.codebook = s.codebook → f b t = g b t) : (readBit s).andThen f = (readBit s).andThen g := by
  cases hr : readBit s with
  | stopped e => rfl
  | ended t => rfl
  | ok b t => exact h b t (codebook_of_readBit_ok hr)

/-- At an internal node the loop does what the walk does, if it does so at both children. -/
theorem decodeBits_eq_descend {w : Nat} {l r : Node} {path : List Bool} {s : State} {left : Nat}
    (h : s.codebook.HoldsBelow (.internal w l r) path) (hleft : s.codebook.maxlen = path.length + left)
    (hchild : ∀ (b : Bool) (left : Nat) (t : State), t.codebook = s.codebook →
      s.codebook.maxlen = (path ++ [b]).length + left →
      matchOrGoOn left (path ++ [b]).length (codeValue (path ++ [b])) t = (Node.child l r b).descend t) :
    decodeBits left path.length (codeValue path) s = (Node.internal w l r).descend s := by
  have hlt := h.length_lt_maxlen
  obtain ⟨left, rfl⟩ : ∃ k, left = k + 1 := ⟨left - 1, by omega⟩
  rw [decodeBits_succ, Node.descend_internal]
  exact readBit_andThen_congr fun b t ht => hchild b left t ht (by simp; omega)

/-- Below the root, after the bits that lead to a node, the loop does what the walk does from that node. -/
theorem matchOrGoOn_eq_descend {cb : Codebook} (n : Node) :
    ∀ {path : List Bool} {left : Nat} {s : State}, s.codebook = cb → cb.HoldsBelow n path → path ≠ [] →
      cb.maxlen = path.length + left →
      matchOrGoOn left path.length (codeValue path) s = n.descend s := by
  induction n with
  | leaf a w =>
    rintro path left s rfl h - -
    rw [matchOrGoOn, h.lookup_leaf, Node.descend]
  | internal w l r ihl ihr =>
    rintro path left s rfl h hpath hleft
    rw [matchOrGoOn, (Codebook.lookup_bits_eq_none_iff _ _).2 (h.bits_ne hpath)]
    refine decodeBits_eq_descend h hleft fun b left t ht hleft' => ?_
    cases b with
    | false => exact ihl ht (h.child false) (by simp) hleft'
    | true => exact ihr ht (h.child true) (by simp) hleft'

theorem Codebook.isEmpty_eq_false_of_maxlen_pos {cb : Codebook} (h : 0 < cb.maxlen) : cb.isEmpty = false := by
  rw [← Bool.not_eq_true, Codebook.isEmpty_iff]
  intro hlen
  have := (cb.maxlen_le_iff 0).2 fun a => by rw [hlen a]; exact Nat.le_refl 0
  omega

theorem decodeStep_of_maxlen_pos {s : State} (h : 0 < s.codebook.maxlen) :
    decodeStep s = decodeBits s.codebook.maxlen 0 0 s := by
  rw [decodeStep, Codebook.isEmpty_eq_false_of_maxlen_pos h]
  rfl

theorem decodeStep_eq_descend_full {s : State} {w : Nat} {l r : Node}
    (h : s.codebook.HoldsBelow (.internal w l r) []) : decodeStep s = (Node.internal w l r).descend s := by
  rw [decodeStep_of_maxlen_pos h.length_lt_maxlen]
  refine decodeBits_eq_descend (path := []) h (Nat.zero_add _).symm fun b left t ht hleft => ?_
  exact matchOrGoOn_eq_descend _ ht (h.child b) (by simp) hleft

/-- With the one code `0` a decode step reads one bit, and it is OFF_CODE when that is 1 (R217). -/
theorem decodeStep_eq_descend_oneLeaf {s : State} {a : Symbol} (w : Nat)
    (h : ∀ (b : Symbol) (bs : List Bool), (b, bs) ∈ [(a, [false])] ↔ (s.codebook.get b).bits = bs ∧ bs ≠ []) :
    decodeStep s = (Tree.oneLeaf a w).descend s := by
  have hcode : (s.codebook.get a).bits = [false] := ((h a _).1 (List.mem_singleton_self _)).1
  have honly : ∀ b : Symbol, (s.codebook.get b).bits ≠ [] → (s.codebook.get b).bits = [false] := fun b hne =>
    (Prod.mk.inj (List.mem_singleton.1 ((h b _).2 ⟨rfl, hne⟩))).2
  have hsame : ∀ b : Symbol, (s.codebook.get b).bits = [false] → b = a := fun b hb =>
    (Prod.mk.inj (List.mem_singleton.1 ((h b _).2 ⟨hb, by simp⟩))).1
  have hmax : s.codebook.maxlen = 1 := by
    apply Nat.le_antisymm
    · refine (s.codebook.maxlen_le_iff 1).2 fun b => ?_
      rw [← CbEntry.length_bits]
      by_cases hb : (s.codebook.get b).bits = []
      · simp [hb]
      · simp [honly b hb]
    · have hle := s.codebook.len_le_maxlen a
      rwa [← CbEntry.length_bits, hcode] at hle
  rw [decodeStep_of_maxlen_pos (by omega), hmax, Tree.descend_oneLeaf]
  refine (decodeBits_succ 0 [] s).trans (readBit_andThen_congr fun b t ht => ?_)
  rw [matchOrGoOn, ht, List.nil_append]
  cases b with
  | false =>
    rw [(Codebook.lookup_bits_eq_some_iff _ _ a).2 ⟨hcode, fun b hb => by rw [hsame b hb]⟩]
    rfl
  | true =>
    rw [(Codebook.lookup_bits_eq_none_iff _ [true]).2 fun b hb => by
      have := honly b (by simp [hb])
      simp [hb] at this]
    rfl

/-- Settles O45: the RAM holds the codes of the tree, over whose root the two walks agree. -/
theorem decodeStepIsTheTreeWalk : Obligations.DecodeStepIsTheTreeWalk := by
  intro t s hnodup hlen hcb
  have hholds := Codebook.mem_table_iff_bits_ofCodes hnodup hlen
  rw [← hcb] at hholds
  cases t with
  | oneLeaf a w => exact decodeStep_eq_descend_oneLeaf w hholds
  | full root =>
    cases root with
    | leaf a w => exact absurd (hlen (a, []) (List.mem_singleton_self _)).1 (Nat.not_succ_le_zero 0)
    | internal w l r =>
      refine decodeStep_eq_descend_full (w := w) fun a bs => (hholds a bs).trans ?_
      simp

end Sys2Proof.Machine
end

section
/-! PROOFS. How the commands turn away (R241, R246, R247): BAD_STATE of the writer and reader commands, and the ends of
R_DECSYM and R_DECODE before a symbol is decoded. -/

namespace Sys2Proof.Machine

/-! ### BAD_STATE (R241) -/

theorem execWPutsym_of_ne_opened (a : Symbol) {s : State} (hw : s.wstate ≠ .opened) :
    execWPutsym a s = .next (s.finish .badState) := if_pos hw

theorem execWEncode_of_ne_opened {s : State} (hw : s.wstate ≠ .opened) :
    execWEncode s = .next (s.finish .badState) := if_pos hw

theorem execRGetbit_of_ne_active {s : State} (hr : s.rstate ≠ .active) :
    execRGetbit s = .next (s.finish .badState) := if_pos hr

theorem execRDecsym_of_ne_active {s : State} (hr : s.rstate ≠ .active) :
    execRDecsym s = .next (s.finish .badState) := if_pos hr

theorem execRDecode_of_ne_active {s : State} (hr : s.rstate ≠ .active) :
    execRDecode s = .next (s.finish .badState) := if_pos hr

/-- R_INIT checks its operand and no state (R180). -/
theorem execRInit_err {s t : State} (h : execRInit s = .next t) : t.err = .badOperand ∨ t.err = .ok := by
  unfold execRInit at h
  split at h
  · cases h; exact .inl rfl
  · cases h; exact .inr rfl

/-- Settles O48: outside OPEN and ACTIVE the state is the first check of each command (R246); of the other six only
R_INIT has a check, which is of its operand. -/
theorem badStateCommandByCommand : Obligations.BadStateCommandByCommand := by
  refine ⟨fun i s hw hi => ?writer, fun i s hr hi => ?reader, fun i s t h hi => ?never⟩
  case writer =>
    have hne : s.wstate ≠ .opened := by rcases hw with hw | hw <;> simp [hw]
    obtain ⟨b, rfl⟩ | ⟨n, rfl⟩ | ⟨a, rfl⟩ | rfl | rfl := hi
    · exact execWPutbit_of_ne_opened b hne
    · exact execWPutbits_of_ne_opened n hne
    · exact execWPutsym_of_ne_opened a hne
    · exact execWEncode_of_ne_opened hne
    · exact execWFinal_of_ne_opened hne
  case reader =>
    have hne : s.rstate ≠ .active := by rcases hr with hr | hr <;> simp [hr]
    obtain rfl | rfl | rfl := hi
    · exact execRGetbit_of_ne_active hne
    · exact execRDecsym_of_ne_active hne
    · exact execRDecode_of_ne_active hne
  case never =>
    obtain rfl | rfl | rfl | rfl | ⟨a, rfl⟩ | ⟨a, rfl⟩ := hi
    · cases h; exact nofun
    · rcases execRInit_err h with he | he <;> simp [he]
    · cases h; exact nofun
    · cases h; exact nofun
    · cases h; exact nofun
    · cases h; exact nofun

/-! ### The ends of R_DECSYM and R_DECODE while the reader is ACTIVE (R186, R188) -/

theorem Codebook.maxlen_pos_of_len_ne_zero {cb : Codebook} {a : Symbol} (ha : (cb.get a).len ≠ 0) : 0 < cb.maxlen :=
  Nat.lt_of_lt_of_le (Nat.pos_of_ne_zero fun h => ha (BitVec.eq_of_toNat_eq h)) (cb.len_le_maxlen a)

/-- With a code to look for and no bit left, a decode step fails at its first ReadBit (R182, R183). -/
theorem decodeStep_of_no_bit {s : State} {a : Symbol} (ha : (s.codebook.get a).len ≠ 0)
    (hend : s.rNbits.toNat ≤ s.rBitpos.toNat ∨ s.cfg.payloadBits ≤ s.rBitpos.toNat) :
    decodeStep s = .ended (s.failReader .exhausted) := by
  have hpos := Codebook.maxlen_pos_of_len_ne_zero ha
  obtain ⟨m, hm⟩ := Nat.exists_eq_add_one.2 hpos
  rw [decodeStep_of_maxlen_pos hpos, hm, decodeBits, readBit_ended hend]

theorem execRDecsym_of_count_reached {s : State} (hr : s.rstate = .active) (hc : s.origLen.toNat ≤ s.rSymcnt.toNat) :
    execRDecsym s = .next (s.finish .countReached) := by
  rw [execRDecsym, if_neg (not_not.2 hr), if_pos hc]

theorem execRDecode_of_count_reached {s : State} (hr : s.rstate = .active) (hlen : s.origLen.toNat ≤ s.cfg.dataBytes)
    (hc : s.origLen.toNat ≤ s.rSymcnt.toNat) : execRDecode s = .next (s.finish .ok) := by
  rw [execRDecode_of_active hr hlen, Nat.sub_eq_zero_of_le hc, decodeLoop]

theorem execRDecode_of_bad_operand {s : State} (hr : s.rstate = .active) (hlen : s.cfg.dataBytes < s.origLen.toNat) :
    execRDecode s = .next (s.finish .badOperand) := by
  rw [execRDecode, if_neg (not_not.2 hr), if_pos hlen]

/-- While a symbol is needed, the end of the first decode step is the end of R_DECSYM and of R_DECODE. -/
theorem decodeCommands_of_ended {s t : State} (hr : s.rstate = .active) (hc : s.rSymcnt.toNat < s.origLen.toNat)
    (h : decodeStep s = .ended t) :
    execRDecsym s = .next t ∧ (s.origLen.toNat ≤ s.cfg.dataBytes → execRDecode s = .next t) := by
  constructor
  · rw [execRDecsym, if_neg (not_not.2 hr), if_neg (Nat.not_le.2 hc), h]
  · intro hlen
    obtain ⟨left, hleft⟩ := Nat.exists_eq_add_one.2 (Nat.sub_pos_of_lt hc)
    rw [execRDecode_of_active hr hlen, hleft, decodeLoop_of_ended h]

/-- Settles O40: the checks before the first decode step, and then the two ways in which that step ends without reading
a bit. -/
theorem decodeCommandsTurnAway : Obligations.DecodeCommandsTurnAway := by
  refine fun s => ⟨fun hr => ?badState, fun hr hc => ?countReached, fun hr hlen => ?badOperand,
    fun hr hc hempty => ?emptyCodebook, fun hr hc ⟨a, ha⟩ hend => ?exhausted⟩
  case badState => exact ⟨execRDecsym_of_ne_active hr, execRDecode_of_ne_active hr⟩
  case countReached =>
    exact ⟨execRDecsym_of_count_reached hr hc, fun hlen => execRDecode_of_count_reached hr hlen hc⟩
  case badOperand => exact execRDecode_of_bad_operand hr hlen
  case emptyCodebook =>
    exact decodeCommands_of_ended hr hc (decodeStep_of_isEmpty ((Codebook.isEmpty_iff _).2 hempty))
  case exhausted => exact decodeCommands_of_ended hr hc (decodeStep_of_no_bit ha hend)

end Sys2Proof.Machine
end

section
/-! PROOFS. Reset and what it leaves accepted (R270, R272): the reset values, the commands that write WSTATE and RSTATE, and
the one turn of the block that can take either state out of IDLE. -/

namespace Sys2Proof.Machine

/-! ### The reset values (R270) -/

theorem statusIdle_resetWith (cfg : Config) : (State.resetWith cfg).statusIdle = 0 := by
  simp only [State.statusIdle, State.resetWith]
  decide

/-- The five registers left out are the three constants and the two windows on the RAMs. -/
theorem readReg_resetWith (cfg : Config) {r : Reg} (hr : r ∉ [.name0, .name1, .version, .plData, .dtData]) :
    readReg (State.resetWith cfg) r = .ok 0 := by
  cases r with
  | name0 | name1 | version | plData | dtData => simp at hr
  | status => exact congrArg _ (statusIdle_resetWith cfg)
  | cbCode k => exact congrArg _ (Vector.getElem_replicate k.isLt)
  | origLenHi | rSymcntHi => exact congrArg _ (BitVec.extractLsb'_zero ..)
  | _ => rfl

/-- Settles O9: every register but the constants and the windows is 0, and the codebook is the cleared one. -/
theorem resetLeavesTheResetValues : Obligations.ResetLeavesTheResetValues := fun cfg =>
  ⟨rfl, rfl, rfl, rfl, rfl, rfl, congrArg _ (statusIdle_resetWith cfg), rfl, rfl, rfl, rfl,
    fun _ hr => readReg_resetWith cfg hr, Codebook.get_cleared, fun _ => ⟨rfl, rfl⟩⟩

/-! ### The reader's commands leave WSTATE -/

theorem execRInit_wstate {s t : State} (h : execRInit s = .next t) : t.wstate = s.wstate := by
  unfold execRInit at h
  split at h <;> cases h <;> rfl

theorem execRGetbit_wstate {s t : State} (h : execRGetbit s = .next t) : t.wstate = s.wstate := by
  unfold execRGetbit at h
  split at h
  · cases h; rfl
  · rcases readBit_cases s with ⟨-, he⟩ | ⟨-, -, ⟨-, he⟩ | ⟨b, -, he⟩⟩ <;> rw [he] at h <;> cases h <;> rfl

/-- Past its checks R_DECSYM is one turn of R_DECODE's loop (R186, R188). -/
theorem execRDecsym_eq_decodeLoop_one {s : State} (hr : s.rstate = .active) (hc : s.rSymcnt.toNat < s.origLen.toNat) :
    execRDecsym s = decodeLoop 1 s := by
  rw [execRDecsym, if_neg (not_not.2 hr), if_neg (Nat.not_le.2 hc), decodeLoop]
  cases decodeStep s <;> rfl

theorem execRDecsym_wstate {s t : State} (h : execRDecsym s = .next t) : t.wstate = s.wstate := by
  by_cases hr : s.rstate = .active
  · by_cases hc : s.rSymcnt.toNat < s.origLen.toNat
    · rw [execRDecsym_eq_decodeLoop_one hr hc] at h
      rw [decodeLoop_frame 1 h]
    · rw [execRDecsym_of_count_reached hr (Nat.not_lt.1 hc)] at h
      cases h; rfl
  · rw [execRDecsym_of_ne_active hr] at h
    cases h; rfl

theorem execRDecode_wstate {s t : State} (h : execRDecode s = .next t) : t.wstate = s.wstate := by
  unfold execRDecode at h
  split at h
  · cases h; rfl
  · split at h
    · cases h; rfl
    · rw [decodeLoop_frame _ h]

/-! ### The writer's commands leave RSTATE -/

theorem appendAll_rstate {w n : Nat} {v : BitVec w} {s t : State} (h : appendAll n v s = .next t) :
    t.rstate = s.rstate := by rw [appendAll_frame h]

theorem execWPutbit_rstate {b : Bool} {s t : State} (h : execWPutbit b s = .next t) : t.rstate = s.rstate := by
  by_cases hw : s.wstate = .opened
  · rw [execWPutbit_of_opened b hw] at h
    exact appendAll_rstate h
  · rw [execWPutbit_of_ne_opened b hw] at h
    cases h; rfl

theorem execWPutbits_rstate {n : BitVec 8} {s t : State} (h : execWPutbits n s = .next t) : t.rstate = s.rstate := by
  unfold execWPutbits at h
  split at h
  · cases h; rfl
  · split at h
    · cases h; rfl
    · exact appendAll_rstate h

theorem execWPutsym_rstate {a : Symbol} {s t : State} (h : execWPutsym a s = .next t) : t.rstate = s.rstate := by
  unfold execWPutsym at h
  dsimp only at h
  split at h
  · cases h; rfl
  · split at h
    · cases h; rfl
    · exact appendAll_rstate h

theorem execWEncode_rstate {s t : State} (h : execWEncode s = .next t) : t.rstate = s.rstate := by
  unfold execWEncode at h
  split at h
  · cases h; rfl
  · split at h
    · cases h; rfl
    · rw [encodeLoop_frame _ _ h]

theorem execWFinal_rstate {s t : State} (h : execWFinal s = .next t) : t.rstate = s.rstate := by
  unfold execWFinal at h
  split at h <;> cases h <;> rfl

/-! ### A bus transaction leaves both states -/

/-- WSTATE and RSTATE are what they were. -/
def State.SameStates (s t : State) : Prop := t.wstate = s.wstate ∧ t.rstate = s.rstate

theorem State.SameStates.finish (s : State) (e : ErrCode) : s.SameStates (s.finish e) := ⟨rfl, rfl⟩

theorem execBusRd_sameStates {a : RegAddr} {s t : State} (h : execBusRd a s = .next t) : s.SameStates t := by
  rcases execBusRd_cases a s with ⟨v, n, he, -⟩ | ⟨-, r, f, -, -, he⟩
  · rw [he] at h; cases h; exact ⟨rfl, rfl⟩
  · rw [he] at h; cases h

theorem writeReg_sameStates (d : Word) (s : State) (r : Reg) : s.SameStates (writeReg d s r) := by
  obtain ⟨t, rfl, ht, -⟩ := writeReg_frame d s r
  exact ⟨by rw [ht], by rw [ht]⟩

theorem execBusWr_sameStates {a : RegAddr} {d : Word} {s t : State} (h : execBusWr a d s = .next t) :
    s.SameStates t := by
  cases hb : s.busy with
  | true =>
    rw [execBusWr_of_busy hb] at h
    cases h; exact ⟨rfl, rfl⟩
  | false =>
    rw [execBusWr_of_idle hb] at h
    cases h
    cases regOfAddr a with
    | none => exact ⟨rfl, rfl⟩
    | some r => exact writeReg_sameStates d s r

theorem hostTurn_sameStates {q : BusReq} {s t : State} (h : hostTurn q s = .next t) : s.SameStates t := by
  obtain ⟨we, a, d⟩ := q
  cases we with
  | false => exact execBusRd_sameStates h
  | true => exact execBusWr_sameStates h

/-! ### What takes WSTATE and RSTATE out of IDLE (R272) -/

/-- An IDLE writer turns its other commands away, and no other instruction writes WSTATE. -/
theorem exec_wstate_idle {i : Instr} {s t : State} (h : exec i s = .next t) (hi : i ≠ .wInit) (hs : s.wstate = .idle) :
    t.wstate = .idle := by
  have hne : s.wstate ≠ .opened := by simp [hs]
  cases i with
  | nop | cbClear | cbWrite a | cbRead a => cases h; exact hs
  | wInit => exact absurd rfl hi
  | wPutbit b => cases (execWPutbit_of_ne_opened b hne).symm.trans h; exact hs
  | wPutbits n => cases (execWPutbits_of_ne_opened n hne).symm.trans h; exact hs
  | wPutsym a => cases (execWPutsym_of_ne_opened a hne).symm.trans h; exact hs
  | wEncode => cases (execWEncode_of_ne_opened hne).symm.trans h; exact hs
  | wFinal => cases (execWFinal_of_ne_opened hne).symm.trans h; exact hs
  | rInit => exact (execRInit_wstate h).trans hs
  | rGetbit => exact (execRGetbit_wstate h).trans hs
  | rDecsym => exact (execRDecsym_wstate h).trans hs
  | rDecode => exact (execRDecode_wstate h).trans hs
  | busRd a => exact (execBusRd_sameStates h).1.trans hs
  | busWr a d => exact (execBusWr_sameStates h).1.trans hs

/-- An IDLE reader turns its other commands away, and no other instruction writes RSTATE. -/
theorem exec_rstate_idle {i : Instr} {s t : State} (h : exec i s = .next t) (hi : i ≠ .rInit) (hs : s.rstate = .idle) :
    t.rstate = .idle := by
  have hne : s.rstate ≠ .active := by simp [hs]
  cases i with
  | nop | cbClear | cbWrite a | cbRead a | wInit => cases h; exact hs
  | wPutbit b => exact (execWPutbit_rstate h).trans hs
  | wPutbits n => exact (execWPutbits_rstate h).trans hs
  | wPutsym a => exact (execWPutsym_rstate h).trans hs
  | wEncode => exact (execWEncode_rstate h).trans hs
  | wFinal => exact (execWFinal_rstate h).trans hs
  | rInit => exact absurd rfl hi
  | rGetbit => cases (execRGetbit_of_ne_active hne).symm.trans h; exact hs
  | rDecsym => cases (execRDecsym_of_ne_active hne).symm.trans h; exact hs
  | rDecode => cases (execRDecode_of_ne_active hne).symm.trans h; exact hs
  | busRd a => exact (execBusRd_sameStates h).2.trans hs
  | busWr a d => exact (execBusWr_sameStates h).2.trans hs

/-- A turn of the engine leaves both states, or it performs the pending command, which is one of the map (R94, R117). -/
theorem engineTurn_cases {s t : State} (h : engineTurn s = .next t) :
    s.SameStates t ∨ ∃ w i, s.pending = some w ∧ decodeCmd w = .ok i ∧ exec i s = .next t := by
  unfold engineTurn at h
  split at h
  · rename_i w hw
    unfold perform at h
    split at h
    · rename_i i hi
      exact .inr ⟨w, i, hw, hi, h⟩
    · cases h; exact .inl (.finish s _)
  · cases h; exact .inl ⟨rfl, rfl⟩

/-- A step leaves both states, or is reset and makes both IDLE, or performs the pending command. -/
theorem step_states_cases {s t : State} (h : step s = .next t) :
    s.SameStates t ∨ (t.wstate = .idle ∧ t.rstate = .idle) ∨
    ∃ w i rest, s.pending = some w ∧ decodeCmd w = .ok i ∧ exec i { s with inputs := rest } = .next t := by
  have engine : ∀ rest, engineTurn { s with inputs := rest } = .next t → s.SameStates t ∨
      ∃ w i rest, s.pending = some w ∧ decodeCmd w = .ok i ∧ exec i { s with inputs := rest } = .next t :=
    fun rest he => (engineTurn_cases he).imp id fun ⟨w, i, hw, hi, hx⟩ => ⟨w, i, rest, hw, hi, hx⟩
  rw [step, nextTurn] at h
  split at h
  · exact (engine s.inputs h).imp id .inr
  · rename_i q rest _
    exact .inl (hostTurn_sameStates (s := { s with inputs := rest }) h)
  · rename_i rest _
    exact (engine rest h).imp id .inr
  · cases h; exact .inr (.inl ⟨rfl, rfl⟩)

theorem step_leaves_wstate_idle {s t : State} (h : step s = .next t) (hs : s.wstate = .idle) (ht : t.wstate ≠ .idle) :
    ∃ w, s.pending = some w ∧ decodeCmd w = .ok .wInit := by
  rcases step_states_cases h with ⟨hw, -⟩ | ⟨hw, -⟩ | ⟨w, i, rest, hp, hd, hx⟩
  · exact absurd (hw.trans hs) ht
  · exact absurd hw ht
  · have hi : i = .wInit := by
      by_contra hi
      exact ht (exec_wstate_idle hx hi hs)
    exact ⟨w, hp, hi ▸ hd⟩

theorem step_leaves_rstate_idle {s t : State} (h : step s = .next t) (hs : s.rstate = .idle) (ht : t.rstate ≠ .idle) :
    ∃ w, s.pending = some w ∧ decodeCmd w = .ok .rInit := by
  rcases step_states_cases h with ⟨-, hr⟩ | ⟨-, hr⟩ | ⟨w, i, rest, hp, hd, hx⟩
  · exact absurd (hr.trans hs) ht
  · exact absurd hr ht
  · have hi : i = .rInit := by
      by_contra hi
      exact ht (exec_rstate_idle hx hi hs)
    exact ⟨w, hp, hi ▸ hd⟩

/-! ### What is accepted after reset (R272) -/

/-- R_NBITS is 0 after reset, which is in range for every build. -/
theorem execRInit_resetWith (cfg : Config) :
    ∃ t, execRInit (State.resetWith cfg) = .next t ∧ t.err = .ok :=
  ⟨_, if_neg (Nat.not_lt_zero _), rfl⟩

/-- Settles O11: R_INIT is the one of the six with a check, BAD_STATE is the first check of the others, and a step out of
IDLE performs W_INIT or R_INIT. -/
theorem commandsAcceptedAfterReset : Obligations.CommandsAcceptedAfterReset := by
  obtain ⟨writer, reader, -⟩ := badStateCommandByCommand
  refine ⟨fun cfg i hi => ?accepted, fun _ => ⟨rfl, rfl⟩, fun i s hs => writer i s (.inl hs),
    fun i s hs => reader i s (.inl hs), fun _ _ => step_leaves_wstate_idle, fun _ _ => step_leaves_rstate_idle⟩
  case accepted =>
    obtain rfl | rfl | ⟨a, rfl⟩ | ⟨a, rfl⟩ | rfl | rfl := hi
    · exact ⟨_, rfl, rfl⟩
    · exact ⟨_, rfl, rfl⟩
    · exact ⟨_, rfl, rfl⟩
    · exact ⟨_, rfl, rfl⟩
    · exact ⟨_, rfl, rfl⟩
    · exact execRInit_resetWith cfg

end Sys2Proof.Machine
end

section
/-! PROOFS. Encoding and decoding agree (R90, R95, R98): the used bits of a command word put together again from its fields,
and the pins of the two bus formats. -/

namespace Sys2Proof

/-! ### A command word from its fields (R90, R91) -/

/-- OPC and ARG are the low half of a command word. -/
theorem and_low_half (w : Word) : w &&& 0x0000FFFF = cmdWord (cmdArg w) (cmdOpc w) := by
  apply BitVec.eq_of_toNat_eq
  rw [BitVec.toNat_and, cmdWord_toNat, cmdArg_toNat, cmdOpc_toNat]
  refine (Nat.and_two_pow_sub_one_eq_mod _ 16).trans ?_
  omega

theorem and_low_byte (w : Word) : w &&& 0x000000FF = cmdWord 0 (cmdOpc w) := by
  apply BitVec.eq_of_toNat_eq
  rw [BitVec.toNat_and, cmdWord_toNat, cmdOpc_toNat]
  refine (Nat.and_two_pow_sub_one_eq_mod _ 8).trans ?_
  simp

theorem setWidth_ofBool_toNat (b : Bool) : ((BitVec.ofBool b).setWidth 8).toNat = b.toNat := by
  cases b <;> rfl

/-- What W_PUTBIT uses of its word: OPC and ARG[0]. -/
theorem and_low_nine (w : Word) :
    w &&& 0x000001FF = cmdWord ((BitVec.ofBool ((cmdArg w).getLsbD 0)).setWidth 8) (cmdOpc w) := by
  apply BitVec.eq_of_toNat_eq
  have hbit : ((cmdArg w).getLsbD 0).toNat = w.toNat / 256 % 2 := by
    rw [cmdArg_getLsbD_zero, Nat.testBit_eq_decide_div_mod_eq]
    rcases Nat.mod_two_eq_zero_or_one (w.toNat / 256) with h | h <;> simp [h]
  rw [BitVec.toNat_and, cmdWord_toNat, setWidth_ofBool_toNat, cmdOpc_toNat, hbit]
  refine (Nat.and_two_pow_sub_one_eq_mod _ 9).trans ?_
  omega

/-! ### The bus formats (R98) -/

theorem busRdPins_append (a : RegAddr) : busRdPins (0#1 ++ a) = { we := false, address := a, writeData := 0 } := by
  have haddr : (0#1 ++ a).extractLsb' 0 8 = a := BitVec.extractLsb'_append_eq_right
  have hwe : (0#1 ++ a).getLsbD 8 = false := by rw [BitVec.getLsbD_append]; rfl
  rw [busRdPins, haddr, hwe]

theorem busWrPins_append (a : RegAddr) (d : Word) :
    busWrPins ((1#1 ++ a) ++ d) = { we := true, address := a, writeData := d } := by
  have hdata : (1#1 ++ a ++ d).extractLsb' 0 32 = d := BitVec.extractLsb'_append_eq_right
  have haddr : (1#1 ++ a ++ d).extractLsb' 32 8 = a := by
    rw [BitVec.extractLsb'_append_eq_of_le (by decide)]
    exact BitVec.extractLsb'_append_eq_right
  have hwe : (1#1 ++ a ++ d).getLsbD 40 = true := by
    rw [BitVec.getLsbD_append]
    exact (BitVec.getLsbD_append ..).trans rfl
  rw [busWrPins, hdata, haddr, hwe]

/-! ### Both directions -/

theorem decode_encode (i : Instr) : decode (encode i) = .ok i := by
  cases i with
  | busRd a =>
    have hwf : RawWord.wf (.busRd (0#1 ++ a)) = true := by
      rw [RawWord.wf, BitVec.getLsbD_append]; rfl
    rw [encode, decode, if_pos hwf, busRdPins_append]; rfl
  | busWr a d =>
    have hwf : RawWord.wf (.busWr ((1#1 ++ a) ++ d)) = true := by
      rw [RawWord.wf, BitVec.getLsbD_append]
      exact (BitVec.getLsbD_append ..).trans rfl
    rw [encode, decode, if_pos hwf, busWrPins_append]; rfl
  | _ => simp [encode, decode, decodeCmd]

/-- What decodes has the format bit of its format. -/
theorem wf_of_decode_ok {r : RawWord} {i : Instr} (h : decode r = .ok i) : r.wf = true := by
  cases r with
  | cmdw w => rfl
  | busRd w | busWr w =>
    rw [decode] at h
    by_contra hwf
    rw [if_neg hwf] at h
    cases h

/-- A command word is its instruction's word on the bits the instruction uses (R91). -/
theorem encode_of_decodeCmd {w : Word} {i : Instr} (h : decodeCmd w = .ok i) : encode i = .cmdw (w &&& usedBits i) := by
  unfold decodeCmd at h
  split at h
  case h_15 => cases h
  all_goals
    rename_i hopc
    cases h
    simp only [encode, usedBits, and_low_byte, and_low_nine, and_low_half, hopc]
    rfl

theorem encode_of_decode_busRd {w : BitVec 9} {i : Instr} (h : decode (.busRd w) = .ok i) : encode i = .busRd w := by
  have hwf := wf_of_decode_ok h
  rw [decode, if_pos hwf] at h
  have hwe : w.getLsbD 8 = false := by simpa [RawWord.wf] using hwf
  simp only [busRdPins, decodeBus, hwe] at h
  cases h
  refine congrArg RawWord.busRd (BitVec.eq_of_getLsbD_eq fun i hi => ?_)
  rw [BitVec.getLsbD_append]
  by_cases haddr : i < 8
  · simp [haddr]
  · obtain rfl : i = 8 := by omega
    simpa using hwe

theorem encode_of_decode_busWr {w : BitVec 41} {i : Instr} (h : decode (.busWr w) = .ok i) : encode i = .busWr w := by
  have hwf := wf_of_decode_ok h
  rw [decode, if_pos hwf] at h
  have hwe : w.getLsbD 40 = true := hwf
  simp only [busWrPins, decodeBus, hwe, if_true] at h
  cases h
  refine congrArg RawWord.busWr (BitVec.eq_of_getLsbD_eq fun i hi => ?_)
  rw [BitVec.getLsbD_append, BitVec.getLsbD_append]
  by_cases hdata : i < 32
  · simp [hdata]
  · by_cases haddr : i - 32 < 8
    · simp [hdata, haddr, show 32 + (i - 32) = i by omega]
    · obtain rfl : i = 40 := by omega
      simp [hwe]

/-- Settles O1: by the decoder's match on OPC in one direction, and by the fields of a word put together again in the
other. -/
theorem decodeAndEncodeAgree : Obligations.DecodeAndEncodeAgree :=
  ⟨fun i _ => ⟨wf_of_decode_ok (decode_encode i), decode_encode i⟩, fun _ _ => encode_of_decodeCmd,
    fun _ _ => encode_of_decode_busRd, fun _ _ => encode_of_decode_busWr⟩

end Sys2Proof
end

section
/-! PROOFS. What the writer commands and the reader commands leave unchanged, from every state (R51, R160, R188): their two
frames, and how far the loop of R_DECODE comes. -/

namespace Sys2Proof.Machine

/-! ### The frame of a writer command -/

/-- `t` is what a completed writer command may leave of `s`. -/
def State.WriterFrame (s t : State) : Prop :=
  t = { s with payload := t.payload, wBitcnt := t.wBitcnt, wPad := t.wPad, wDatapos := t.wDatapos, wstate := t.wstate,
               err := t.err, pending := none }

/-- The writer commands (42_writer.md). -/
def IsWriterCommand (i : Instr) : Prop :=
  i = .wInit ∨ (∃ b, i = .wPutbit b) ∨ (∃ n, i = .wPutbits n) ∨ (∃ a, i = .wPutsym a) ∨ i = .wEncode ∨ i = .wFinal

theorem appendAll_keeps {w n : Nat} {v : BitVec w} {s t : State} (h : appendAll n v s = .next t) :
    s.WriterFrame t ∧ t.wstate = s.wstate := by
  rw [appendAll_frame h]
  exact ⟨rfl, rfl⟩

/-- A command that has been turned away changes ERR and BUSY only. -/
theorem finish_keeps (s : State) (e : ErrCode) : s.WriterFrame (s.finish e) ∧ (s.finish e).wstate = s.wstate := ⟨rfl, rfl⟩

theorem execWPutbit_keeps {b : Bool} {s t : State} (h : execWPutbit b s = .next t) :
    s.WriterFrame t ∧ t.wstate = s.wstate := by
  by_cases hw : s.wstate = .opened
  · rw [execWPutbit_of_opened b hw] at h
    exact appendAll_keeps h
  · rw [execWPutbit_of_ne_opened b hw] at h
    cases h; exact finish_keeps s _

theorem execWPutbits_keeps {n : BitVec 8} {s t : State} (h : execWPutbits n s = .next t) :
    s.WriterFrame t ∧ t.wstate = s.wstate := by
  unfold execWPutbits at h
  split at h
  · cases h; exact finish_keeps s _
  · split at h
    · cases h; exact finish_keeps s _
    · exact appendAll_keeps h

theorem execWPutsym_keeps {a : Symbol} {s t : State} (h : execWPutsym a s = .next t) :
    s.WriterFrame t ∧ t.wstate = s.wstate := by
  unfold execWPutsym at h
  dsimp only at h
  split at h
  · cases h; exact finish_keeps s _
  · split at h
    · cases h; exact finish_keeps s _
    · exact appendAll_keeps h

theorem execWEncode_keeps {s t : State} (h : execWEncode s = .next t) : s.WriterFrame t ∧ t.wstate = s.wstate := by
  unfold execWEncode at h
  split at h
  · cases h; exact finish_keeps s _
  · split at h
    · cases h; exact finish_keeps s _
    · rw [encodeLoop_frame _ _ h]; exact ⟨rfl, rfl⟩

/-- W_FINAL turns away with nothing changed, or closes the open stream (R162). -/
theorem execWFinal_cases {s t : State} (h : execWFinal s = .next t) :
    (s.wstate ≠ .opened ∧ t = s.finish .badState) ∨
    (s.wstate = .opened ∧ t = { s with wPad := padCount s.wBitcnt, wstate := .final, err := .ok, pending := none }) := by
  by_cases hw : s.wstate = .opened
  · rw [execWFinal_of_opened hw] at h
    cases h; exact .inr ⟨hw, rfl⟩
  · rw [execWFinal_of_ne_opened hw] at h
    cases h; exact .inl ⟨hw, rfl⟩

theorem exec_writerFrame {i : Instr} {s t : State} (hi : IsWriterCommand i) (h : exec i s = .next t) : s.WriterFrame t := by
  obtain rfl | ⟨b, rfl⟩ | ⟨n, rfl⟩ | ⟨a, rfl⟩ | rfl | rfl := hi
  · cases h; rfl
  · exact (execWPutbit_keeps h).1
  · exact (execWPutbits_keeps h).1
  · exact (execWPutsym_keeps h).1
  · exact (execWEncode_keeps h).1
  · obtain ⟨-, rfl⟩ | ⟨-, rfl⟩ := execWFinal_cases h <;> rfl

/-! ### The loop of R_DECODE -/

/-- `u` is `s` after `n` more symbols have been decoded and recorded. -/
structure State.DecodedTo (s u : State) (n : Nat) : Prop where
  frame : u = { s with rSym := u.rSym, data := u.data, rSymcnt := u.rSymcnt, rBitpos := u.rBitpos }
  count : u.rSymcnt.toNat = s.rSymcnt.toNat + n
  others : ∀ j, j < s.rSymcnt.toNat ∨ u.rSymcnt.toNat ≤ j → u.data.read j = s.data.read j
  bitpos : s.rBitpos.toNat ≤ u.rBitpos.toNat
  nbits : s.rBitpos.toNat ≤ s.rNbits.toNat → u.rBitpos.toNat ≤ s.rNbits.toNat

theorem State.DecodedTo.refl (s : State) : s.DecodedTo s 0 :=
  ⟨rfl, rfl, fun _ _ => rfl, Nat.le_refl _, id⟩

/-- A decoded symbol comes before those decoded from the state it leaves. -/
theorem State.DecodedTo.cons {s v u : State} {a : Symbol} {n : Nat} (hv : decodeStep s = .ok a v)
    (hs : s.rSymcnt.toNat + 1 < 2 ^ 64) (h : (emit a v).DecodedTo u n) : s.DecodedTo u (n + 1) := by
  have hstep := decodeStep_outcome s
  rw [hv] at hstep
  obtain ⟨hvs, hlt, hle, -⟩ := hstep
  have hcnt : v.rSymcnt = s.rSymcnt := by rw [hvs]
  have hdata : v.data = s.data := by rw [hvs]
  have hnb : (emit a v).rNbits = s.rNbits := by rw [emit_rNbits, hvs]
  obtain ⟨-, he, -, -, hother, -, -⟩ := emit_spec a (s := v) (by rw [hcnt]; exact hs)
  rw [hcnt] at he hother
  have hpos := h.bitpos
  have hnbits := h.nbits
  rw [emit_rBitpos] at hpos hnbits
  rw [hnb] at hnbits
  have hcount := h.count
  refine ⟨?_, by omega, fun j hj => ?_, by omega, fun _ => hnbits hle⟩
  · rw [h.frame, hvs]; rfl
  · rw [h.others j (by omega), hother j (by omega), hdata]

/-- The loop of R_DECODE goes on until the count is reached or a decode step ends it. -/
theorem decodeLoop_next :
    ∀ (left : Nat) {s t : State}, s.rSymcnt.toNat + left < 2 ^ 64 → decodeLoop left s = .next t →
      ∃ n u, s.DecodedTo u n ∧ (n = left ∧ t = u.finish .ok ∨ n < left ∧ decodeStep u = .ended t)
  | 0, s, t, _, h => by
    rw [decodeLoop] at h
    cases h
    exact ⟨0, s, .refl s, .inl ⟨rfl, rfl⟩⟩
  | left + 1, s, t, hs, h => by
    rw [decodeLoop] at h
    cases hr : decodeStep s with
    | stopped f => rw [hr] at h; cases h
    | ended v =>
      rw [hr] at h
      cases h
      exact ⟨0, s, .refl s, .inr ⟨Nat.succ_pos _, hr⟩⟩
    | ok a v =>
      rw [hr] at h
      have hcnt : (emit a v).rSymcnt.toNat = s.rSymcnt.toNat + 1 := by
        have hstep := decodeStep_outcome s
        rw [hr] at hstep
        obtain ⟨hvs, -⟩ := hstep
        have hv : v.rSymcnt = s.rSymcnt := by rw [hvs]
        obtain ⟨-, he, -⟩ := emit_spec a (s := v) (by rw [hv]; omega)
        rw [he, hv]
      obtain ⟨n, u, hu, hend⟩ := decodeLoop_next left (by rw [hcnt]; omega) h
      refine ⟨n + 1, u, hu.cons hr (by omega), hend.imp (fun h => ⟨by omega, h.2⟩) fun h => ⟨by omega, h.2⟩⟩

/-- `t` is what the loop of R_DECODE may leave of `s`: some symbols have been decoded, and then the count is reached or a
decode step has ended the command. -/
def State.DecodeEnd (s t : State) : Prop :=
  ∃ n u, s.DecodedTo u n ∧ (t = u.finish .ok ∨ decodeStep u = .ended t)

/-! ### The cases of the reader commands -/

theorem execRInit_cases {s t : State} (h : execRInit s = .next t) :
    (s.cfg.payloadBits < s.rNbits.toNat ∧ t = s.finish .badOperand) ∨
    (s.rNbits.toNat ≤ s.cfg.payloadBits ∧
      t = { s with rBitpos := 0, rSymcnt := 0, rBit := 0, rSym := 0, rstate := .active, err := .ok, pending := none }) := by
  unfold execRInit at h
  split at h
  · rename_i hgt
    cases h; exact .inl ⟨hgt, rfl⟩
  · rename_i hle
    cases h; exact .inr ⟨Nat.not_lt.1 hle, rfl⟩

theorem execRGetbit_cases {s t : State} (h : execRGetbit s = .next t) :
    (s.rstate ≠ .active ∧ t = s.finish .badState) ∨
    (s.rstate = .active ∧ (s.rNbits.toNat ≤ s.rBitpos.toNat ∨ s.cfg.payloadBits ≤ s.rBitpos.toNat) ∧
      t = s.failReader .exhausted) ∨
    (s.rstate = .active ∧ s.rBitpos.toNat < s.rNbits.toNat ∧ s.rBitpos.toNat < s.cfg.payloadBits ∧
      ∃ b, t = { s with rBitpos := s.rBitpos + 1, rBit := BitVec.ofBool b, err := .ok, pending := none }) := by
  unfold execRGetbit at h
  split at h
  · rename_i hr
    cases h; exact .inl ⟨hr, rfl⟩
  · rename_i hr
    have hr := not_not.1 hr
    rcases readBit_cases s with ⟨hend, he⟩ | ⟨hn, hp, ⟨-, he⟩ | ⟨b, -, he⟩⟩ <;> rw [he] at h <;> cases h
    · exact .inr (.inl ⟨hr, hend, rfl⟩)
    · exact .inr (.inr ⟨hr, hn, hp, b, rfl⟩)

theorem execRDecsym_cases {s t : State} (h : execRDecsym s = .next t) :
    (s.rstate ≠ .active ∧ t = s.finish .badState) ∨
    (s.origLen.toNat ≤ s.rSymcnt.toNat ∧ t = s.finish .countReached) ∨ (s.rstate = .active ∧ s.DecodeEnd t) := by
  by_cases hr : s.rstate = .active
  · by_cases hc : s.rSymcnt.toNat < s.origLen.toNat
    · rw [execRDecsym_eq_decodeLoop_one hr hc] at h
      have := s.origLen.isLt
      obtain ⟨n, u, hu, hend⟩ := decodeLoop_next 1 (by omega) h
      exact .inr (.inr ⟨hr, n, u, hu, hend.imp And.right And.right⟩)
    · rw [execRDecsym_of_count_reached hr (Nat.not_lt.1 hc)] at h
      cases h; exact .inr (.inl ⟨Nat.not_lt.1 hc, rfl⟩)
  · rw [execRDecsym_of_ne_active hr] at h
    cases h; exact .inl ⟨hr, rfl⟩

theorem execRDecode_cases {s t : State} (h : execRDecode s = .next t) :
    (s.rstate ≠ .active ∧ t = s.finish .badState) ∨
    (s.cfg.dataBytes < s.origLen.toNat ∧ t = s.finish .badOperand) ∨ (s.rstate = .active ∧ s.DecodeEnd t) := by
  by_cases hr : s.rstate = .active
  · by_cases hlen : s.origLen.toNat ≤ s.cfg.dataBytes
    · rw [execRDecode_of_active hr hlen] at h
      have := s.origLen.isLt
      have := s.rSymcnt.isLt
      obtain ⟨n, u, hu, hend⟩ := decodeLoop_next (s.origLen.toNat - s.rSymcnt.toNat) (by omega) h
      exact .inr (.inr ⟨hr, n, u, hu, hend.imp And.right And.right⟩)
    · rw [execRDecode_of_bad_operand hr (Nat.not_le.1 hlen)] at h
      cases h; exact .inr (.inl ⟨Nat.not_le.1 hlen, rfl⟩)
  · rw [execRDecode_of_ne_active hr] at h
    cases h; exact .inl ⟨hr, rfl⟩

/-! ### The frame of a reader command (43_reader.md) -/

/-- `t` is what a completed reader command may leave of `s`. -/
def State.ReaderFrame (s t : State) : Prop :=
  t = { s with rBitpos := t.rBitpos, rSymcnt := t.rSymcnt, rBit := t.rBit, rSym := t.rSym, rstate := t.rstate,
               data := t.data, err := t.err, pending := none }

/-- The reader commands (43_reader.md). -/
def IsReaderCommand (i : Instr) : Prop := i = .rInit ∨ i = .rGetbit ∨ i = .rDecsym ∨ i = .rDecode

/-- What a reader command leaves of the reader's registers and of DT: the bytes that are not counted in between are as
they were, and R_BITPOS does not pass R_NBITS. -/
structure State.ReadEnd (s t : State) : Prop where
  frame : s.ReaderFrame t
  others : ∀ j, j < s.rSymcnt.toNat ∨ t.rSymcnt.toNat ≤ j → t.data.read j = s.data.read j
  nbits : s.rBitpos.toNat ≤ s.rNbits.toNat → t.rBitpos.toNat ≤ s.rNbits.toNat

theorem State.ReadEnd.finish (s : State) (e : ErrCode) : s.ReadEnd (s.finish e) := ⟨rfl, fun _ _ => rfl, id⟩

theorem State.DecodeEnd.readEnd {s t : State} (h : s.DecodeEnd t) : s.ReadEnd t := by
  obtain ⟨n, u, hu, rfl | hend⟩ := h
  · exact ⟨by rw [hu.frame]; rfl, hu.others, hu.nbits⟩
  · have hstep := decodeStep_outcome u
    rw [hend] at hstep
    obtain ⟨ht, -, hpos, -⟩ := hstep
    have hdata : t.data = u.data := by rw [ht]
    have hcnt : t.rSymcnt = u.rSymcnt := by rw [ht]
    have hnb : u.rNbits = s.rNbits := by rw [hu.frame]
    refine ⟨by rw [ht, hu.frame]; rfl, by rw [hdata, hcnt]; exact hu.others, fun hs => ?_⟩
    rcases hpos with hpos | ⟨hpos, -⟩
    · rw [hpos]; exact hu.nbits hs
    · rw [← hnb]; exact hpos

theorem exec_readEnd {i : Instr} {s t : State} (hi : IsReaderCommand i) (h : exec i s = .next t) : s.ReadEnd t := by
  obtain rfl | rfl | rfl | rfl := hi
  · obtain ⟨-, rfl⟩ | ⟨-, rfl⟩ := execRInit_cases h
    · exact .finish s _
    · exact ⟨rfl, fun _ _ => rfl, fun _ => Nat.zero_le _⟩
  · obtain ⟨-, rfl⟩ | ⟨-, -, rfl⟩ | ⟨-, hn, -, b, rfl⟩ := execRGetbit_cases h
    · exact .finish s _
    · exact ⟨rfl, fun _ _ => rfl, id⟩
    · exact ⟨rfl, fun _ _ => rfl, fun _ => (rBitpos_add (n := 1) hn).trans_le hn⟩
  · obtain ⟨-, rfl⟩ | ⟨-, rfl⟩ | ⟨-, hend⟩ := execRDecsym_cases h
    · exact .finish s _
    · exact .finish s _
    · exact hend.readEnd
  · obtain ⟨-, rfl⟩ | ⟨-, rfl⟩ | ⟨-, hend⟩ := execRDecode_cases h
    · exact .finish s _
    · exact .finish s _
    · exact hend.readEnd

/-- R_INIT and R_GETBIT record no symbol. -/
theorem exec_data_of_rInit_or_rGetbit {i : Instr} {s t : State} (hi : i = .rInit ∨ i = .rGetbit)
    (h : exec i s = .next t) : t.data = s.data := by
  obtain rfl | rfl := hi
  · obtain ⟨-, rfl⟩ | ⟨-, rfl⟩ := execRInit_cases h <;> rfl
  · obtain ⟨-, rfl⟩ | ⟨-, -, rfl⟩ | ⟨-, -, -, b, rfl⟩ := execRGetbit_cases h <;> rfl

/-- Settles O43: the three reading commands end like a loop of decode steps or before it. -/
theorem readerCommandsFrame : Obligations.ReaderCommandsFrame := by
  intro i s t hi h
  obtain ⟨hframe, hothers, hnbits⟩ := exec_readEnd hi h
  exact ⟨hframe, hothers, fun hi => exec_data_of_rInit_or_rGetbit hi h, hnbits⟩

end Sys2Proof.Machine
end

section
/-! PROOFS. The frames of all instructions put together: what only CB_CLEAR and CB_WRITE change, what the commands leave of
the host's registers, who writes RSTATE, and that a block whose inputs are used up is idle. -/

namespace Sys2Proof.Machine

/-! ### The kinds of instructions -/

theorem instr_kinds (i : Instr) :
    i = .nop ∨ i = .cbClear ∨ (∃ a, i = .cbWrite a) ∨ (∃ a, i = .cbRead a) ∨ IsWriterCommand i ∨ IsReaderCommand i ∨
      (∃ a, i = .busRd a) ∨ ∃ a d, i = .busWr a d := by
  cases i <;> simp [IsWriterCommand, IsReaderCommand]

/-- What a bus write may change: the host's registers, a RAM byte, DROPPED, and ERR and BUSY by an issued command. -/
def State.HostFrame (s t : State) : Prop :=
  t = { s with pending := t.pending, err := t.err, dropped := t.dropped, cbLen := t.cbLen, cbCode := t.cbCode,
               wBitsval := t.wBitsval, wDatalen := t.wDatalen, rNbits := t.rNbits, origLen := t.origLen,
               plAddr := t.plAddr, dtAddr := t.dtAddr, payload := t.payload, data := t.data }

theorem execBusWr_hostFrame {a : RegAddr} {d : Word} {s t : State} (h : execBusWr a d s = .next t) : s.HostFrame t := by
  cases hb : s.busy with
  | true =>
    rw [execBusWr_of_busy hb] at h
    cases h; rfl
  | false =>
    rw [execBusWr_of_idle hb] at h
    cases h
    cases regOfAddr a with
    | none => rfl
    | some r =>
      obtain ⟨t, rfl, ht, -⟩ := writeReg_frame d s r
      exact ht

/-- A completed read changes the words the host has read and the draws only (R68). -/
theorem execBusRd_frame {a : RegAddr} {s t : State} (h : execBusRd a s = .next t) :
    t = { s with replies := t.replies, draws := t.draws } := by
  obtain ⟨v, n, he, -⟩ | ⟨-, r, f, -, -, he⟩ := execBusRd_cases a s
  · rw [he] at h; cases h; rfl
  · rw [he] at h; cases h

/-! ### The codebook -/

/-- Settles O24: the frames of the writer, the reader and the bus leave the codebook out, and CB_WRITE puts one entry. -/
theorem onlyClearAndWriteChangeTheCodebook : Obligations.OnlyClearAndWriteChangeTheCodebook := by
  intro i s t h a hne
  obtain rfl | rfl | ⟨b, rfl⟩ | ⟨b, rfl⟩ | hi | hi | ⟨b, rfl⟩ | ⟨b, d, rfl⟩ := instr_kinds i
  · cases h; exact absurd rfl hne
  · exact .inl rfl
  · cases h
    by_cases hab : a = b
    · exact .inr (congrArg _ hab.symm)
    · exact absurd (Codebook.get_put_ne _ _ hab) hne
  · cases h; exact absurd rfl hne
  · exact absurd (by rw [exec_writerFrame hi h]) hne
  · exact absurd (by rw [(exec_readEnd hi h).frame]) hne
  · exact absurd (by rw [execBusRd_frame h]) hne
  · exact absurd (by rw [execBusWr_hostFrame h]) hne

/-! ### The host's registers -/

theorem exec_stage {i : Instr} {s t : State} (hrd : ∀ a, i ≠ .busRd a) (hwr : ∀ a d, i ≠ .busWr a d)
    (hcb : ∀ a, i ≠ .cbRead a) (h : exec i s = .next t) : t.cbLen = s.cbLen ∧ t.cbCode = s.cbCode := by
  obtain rfl | rfl | ⟨b, rfl⟩ | ⟨b, rfl⟩ | hi | hi | ⟨b, rfl⟩ | ⟨b, d, rfl⟩ := instr_kinds i
  · cases h; exact ⟨rfl, rfl⟩
  · cases h; exact ⟨rfl, rfl⟩
  · cases h; exact ⟨rfl, rfl⟩
  · exact absurd rfl (hcb b)
  · rw [exec_writerFrame hi h]; exact ⟨rfl, rfl⟩
  · rw [(exec_readEnd hi h).frame]; exact ⟨rfl, rfl⟩
  · exact absurd rfl (hrd b)
  · exact absurd rfl (hwr b d)

/-- Settles O51: by the frame of the commands, and CB_READ alone loads the stage. -/
theorem commandsEndAndLeaveTheHostsRegisters : Obligations.CommandsEndAndLeaveTheHostsRegisters := by
  intro i s t hrd hwr h
  have hf := exec_commandFrame hrd hwr h
  refine ⟨congrArg State.busy hf, ?_, ?_, ?_, ?_, ?_, ?_, ?_, ?_, ?_, ?_, ?_, fun hcb => exec_stage hrd hwr hcb h⟩
  all_goals rw [hf]

/-! ### RSTATE -/

/-- A decode step ends with one of the three reader errors and the reader FAILED (R182, R183). -/
theorem decodeStep_ended {s t : State} (h : decodeStep s = .ended t) :
    t.rstate = .failed ∧ (t.err = .exhausted ∨ t.err = .offCode ∨ t.err = .emptyCodebook) := by
  have hstep := decodeStep_outcome s
  rw [h] at hstep
  obtain ⟨ht, -, -, herr⟩ := hstep
  refine ⟨by rw [ht], ?_⟩
  rcases herr with he | ⟨he, -⟩ | ⟨he, -⟩
  · exact .inr (.inl he)
  · exact .inl he
  · exact .inr (.inr he)

/-- A reader error. -/
def IsReaderError (e : ErrCode) : Prop := e = .exhausted ∨ e = .offCode ∨ e = .emptyCodebook

/-- The reader fails from ACTIVE and with a reader error, or RSTATE stays and the code is no reader error. -/
def State.FailsOrStays (s t : State) : Prop :=
  s.rstate = .active ∧ t.rstate = .failed ∧ IsReaderError t.err ∨ t.rstate = s.rstate ∧ ¬ IsReaderError t.err

theorem State.FailsOrStays.finish (s : State) {e : ErrCode} (he : ¬ IsReaderError e) : s.FailsOrStays (s.finish e) :=
  .inr ⟨rfl, he⟩

theorem not_isReaderError_ok : ¬ IsReaderError .ok := by simp [IsReaderError]
theorem not_isReaderError_badState : ¬ IsReaderError .badState := by simp [IsReaderError]
theorem not_isReaderError_badOperand : ¬ IsReaderError .badOperand := by simp [IsReaderError]
theorem not_isReaderError_countReached : ¬ IsReaderError .countReached := by simp [IsReaderError]

theorem State.DecodeEnd.failsOrStays {s t : State} (hr : s.rstate = .active) (h : s.DecodeEnd t) : s.FailsOrStays t := by
  obtain ⟨n, u, hu, rfl | hend⟩ := h
  · exact .inr ⟨by rw [hu.frame]; rfl, not_isReaderError_ok⟩
  · exact .inl ⟨hr, decodeStep_ended hend⟩

theorem exec_failsOrStays {i : Instr} {s t : State} (hi : i = .rGetbit ∨ i = .rDecsym ∨ i = .rDecode)
    (h : exec i s = .next t) : s.FailsOrStays t := by
  obtain rfl | rfl | rfl := hi
  · obtain ⟨-, rfl⟩ | ⟨hr, -, rfl⟩ | ⟨-, -, -, b, rfl⟩ := execRGetbit_cases h
    · exact .finish s not_isReaderError_badState
    · exact .inl ⟨hr, rfl, .inl rfl⟩
    · exact .inr ⟨rfl, not_isReaderError_ok⟩
  · obtain ⟨-, rfl⟩ | ⟨-, rfl⟩ | ⟨hr, hend⟩ := execRDecsym_cases h
    · exact .finish s not_isReaderError_badState
    · exact .finish s not_isReaderError_countReached
    · exact hend.failsOrStays hr
  · obtain ⟨-, rfl⟩ | ⟨-, rfl⟩ | ⟨hr, hend⟩ := execRDecode_cases h
    · exact .finish s not_isReaderError_badState
    · exact .finish s not_isReaderError_badOperand
    · exact hend.failsOrStays hr

/-- Whatever changes RSTATE is a reader command. -/
theorem isReaderCommand_of_rstate_ne {i : Instr} {s t : State} (h : exec i s = .next t) (hne : t.rstate ≠ s.rstate) :
    IsReaderCommand i := by
  obtain rfl | rfl | ⟨b, rfl⟩ | ⟨b, rfl⟩ | hi | hi | ⟨b, rfl⟩ | ⟨b, d, rfl⟩ := instr_kinds i
  · cases h; exact absurd rfl hne
  · cases h; exact absurd rfl hne
  · cases h; exact absurd rfl hne
  · cases h; exact absurd rfl hne
  · exact absurd (by rw [exec_writerFrame hi h]) hne
  · exact hi
  · exact absurd (execBusRd_sameStates h).2 hne
  · exact absurd (execBusWr_sameStates h).2 hne

/-- Settles O42: R_INIT's two cases, and for the other three commands the alternative of `State.FailsOrStays`. -/
theorem readerFailureIsSticky : Obligations.ReaderFailureIsSticky := by
  obtain ⟨-, turnedAway, -⟩ := badStateCommandByCommand
  refine ⟨fun i s t h hne => ?changes, fun i s t h hi herr => ?fails, fun i s hr hi => turnedAway i s (.inr hr) hi⟩
  case changes =>
    obtain rfl | hi := isReaderCommand_of_rstate_ne h hne
    · obtain ⟨-, rfl⟩ | ⟨-, rfl⟩ := execRInit_cases h
      · exact absurd rfl hne
      · exact .inl ⟨rfl, rfl, rfl⟩
    · obtain ⟨hr, hf, he⟩ | ⟨hs, -⟩ := exec_failsOrStays hi h
      · exact .inr ⟨hr, hf, hi, he⟩
      · exact absurd hs hne
  case fails =>
    obtain ⟨-, hf, -⟩ | ⟨-, he⟩ := exec_failsOrStays hi h
    · exact hf
    · exact absurd herr he

/-! ### Nothing is refused -/

theorem appendAll_ne_refused {w n : Nat} (v : BitVec w) (s : State) (r : Refusal) : appendAll n v s ≠ .refused r := by
  unfold appendAll
  split
  · exact nofun
  · split <;> exact nofun

theorem encodeLoop_ne_refused (r : Refusal) : ∀ (left i : Nat) (s : State), encodeLoop left i s ≠ .refused r
  | 0, i, s => nofun
  | left + 1, i, s => by
    rw [encodeLoop]
    dsimp only
    split
    · exact nofun
    · split
      · exact nofun
      · split
        · exact nofun
        · split
          · exact nofun
          · exact encodeLoop_ne_refused r left _ _

theorem decodeLoop_ne_refused (r : Refusal) : ∀ (left : Nat) (s : State), decodeLoop left s ≠ .refused r
  | 0, s => nofun
  | left + 1, s => by
    rw [decodeLoop]
    split
    · exact nofun
    · exact nofun
    · exact decodeLoop_ne_refused r left _

theorem exec_ne_refused (i : Instr) (s : State) (r : Refusal) : exec i s ≠ .refused r := by
  cases i with
  | nop | cbClear | cbWrite a | cbRead a | wInit => exact nofun
  | wPutbit b =>
    simp only [exec, execWPutbit]
    repeat' split
    all_goals exact nofun
  | wPutbits n =>
    simp only [exec, execWPutbits]
    repeat' split
    · exact nofun
    · exact nofun
    · exact appendAll_ne_refused _ s r
  | wPutsym a =>
    simp only [exec, execWPutsym]
    repeat' split
    · exact nofun
    · exact nofun
    · exact appendAll_ne_refused _ s r
  | wEncode =>
    simp only [exec, execWEncode]
    repeat' split
    · exact nofun
    · exact nofun
    · exact encodeLoop_ne_refused r _ _ _
  | wFinal =>
    simp only [exec, execWFinal]
    split <;> exact nofun
  | rInit =>
    simp only [exec, execRInit]
    split <;> exact nofun
  | rGetbit =>
    simp only [exec, execRGetbit]
    repeat' split
    all_goals exact nofun
  | rDecsym =>
    simp only [exec, execRDecsym]
    repeat' split
    all_goals exact nofun
  | rDecode =>
    simp only [exec, execRDecode]
    repeat' split
    · exact nofun
    · exact nofun
    · exact decodeLoop_ne_refused r _ _
  | busRd a =>
    obtain ⟨v, n, he, -⟩ | ⟨-, q, f, -, -, he⟩ := execBusRd_cases a s <;> rw [exec, he] <;> exact nofun
  | busWr a d =>
    simp only [exec, execBusWr]
    repeat' split
    all_goals exact nofun

/-! ### A step takes one input (R117, log 2) -/

theorem exec_inputs {i : Instr} {s t : State} (h : exec i s = .next t) : t.inputs = s.inputs := by
  cases i with
  | busRd a => rw [execBusRd_frame h]
  | busWr a d => rw [execBusWr_hostFrame h]
  | _ => rw [exec_commandFrame (by simp) (by simp) h]

theorem perform_ne_refused (w : Word) (s : State) (r : Refusal) : perform w s ≠ .refused r := by
  unfold perform
  split
  · exact exec_ne_refused _ s r
  · exact nofun

theorem engineTurn_ne_refused (s : State) (r : Refusal) : engineTurn s ≠ .refused r := by
  unfold engineTurn
  split
  · exact perform_ne_refused _ s r
  · exact nofun

/-- After its turn the engine is idle, and the inputs are as they were. -/
theorem engineTurn_idle {s t : State} (h : engineTurn s = .next t) : t.busy = false ∧ t.inputs = s.inputs := by
  unfold engineTurn at h
  split at h
  · rw [perform_commandFrame h]; exact ⟨rfl, rfl⟩
  · rename_i hp
    cases h; exact ⟨(State.busy_eq_false_iff s).2 hp, rfl⟩

theorem step_ne_refused (s : State) (r : Refusal) : step s ≠ .refused r := by
  unfold step nextTurn
  split
  · exact engineTurn_ne_refused s r
  · exact exec_ne_refused _ _ r
  · exact engineTurn_ne_refused _ r
  · exact nofun

theorem step_inputs_cons {x : Input} {rest : List Input} {s t : State} (hi : s.inputs = x :: rest)
    (h : step s = .next t) : t.inputs = rest := by
  rw [step, nextTurn, hi] at h
  cases x with
  | bus q => exact exec_inputs h
  | engine => exact (engineTurn_idle h).2
  | reset => cases h; rfl

theorem step_of_inputs_nil {s : State} (hi : s.inputs = []) : step s = engineTurn s := by
  rw [step, nextTurn, hi]

theorem run_succ_of_next {s t : State} (h : step s = .next t) (n : Nat) :
    Host.Core.run core (n + 1) s = Host.Core.run core n t := by
  have hcore : core.step s = .next t := h
  simp only [Host.Core.run, hcore]

theorem run_succ_of_fault {s : State} {f : Fault} (h : step s = .fault f) (n : Nat) :
    Host.Core.run core (n + 1) s = .fault f := by
  have hcore : core.step s = .fault f := h
  simp only [Host.Core.run, hcore]

/-- Settles O8: every step before the last takes an input off the list, and the last is the engine's. -/
theorem blockIsIdleOnceTheInputsAreUsedUp : Obligations.BlockIsIdleOnceTheInputsAreUsedUp := by
  intro s
  generalize hn : s.inputs.length = n
  induction n generalizing s with
  | zero =>
    have hnil := List.length_eq_zero_iff.1 hn
    cases hs : step s with
    | fault f => cases f with | unwritten ram a => exact .inl ⟨ram, a, run_succ_of_fault hs 0⟩
    | refused r => exact absurd hs (step_ne_refused s r)
    | next t =>
      have ht := hs
      rw [step_of_inputs_nil hnil] at ht
      obtain ⟨hb, hin⟩ := engineTurn_idle ht
      exact .inr ⟨t, run_succ_of_next hs 0, hb, hin.trans hnil⟩
  | succ n ih =>
    obtain ⟨x, rest, hi⟩ := List.exists_cons_of_length_eq_add_one hn
    cases hs : step s with
    | fault f => cases f with | unwritten ram a => exact .inl ⟨ram, a, run_succ_of_fault hs _⟩
    | refused r => exact absurd hs (step_ne_refused s r)
    | next u =>
      rw [run_succ_of_next hs]
      exact ih u (by rw [step_inputs_cons hi hs]; simpa [hi] using hn)

end Sys2Proof.Machine
end

section
/-! PROOFS. The cause of every error (R240-R247): for each code, the commands that end with it and the case they end with it
in, command by command. -/

namespace Sys2Proof.Machine

/-- The cause of code `e` at the end `t` of instruction `i` from `s` (60_exceptions.md §1). -/
def ErrorCause (i : Instr) (s t : State) : ErrCode → Prop
  | .ok => True
  | .illegalCmd => False
  | .badState =>
    (((∃ b, i = .wPutbit b) ∨ (∃ n, i = .wPutbits n) ∨ (∃ a, i = .wPutsym a) ∨ i = .wEncode ∨ i = .wFinal) ∧
      s.wstate ≠ .opened) ∨
    ((i = .rGetbit ∨ i = .rDecsym ∨ i = .rDecode) ∧ s.rstate ≠ .active)
  | .badOperand =>
    (∃ n : BitVec 8, i = .wPutbits n ∧ (n.toNat = 0 ∨ 32 < n.toNat)) ∨
    (i = .wEncode ∧ s.cfg.dataBytes < s.wDatalen.toNat) ∨ (i = .rInit ∧ 8 * s.cfg.payloadBytes < s.rNbits.toNat) ∨
    (i = .rDecode ∧ s.cfg.dataBytes < s.origLen.toNat)
  | .noCode =>
    (∃ a, i = .wPutsym a ∧ (s.codebook.get a).len = 0) ∨
    (i = .wEncode ∧ ∃ a, s.data.read t.wDatapos.toNat = some a ∧ (s.codebook.get a).len = 0)
  | .payloadFull =>
    (∃ b, i = .wPutbit b ∧ 8 * s.cfg.payloadBytes < t.wBitcnt.toNat + 1) ∨
    (∃ n, i = .wPutbits n ∧ 8 * s.cfg.payloadBytes < t.wBitcnt.toNat + n.toNat) ∨
    (∃ a, i = .wPutsym a ∧ 8 * s.cfg.payloadBytes < t.wBitcnt.toNat + (s.codebook.get a).len.toNat) ∨
    (i = .wEncode ∧ ∃ a, s.data.read t.wDatapos.toNat = some a ∧
      8 * s.cfg.payloadBytes < t.wBitcnt.toNat + (s.codebook.get a).len.toNat)
  | .exhausted => (i = .rGetbit ∨ i = .rDecsym ∨ i = .rDecode) ∧
      (s.rNbits.toNat ≤ t.rBitpos.toNat ∨ 8 * s.cfg.payloadBytes ≤ t.rBitpos.toNat)
  | .offCode => (i = .rDecsym ∨ i = .rDecode) ∧
      ∃ bits : List Bool, bits ≠ [] ∧ bits.length = s.codebook.maxlen ∧
        s.rBitpos.toNat + bits.length ≤ t.rBitpos.toNat ∧ s.holdsBits (t.rBitpos.toNat - bits.length) bits ∧
        ∀ a : Symbol, (s.codebook.get a).len ≠ 0 → ¬ (s.codebook.get a).bits <+: bits
  | .emptyCodebook => (i = .rDecsym ∨ i = .rDecode) ∧ ∀ a : Symbol, (s.codebook.get a).len = 0
  | .countReached => i = .rDecsym ∧ s.origLen.toNat ≤ s.rSymcnt.toNat

/-! ### The writer -/

/-- The one error of a whole append. -/
theorem appendAll_err {w n : Nat} {v : BitVec w} {s t : State} (h : appendAll n v s = .next t) :
    t.err = .ok ∨ t.err = .payloadFull ∧ 8 * s.cfg.payloadBytes < t.wBitcnt.toNat + n := by
  by_cases hfit : s.wBitcnt.toNat + n ≤ 8 * s.cfg.payloadBytes
  · rw [appendAll, if_neg (by simpa [State.fits] using hfit)] at h
    split at h <;> cases h
    exact .inl rfl
  · rw [appendAll_of_lt v (Nat.not_le.1 hfit)] at h
    cases h
    exact .inr ⟨rfl, Nat.not_le.1 hfit⟩

/-- The two errors of the loop of W_ENCODE, at the byte W_DATAPOS comes to. -/
theorem encodeLoop_err :
    ∀ (left i : Nat) {s t : State}, i + left < 2 ^ 32 → encodeLoop left i s = .next t →
      t.err = .ok ∨ ∃ a, s.data.read t.wDatapos.toNat = some a ∧
        (t.err = .noCode ∧ (s.codebook.get a).len = 0 ∨
         t.err = .payloadFull ∧ 8 * s.cfg.payloadBytes < t.wBitcnt.toNat + (s.codebook.get a).len.toNat)
  | 0, i, s, t, _, h => by
    rw [encodeLoop] at h
    cases h; exact .inl rfl
  | left + 1, i, s, t, hi, h => by
    have hpos : (BitVec.ofNat 32 i).toNat = i := Nat.mod_eq_of_lt (by omega)
    rw [encodeLoop] at h
    dsimp only at h
    split at h
    · cases h
    · rename_i a ha
      split at h
      · rename_i hlen
        cases h
        refine .inr ⟨a, by simpa [hpos] using ha, .inl ⟨rfl, BitVec.eq_of_toNat_eq hlen⟩⟩
      · split at h
        · rename_i hfit
          cases h
          refine .inr ⟨a, by simpa [hpos] using ha, .inr ⟨rfl, ?_⟩⟩
          simpa [State.fits] using hfit
        · split at h
          · cases h
          · rename_i u hu
            have ih := encodeLoop_err left (i + 1) (by omega) h
            rw [appendCode_frame _ _ hu] at ih
            exact ih

theorem execWPutbit_cause {b : Bool} {s t : State} (h : execWPutbit b s = .next t) :
    ErrorCause (.wPutbit b) s t t.err := by
  by_cases hw : s.wstate = .opened
  · rw [execWPutbit_of_opened b hw] at h
    obtain he | ⟨he, hfull⟩ := appendAll_err h <;> rw [he]
    · trivial
    · exact .inl ⟨b, rfl, hfull⟩
  · rw [execWPutbit_of_ne_opened b hw] at h
    cases h; exact .inl ⟨.inl ⟨b, rfl⟩, hw⟩

theorem execWPutbits_cause {n : BitVec 8} {s t : State} (h : execWPutbits n s = .next t) :
    ErrorCause (.wPutbits n) s t t.err := by
  unfold execWPutbits at h
  split at h
  · rename_i hw
    cases h; exact .inl ⟨.inr (.inl ⟨n, rfl⟩), hw⟩
  · split at h
    · rename_i hn
      cases h; exact .inl ⟨n, rfl, hn⟩
    · obtain he | ⟨he, hfull⟩ := appendAll_err h <;> rw [he]
      · trivial
      · exact .inr (.inl ⟨n, rfl, hfull⟩)

theorem execWPutsym_cause {a : Symbol} {s t : State} (h : execWPutsym a s = .next t) :
    ErrorCause (.wPutsym a) s t t.err := by
  unfold execWPutsym at h
  dsimp only at h
  split at h
  · rename_i hw
    cases h; exact .inl ⟨.inr (.inr (.inl ⟨a, rfl⟩)), hw⟩
  · split at h
    · rename_i hlen
      cases h; exact .inl ⟨a, rfl, BitVec.eq_of_toNat_eq hlen⟩
    · obtain he | ⟨he, hfull⟩ := appendAll_err h <;> rw [he]
      · trivial
      · exact .inr (.inr (.inl ⟨a, rfl, hfull⟩))

theorem execWEncode_cause {s t : State} (h : execWEncode s = .next t) : ErrorCause .wEncode s t t.err := by
  unfold execWEncode at h
  split at h
  · rename_i hw
    cases h; exact .inl ⟨.inr (.inr (.inr (.inl rfl))), hw⟩
  · split at h
    · rename_i hlen
      cases h; exact .inr (.inl ⟨rfl, hlen⟩)
    · have hlt := s.wDatalen.isLt
      obtain he | ⟨a, ha, ⟨he, hlen⟩ | ⟨he, hfull⟩⟩ := encodeLoop_err _ 0 (by omega) h <;> rw [he]
      · trivial
      · exact .inr ⟨rfl, a, ha, hlen⟩
      · exact .inr (.inr (.inr ⟨rfl, a, ha, hfull⟩))

theorem execWFinal_cause {s t : State} (h : execWFinal s = .next t) : ErrorCause .wFinal s t t.err := by
  obtain ⟨hw, rfl⟩ | ⟨-, rfl⟩ := execWFinal_cases h
  · exact .inl ⟨.inr (.inr (.inr (.inr rfl))), hw⟩
  · trivial

/-! ### The reader -/

theorem execRInit_cause {s t : State} (h : execRInit s = .next t) : ErrorCause .rInit s t t.err := by
  obtain ⟨hn, rfl⟩ | ⟨-, rfl⟩ := execRInit_cases h
  · exact .inr (.inr (.inl ⟨rfl, hn⟩))
  · trivial

theorem execRGetbit_cause {s t : State} (h : execRGetbit s = .next t) : ErrorCause .rGetbit s t t.err := by
  obtain ⟨hr, rfl⟩ | ⟨-, hend, rfl⟩ | ⟨-, -, -, b, rfl⟩ := execRGetbit_cases h
  · exact .inr ⟨.inl rfl, hr⟩
  · exact ⟨.inl rfl, hend⟩
  · trivial

/-- The three reader errors of a decoding command come from its last decode step. -/
theorem State.DecodeEnd.cause {i : Instr} (hi : i = .rDecsym ∨ i = .rDecode) {s t : State} (h : s.DecodeEnd t) :
    ErrorCause i s t t.err := by
  obtain ⟨n, u, hu, rfl | hend⟩ := h
  · trivial
  · have hpos := hu.bitpos
    have hcb : u.codebook = s.codebook := by rw [hu.frame]
    have hnb : u.rNbits = s.rNbits := by rw [hu.frame]
    have hcfg : u.cfg = s.cfg := by rw [hu.frame]
    have hpl : u.payload = s.payload := by rw [hu.frame]
    have hstep := decodeStep_outcome u
    rw [hend] at hstep
    obtain ⟨-, -, -, he | ⟨he, hout⟩ | ⟨he, hempty, -⟩⟩ := hstep
    · obtain ⟨hne, bits, hlen, hto, hbits, hno⟩ := decodeStep_offCode_cause hend he
      rw [hcb] at hne hlen hto hno
      have hmax : 0 < s.codebook.maxlen := by
        by_contra h0
        have hall := (s.codebook.maxlen_le_iff 0).1 (by omega)
        rw [(Codebook.isEmpty_iff _).2 fun a => BitVec.eq_of_toNat_eq (Nat.le_zero.1 (hall a))] at hne
        cases hne
      rw [he]
      refine ⟨hi, bits, List.ne_nil_of_length_pos (by omega), hlen, by omega, fun j hj => ?_, hno⟩
      rw [show t.rBitpos.toNat - bits.length = u.rBitpos.toNat by omega, ← hbits j hj]
      exact State.payloadBit_congr (by rw [hpl])
    · rw [hnb, hcfg] at hout
      rw [he]
      exact ⟨hi.elim (fun h => .inr (.inl h)) fun h => .inr (.inr h), hout⟩
    · rw [hcb] at hempty
      rw [he]
      exact ⟨hi, (Codebook.isEmpty_iff _).1 hempty⟩

theorem execRDecsym_cause {s t : State} (h : execRDecsym s = .next t) : ErrorCause .rDecsym s t t.err := by
  obtain ⟨hr, rfl⟩ | ⟨hc, rfl⟩ | ⟨-, hend⟩ := execRDecsym_cases h
  · exact .inr ⟨.inr (.inl rfl), hr⟩
  · exact ⟨rfl, hc⟩
  · exact hend.cause (.inl rfl)

theorem execRDecode_cause {s t : State} (h : execRDecode s = .next t) : ErrorCause .rDecode s t t.err := by
  obtain ⟨hr, rfl⟩ | ⟨hlen, rfl⟩ | ⟨-, hend⟩ := execRDecode_cases h
  · exact .inr ⟨.inr (.inr rfl), hr⟩
  · exact .inr (.inr (.inr ⟨rfl, hlen⟩))
  · exact hend.cause (.inr rfl)

/-! ### All commands -/

theorem exec_errorCause {i : Instr} {s t : State} (hrd : ∀ a, i ≠ .busRd a) (hwr : ∀ a d, i ≠ .busWr a d)
    (h : exec i s = .next t) : ErrorCause i s t t.err := by
  cases i with
  | nop | cbClear | cbWrite a | cbRead a | wInit => cases h; trivial
  | wPutbit b => exact execWPutbit_cause h
  | wPutbits n => exact execWPutbits_cause h
  | wPutsym a => exact execWPutsym_cause h
  | wEncode => exact execWEncode_cause h
  | wFinal => exact execWFinal_cause h
  | rInit => exact execRInit_cause h
  | rGetbit => exact execRGetbit_cause h
  | rDecsym => exact execRDecsym_cause h
  | rDecode => exact execRDecode_cause h
  | busRd a => exact absurd rfl (hrd a)
  | busWr a d => exact absurd rfl (hwr a d)

/-- Settles O49: the clause of each code is its line of `ErrorCause`. -/
theorem everyErrorHasItsCause : Obligations.EveryErrorHasItsCause := by
  intro i s t hrd hwr h
  have hcause := exec_errorCause hrd hwr h
  have of (e : ErrCode) (he : t.err = e) : ErrorCause i s t e := he ▸ hcause
  exact ⟨of .illegalCmd, of .badState, of .badOperand, of .noCode, of .payloadFull, of .exhausted, of .offCode,
    of .emptyCodebook, of .countReached⟩

end Sys2Proof.Machine
end

section
/-! PROOFS. The invariant (R36, R37, R38, R47, R50, R52): what an append command and a decoding command leave of a state that
has it, that every instruction and every step keeps it, and that under it only a read of an unwritten byte stops. -/

namespace Sys2Proof.Machine

/-! ### Reset -/

theorem resetWith_inv {cfg : Config} (hc : cfg.Legal) : (State.resetWith cfg).Inv where
  cfgLegal := hc
  payloadWf := .nil
  payloadWithin := nofun
  dataWf := .nil
  dataWithin := nofun
  codebookWf a := by rw [show (State.resetWith cfg).codebook = Codebook.cleared from rfl, Codebook.get_cleared]; decide
  bitcnt := Nat.zero_le _
  partialByte h := absurd rfl h
  padOpen _ := rfl
  padFinal := nofun
  datapos := Nat.zero_le _
  bitpos := Nat.zero_le _
  symcnt := Nat.zero_le _
  busyErr _ := rfl

/-- Settles O52. -/
theorem invariantHoldsAtReset : Obligations.InvariantHoldsAtReset :=
  ⟨fun _ => resetWith_inv, rfl, resetWith_inv (by decide)⟩

/-! ### What the invariant looks at -/

theorem State.Inv.finish {s : State} (hs : s.Inv) (e : ErrCode) : (s.finish e).Inv :=
  ⟨hs.cfgLegal, hs.payloadWf, hs.payloadWithin, hs.dataWf, hs.dataWithin, hs.codebookWf, hs.bitcnt, hs.partialByte,
    hs.padOpen, hs.padFinal, hs.datapos, hs.bitpos, hs.symcnt, nofun⟩

/-! ### The writer -/

/-- `t` is what a command that appends may leave of an open writer `s` that has the invariant. -/
structure State.AppendEnd (s t : State) : Prop where
  frame : t = { s with payload := t.payload, wBitcnt := t.wBitcnt, wDatapos := t.wDatapos, err := t.err, pending := none }
  appended : ∃ bits, s.Appended t bits
  held : t.partialHeld
  fits : t.wBitcnt.toNat ≤ s.cfg.payloadBits
  wf : t.payload.wf
  within : ∀ c ∈ t.payload, c.1 < s.cfg.payloadBytes
  datapos : t.wDatapos.toNat ≤ s.cfg.dataBytes

theorem State.AppendEnd.finish {s : State} (hs : s.Inv) (e : ErrCode) : s.AppendEnd (s.finish e) :=
  ⟨rfl, ⟨[], (State.Appended.refl hs.partialByte).congr rfl rfl rfl rfl⟩, hs.partialByte, hs.bitcnt, hs.payloadWf,
    hs.payloadWithin, hs.datapos⟩

/-- An append command from an open writer keeps the invariant. -/
theorem State.AppendEnd.inv {s t : State} (h : s.AppendEnd t) (hs : s.Inv) (hw : s.wstate = .opened) : t.Inv := by
  obtain ⟨hframe, -, hheld, hfits, hwf, hwithin, hpos⟩ := h
  rw [hframe]
  exact ⟨hs.cfgLegal, hwf, hwithin, hs.dataWf, hs.dataWithin, hs.codebookWf, hfits, hheld, hs.padOpen,
    fun hf => (nomatch hw.symm.trans hf), hpos, hs.bitpos, hs.symcnt, nofun⟩

/-- What becomes of a command that appends: it is turned away, or it comes to an end of an append. -/
def State.AppendOrTurnedAway (s t : State) : Prop :=
  (∃ e, t = s.finish e) ∨ s.wstate = .opened ∧ s.AppendEnd t

theorem appendAll_end {w : Nat} (n : Nat) (v : BitVec w) {s : State} (hs : s.Inv) :
    ∃ t, appendAll n v s = .next t ∧ s.AppendEnd t := by
  obtain ⟨-, he⟩ | ⟨hfit, t, he, ht, happ, hheld, hwf, hwithin⟩ := appendAll_outcome n v hs.cfgLegal hs.partialByte
  · exact ⟨_, he, .finish hs _⟩
  · have hcnt := happ.1
    rw [length_msbFirst] at hcnt
    have hpos : t.wDatapos = s.wDatapos := by rw [ht]
    exact ⟨t, he, by rw [ht], ⟨_, happ⟩, hheld, by omega, hwf hs.payloadWf, hwithin hs.payloadWithin,
      by rw [hpos]; exact hs.datapos⟩

theorem execWPutbit_end (b : Bool) {s : State} (hs : s.Inv) :
    ∃ t, execWPutbit b s = .next t ∧ s.AppendOrTurnedAway t := by
  by_cases hw : s.wstate = .opened
  · obtain ⟨t, he, ht⟩ := appendAll_end 1 (BitVec.ofBool b) hs
    exact ⟨t, (execWPutbit_of_opened b hw).trans he, .inr ⟨hw, ht⟩⟩
  · exact ⟨_, execWPutbit_of_ne_opened b hw, .inl ⟨_, rfl⟩⟩

theorem execWPutbits_end (n : BitVec 8) {s : State} (hs : s.Inv) :
    ∃ t, execWPutbits n s = .next t ∧ s.AppendOrTurnedAway t := by
  by_cases hw : s.wstate = .opened
  · by_cases hn : n.toNat = 0 ∨ 33 ≤ n.toNat
    · exact ⟨_, execWPutbits_of_bad_count hw hn, .inl ⟨_, rfl⟩⟩
    · obtain ⟨t, he, ht⟩ := appendAll_end n.toNat s.wBitsval hs
      exact ⟨t, (execWPutbits_of_good_count hw (by omega) (by omega)).trans he, .inr ⟨hw, ht⟩⟩
  · exact ⟨_, execWPutbits_of_ne_opened n hw, .inl ⟨_, rfl⟩⟩

/-- An OPEN writer appends the code of a coded symbol (R158). -/
theorem execWPutsym_of_coded {s : State} {a : Symbol} (hw : s.wstate = .opened) (ha : (s.codebook.get a).len ≠ 0) :
    execWPutsym a s = appendAll (s.codebook.get a).len.toNat (s.codebook.get a).code s := by
  have hlen : (s.codebook.get a).len.toNat ≠ 0 := fun h => ha (BitVec.eq_of_toNat_eq h)
  simp only [execWPutsym]
  rw [if_neg (not_not.2 hw), if_neg hlen]

theorem execWPutsym_end (a : Symbol) {s : State} (hs : s.Inv) :
    ∃ t, execWPutsym a s = .next t ∧ s.AppendOrTurnedAway t := by
  by_cases hw : s.wstate = .opened
  · by_cases ha : (s.codebook.get a).len = 0
    · exact ⟨_, execWPutsym_of_len_eq_zero hw ha, .inl ⟨_, rfl⟩⟩
    · obtain ⟨t, he, ht⟩ := appendAll_end (s.codebook.get a).len.toNat (s.codebook.get a).code hs
      exact ⟨t, (execWPutsym_of_coded hw ha).trans he, .inr ⟨hw, ht⟩⟩
  · exact ⟨_, execWPutsym_of_ne_opened a hw, .inl ⟨_, rfl⟩⟩

/-- Past its checks W_ENCODE is its loop from byte 0 (R160). -/
theorem execWEncode_of_opened {s : State} (hw : s.wstate = .opened) (hlen : s.wDatalen.toNat ≤ s.cfg.dataBytes) :
    execWEncode s = encodeLoop s.wDatalen.toNat 0 { s with wDatapos := 0 } := by
  rw [execWEncode, if_neg (not_not.2 hw), if_neg (Nat.not_lt.2 hlen)]

theorem execWEncode_of_bad_operand {s : State} (hw : s.wstate = .opened) (hlen : s.cfg.dataBytes < s.wDatalen.toNat) :
    execWEncode s = .next (s.finish .badOperand) := by
  rw [execWEncode, if_neg (not_not.2 hw), if_pos hlen]

/-- W_ENCODE ends like the other commands that append, or stops at an unwritten byte of the data it packs. -/
theorem execWEncode_end {s : State} (hs : s.Inv) :
    (∃ t, execWEncode s = .next t ∧ s.AppendOrTurnedAway t) ∨
    ∃ a, execWEncode s = .fault (.unwritten .data a) ∧ s.data.read a = none ∧ a < s.cfg.dataBytes := by
  by_cases hw : s.wstate = .opened
  · by_cases hlen : s.wDatalen.toNat ≤ s.cfg.dataBytes
    · have hloop := encodeLoop_outcome s.wDatalen.toNat 0 (s := { s with wDatapos := 0 }) hs.cfgLegal hs.partialByte
        hs.bitcnt (by have := s.wDatalen.isLt; omega)
      rw [execWEncode_of_opened hw hlen]
      generalize encodeLoop s.wDatalen.toNat 0 { s with wDatapos := 0 } = o at hloop ⊢
      cases o with
      | next t =>
        obtain ⟨hframe, ⟨bits, happ⟩, hheld, hfits, hwf, hwithin, -, hpos, -⟩ := hloop
        exact .inl ⟨t, rfl, .inr ⟨hw, hframe, ⟨bits, happ.congr rfl rfl rfl rfl⟩, hheld, hfits, hwf hs.payloadWf,
          hwithin hs.payloadWithin, by omega⟩⟩
      | fault f =>
        obtain ⟨a, -, ha, rfl, hread⟩ := hloop
        exact .inr ⟨a, rfl, hread, by omega⟩
      | refused r => exact hloop.elim
    · exact .inl ⟨_, execWEncode_of_bad_operand hw (Nat.not_le.1 hlen), .inl ⟨_, rfl⟩⟩
  · exact .inl ⟨_, execWEncode_of_ne_opened hw, .inl ⟨_, rfl⟩⟩

/-- The four commands that append, from a state that has the invariant. -/
theorem exec_appendOrTurnedAway {i : Instr} {s t : State} (hs : s.Inv)
    (hi : (∃ b, i = .wPutbit b) ∨ (∃ n, i = .wPutbits n) ∨ (∃ a, i = .wPutsym a) ∨ i = .wEncode)
    (h : exec i s = .next t) : s.AppendOrTurnedAway t := by
  obtain ⟨b, rfl⟩ | ⟨n, rfl⟩ | ⟨a, rfl⟩ | rfl := hi
  · obtain ⟨u, he, hu⟩ := execWPutbit_end b hs
    cases h.symm.trans he; exact hu
  · obtain ⟨u, he, hu⟩ := execWPutbits_end n hs
    cases h.symm.trans he; exact hu
  · obtain ⟨u, he, hu⟩ := execWPutsym_end a hs
    cases h.symm.trans he; exact hu
  · obtain ⟨u, he, hu⟩ | ⟨a, he, -⟩ := execWEncode_end hs
    · cases h.symm.trans he; exact hu
    · cases h.symm.trans he

theorem State.AppendOrTurnedAway.inv {s t : State} (h : s.AppendOrTurnedAway t) (hs : s.Inv) : t.Inv := by
  obtain ⟨e, rfl⟩ | ⟨hw, ht⟩ := h
  · exact hs.finish e
  · exact ht.inv hs hw

theorem execWFinal_inv {s t : State} (hs : s.Inv) (h : execWFinal s = .next t) : t.Inv := by
  obtain ⟨-, rfl⟩ | ⟨-, rfl⟩ := execWFinal_cases h
  · exact hs.finish _
  · exact { hs.finish .ok with padOpen := fun hne => absurd rfl hne, padFinal := fun _ => padCount_toNat s.wBitcnt }

/-! ### The reader -/

/-- What the loop of R_DECODE leaves of a state that has the invariant. -/
theorem decodeLoop_inv {left : Nat} {s t : State} (hs : s.Inv) (h : decodeLoop left s = .next t) : t.Inv := by
  have hloop := decodeLoop_outcome left hs.symcnt hs.bitpos
  rw [h] at hloop
  obtain ⟨hframe, -, -, hsym, -, hpos, hwf, hwithin, -⟩ := hloop
  have hdwf := hwf hs.dataWf
  have hdwithin := hwithin hs.dataWithin
  rw [hframe]
  exact ⟨hs.cfgLegal, hs.payloadWf, hs.payloadWithin, hdwf, hdwithin, hs.codebookWf, hs.bitcnt, hs.partialByte,
    hs.padOpen, hs.padFinal, hs.datapos, hpos, hsym, nofun⟩

theorem execRGetbit_inv {s t : State} (hs : s.Inv) (h : execRGetbit s = .next t) : t.Inv := by
  obtain ⟨-, rfl⟩ | ⟨-, -, rfl⟩ | ⟨-, hn, hp, b, rfl⟩ := execRGetbit_cases h
  · exact hs.finish _
  · exact { hs.finish .exhausted with }
  · have hadd : (s.rBitpos + 1).toNat = s.rBitpos.toNat + 1 := rBitpos_add (n := 1) hn
    have hsym := hs.symcnt
    exact { hs.finish .ok with
      bitpos := by show (s.rBitpos + 1).toNat ≤ s.cfg.payloadBits; omega
      symcnt := by show s.rSymcnt.toNat ≤ (s.rBitpos + 1).toNat; omega }

theorem execRDecsym_inv {s t : State} (hs : s.Inv) (h : execRDecsym s = .next t) : t.Inv := by
  by_cases hr : s.rstate = .active
  · by_cases hc : s.rSymcnt.toNat < s.origLen.toNat
    · rw [execRDecsym_eq_decodeLoop_one hr hc] at h
      exact decodeLoop_inv hs h
    · rw [execRDecsym_of_count_reached hr (Nat.not_lt.1 hc)] at h
      cases h; exact hs.finish _
  · rw [execRDecsym_of_ne_active hr] at h
    cases h; exact hs.finish _

theorem execRDecode_inv {s t : State} (hs : s.Inv) (h : execRDecode s = .next t) : t.Inv := by
  unfold execRDecode at h
  split at h
  · cases h; exact hs.finish _
  · split at h
    · cases h; exact hs.finish _
    · exact decodeLoop_inv hs h

theorem execRInit_inv {s t : State} (hs : s.Inv) (h : execRInit s = .next t) : t.Inv := by
  obtain ⟨-, rfl⟩ | ⟨-, rfl⟩ := execRInit_cases h
  · exact hs.finish _
  · exact { hs.finish .ok with bitpos := Nat.zero_le _, symcnt := Nat.le_refl _ }

/-! ### The bus and the codebook commands -/

theorem writeReg_inv {s : State} (hs : s.Inv) (d : Word) (r : Reg) : (writeReg d s r).Inv := by
  obtain ⟨t, rfl, hframe, hpl, hdt, herr⟩ := writeReg_frame d s r
  have hplWf : (writeReg d s r).payload.wf := by
    obtain he | ⟨-, he⟩ := hpl <;> rw [he]
    · exact hs.payloadWf
    · exact Memory.write_wf hs.payloadWf _ _
  have hplWithin : ∀ c ∈ (writeReg d s r).payload, c.1 < s.cfg.payloadBytes := by
    obtain he | ⟨hlt, he⟩ := hpl <;> rw [he]
    · exact hs.payloadWithin
    · exact Memory.write_within hs.payloadWithin hlt _
  have hheld (hm : s.wBitcnt.toNat % 8 ≠ 0) : ((writeReg d s r).payload.read (s.wBitcnt.toNat / 8)).isSome := by
    obtain he | ⟨-, he⟩ := hpl <;> rw [he]
    · exact hs.partialByte hm
    · exact Memory.isSome_read_write (hs.partialByte hm) _ _
  have hdtWf : (writeReg d s r).data.wf := by
    obtain he | ⟨-, he⟩ := hdt <;> rw [he]
    · exact hs.dataWf
    · exact Memory.write_wf hs.dataWf _ _
  have hdtWithin : ∀ c ∈ (writeReg d s r).data, c.1 < s.cfg.dataBytes := by
    obtain he | ⟨hlt, he⟩ := hdt <;> rw [he]
    · exact hs.dataWithin
    · exact Memory.write_within hs.dataWithin hlt _
  have hbusy (hb : (writeReg d s r).busy = true) : (writeReg d s r).err = .ok := by
    obtain ⟨hp, he⟩ | ⟨-, he⟩ := herr
    · rw [he]
      exact hs.busyErr (by rw [State.busy, ← hp]; exact hb)
    · exact he
  rw [hframe]
  exact ⟨hs.cfgLegal, hplWf, hplWithin, hdtWf, hdtWithin, hs.codebookWf, hs.bitcnt, hheld, hs.padOpen, hs.padFinal,
    hs.datapos, hs.bitpos, hs.symcnt, hbusy⟩

theorem execBusWr_inv {a : RegAddr} {d : Word} {s t : State} (hs : s.Inv) (h : execBusWr a d s = .next t) : t.Inv := by
  cases hb : s.busy with
  | true =>
    rw [execBusWr_of_busy hb] at h
    cases h; exact { hs with }
  | false =>
    rw [execBusWr_of_idle hb] at h
    cases h
    cases regOfAddr a with
    | none => exact hs
    | some r => exact writeReg_inv hs d r

theorem execCbWrite_inv {a : Symbol} {s t : State} (hs : s.Inv) (h : execCbWrite a s = .next t) : t.Inv := by
  cases h
  refine { hs.finish .ok with codebookWf := fun b => ?_ }
  show ((s.codebook.put a _).get b).wf
  rw [Codebook.get_put]
  split
  · exact entryOfStage_wf _ _
  · exact hs.codebookWf b

/-! ### Every instruction and every step -/

theorem exec_inv {i : Instr} {s t : State} (hs : s.Inv) (h : exec i s = .next t) : t.Inv := by
  cases i with
  | nop => cases h; exact hs.finish _
  | cbClear =>
    cases h
    exact { hs.finish .ok with codebookWf := (resetWith_inv hs.cfgLegal).codebookWf }
  | cbWrite a => exact execCbWrite_inv hs h
  | cbRead a => cases h; exact { hs.finish .ok with }
  | wInit =>
    cases h
    exact { hs.finish .ok with
      bitcnt := Nat.zero_le _, partialByte := fun hm => absurd rfl hm, padOpen := fun _ => rfl, padFinal := nofun,
      datapos := Nat.zero_le _ }
  | wPutbit b => exact (exec_appendOrTurnedAway hs (.inl ⟨b, rfl⟩) h).inv hs
  | wPutbits n => exact (exec_appendOrTurnedAway hs (.inr (.inl ⟨n, rfl⟩)) h).inv hs
  | wPutsym a => exact (exec_appendOrTurnedAway hs (.inr (.inr (.inl ⟨a, rfl⟩))) h).inv hs
  | wEncode => exact (exec_appendOrTurnedAway hs (.inr (.inr (.inr rfl))) h).inv hs
  | wFinal => exact execWFinal_inv hs h
  | rInit => exact execRInit_inv hs h
  | rGetbit => exact execRGetbit_inv hs h
  | rDecsym => exact execRDecsym_inv hs h
  | rDecode => exact execRDecode_inv hs h
  | busRd a => rw [execBusRd_frame h]; exact { hs with }
  | busWr a d => exact execBusWr_inv hs h

/-- Settles O53. -/
theorem everyInstructionKeepsTheInvariant : Obligations.EveryInstructionKeepsTheInvariant :=
  fun _ _ _ hs h => exec_inv hs h

theorem engineTurn_inv {s t : State} (hs : s.Inv) (h : engineTurn s = .next t) : t.Inv := by
  unfold engineTurn at h
  split at h
  · unfold perform at h
    split at h
    · exact exec_inv hs h
    · cases h; exact hs.finish _
  · cases h; exact hs

/-- Settles O54: the turns of the host and the engine run an instruction or change nothing the invariant looks at, and
reset leaves the reset values of the same build. -/
theorem everyStepKeepsTheInvariant : Obligations.EveryStepKeepsTheInvariant := by
  intro s t hs h
  have hin (rest : List Input) : State.Inv { s with inputs := rest } := { hs with }
  rw [step, nextTurn] at h
  split at h
  · exact engineTurn_inv hs h
  · exact exec_inv (hin _) h
  · exact engineTurn_inv (hin _) h
  · cases h; exact { resetWith_inv hs.cfgLegal with }

end Sys2Proof.Machine
end

section
/-! PROOFS. What stops the machine under the invariant (R63): the four reads of an unwritten byte. -/

namespace Sys2Proof.Machine

theorem readBit_stopped {s : State} {f : Fault} (h : readBit s = .stopped f) :
    f = .unwritten .payload (s.rBitpos.toNat / 8) ∧ s.payload.read (s.rBitpos.toNat / 8) = none ∧
      s.rBitpos.toNat < s.cfg.payloadBits := by
  obtain ⟨-, he⟩ | ⟨-, hp, ⟨hnone, he⟩ | ⟨b, -, he⟩⟩ := readBit_cases s <;> rw [he] at h <;> cases h
  exact ⟨rfl, hnone, hp⟩

theorem execRGetbit_fault {s : State} {f : Fault} (h : execRGetbit s = .fault f) :
    ∃ a, f = .unwritten .payload a ∧ s.payload.read a = none ∧ a < s.cfg.payloadBytes := by
  unfold execRGetbit at h
  split at h
  · cases h
  · split at h
    · rename_i f' hf
      cases h
      obtain ⟨rfl, hnone, hlt⟩ := readBit_stopped hf
      exact ⟨_, rfl, hnone, by simp only [Config.payloadBits] at hlt; omega⟩
    · cases h
    · cases h

theorem decodeLoop_fault {left : Nat} {s : State} {f : Fault} (hs : s.Inv) (h : decodeLoop left s = .fault f) :
    ∃ a, f = .unwritten .payload a ∧ s.payload.read a = none ∧ a < s.cfg.payloadBytes := by
  have hloop := decodeLoop_outcome left hs.symcnt hs.bitpos
  rw [h] at hloop
  obtain ⟨a, hf, hnone, hlt⟩ := hloop
  exact ⟨a, hf, hnone, by simp only [Config.payloadBits] at hlt; omega⟩

theorem execRDecsym_fault {s : State} {f : Fault} (hs : s.Inv) (h : execRDecsym s = .fault f) :
    ∃ a, f = .unwritten .payload a ∧ s.payload.read a = none ∧ a < s.cfg.payloadBytes := by
  by_cases hr : s.rstate = .active
  · by_cases hc : s.rSymcnt.toNat < s.origLen.toNat
    · rw [execRDecsym_eq_decodeLoop_one hr hc] at h
      exact decodeLoop_fault hs h
    · cases (execRDecsym_of_count_reached hr (Nat.not_lt.1 hc)).symm.trans h
  · cases (execRDecsym_of_ne_active hr).symm.trans h

theorem execRDecode_fault {s : State} {f : Fault} (hs : s.Inv) (h : execRDecode s = .fault f) :
    ∃ a, f = .unwritten .payload a ∧ s.payload.read a = none ∧ a < s.cfg.payloadBytes := by
  unfold execRDecode at h
  split at h
  · cases h
  · split at h
    · cases h
    · exact decodeLoop_fault hs h

/-- A read of the bus stops only at one of the two windows. -/
theorem execBusRd_fault {a : RegAddr} {s : State} {f : Fault} (h : execBusRd a s = .fault f) :
    (a = 0x41 ∧ f = .unwritten .payload s.plAddr.toNat ∧ s.payload.read s.plAddr.toNat = none ∧
      s.plAddr.toNat < s.cfg.payloadBytes) ∨
    (a = 0x43 ∧ f = .unwritten .data s.dtAddr.toNat ∧ s.data.read s.dtAddr.toNat = none ∧
      s.dtAddr.toNat < s.cfg.dataBytes) := by
  obtain ⟨v, n, he, -⟩ | ⟨-, r, g, hreg, hread, he⟩ := execBusRd_cases a s <;> rw [he] at h <;> cases h
  have ha := (regOfAddr_eq_some_iff a r).1 hreg
  obtain ⟨rfl, rfl, hlt, hnone⟩ | ⟨rfl, rfl, hlt, hnone⟩ := readReg_error hread
  · exact .inl ⟨ha, rfl, hnone, hlt⟩
  · exact .inr ⟨ha, rfl, hnone, hlt⟩

theorem execBusWr_ne_fault (a : RegAddr) (d : Word) (s : State) (f : Fault) : execBusWr a d s ≠ .fault f := by
  cases hb : s.busy with
  | true => rw [execBusWr_of_busy hb]; exact nofun
  | false => rw [execBusWr_of_idle hb]; exact nofun

/-- Settles O7: no instruction refuses, and under the invariant an append finds the byte it merges with. -/
theorem onlyUnwrittenBytesStopTheMachine : Obligations.OnlyUnwrittenBytesStopTheMachine := by
  refine fun i s hs => ⟨exec_ne_refused i s, fun f h => ?_⟩
  cases i with
  | nop | cbClear | cbWrite a | cbRead a | wInit => cases h
  | wPutbit b =>
    obtain ⟨t, he, -⟩ := execWPutbit_end b hs
    cases he.symm.trans h
  | wPutbits n =>
    obtain ⟨t, he, -⟩ := execWPutbits_end n hs
    cases he.symm.trans h
  | wPutsym a =>
    obtain ⟨t, he, -⟩ := execWPutsym_end a hs
    cases he.symm.trans h
  | wEncode =>
    obtain ⟨t, he, -⟩ | ⟨a, he, hnone, hlt⟩ := execWEncode_end hs
    · cases he.symm.trans h
    · cases he.symm.trans h
      exact .inr ⟨a, rfl, hnone, hlt, .inl rfl⟩
  | wFinal =>
    by_cases hw : s.wstate = .opened
    · cases (execWFinal_of_opened hw).symm.trans h
    · cases (execWFinal_of_ne_opened hw).symm.trans h
  | rInit =>
    simp only [exec, execRInit] at h
    split at h <;> cases h
  | rGetbit =>
    obtain ⟨a, hf, hnone, hlt⟩ := execRGetbit_fault h
    exact .inl ⟨a, hf, hnone, hlt, .inl rfl⟩
  | rDecsym =>
    obtain ⟨a, hf, hnone, hlt⟩ := execRDecsym_fault hs h
    exact .inl ⟨a, hf, hnone, hlt, .inr (.inl rfl)⟩
  | rDecode =>
    obtain ⟨a, hf, hnone, hlt⟩ := execRDecode_fault hs h
    exact .inl ⟨a, hf, hnone, hlt, .inr (.inr (.inl rfl))⟩
  | busRd a =>
    obtain ⟨rfl, hf, hnone, hlt⟩ | ⟨rfl, hf, hnone, hlt⟩ := execBusRd_fault h
    · exact .inl ⟨_, hf, hnone, hlt, .inr (.inr (.inr rfl))⟩
    · exact .inr ⟨_, hf, hnone, hlt, .inr rfl⟩
  | busWr a d => exact absurd h (execBusWr_ne_fault a d s f)

end Sys2Proof.Machine
end
section
/-! PROOFS. The packed stream (R50, R151-R164): W_PUTSYM and W_ENCODE, the frame of the writer commands in PL, the zero tail,
and the stream as the concatenation of what was appended. -/

namespace Sys2Proof.Machine

/-! ### AppendBit (R151) -/

/-- `b << (7 - j)` as a number. -/
theorem bitInByte_eq (b : Bool) {j : Nat} (hj : j < 8) : bitInByte b j = BitVec.ofNat 8 (b.toNat * 2 ^ (7 - j)) := by
  cases b
  · simp [bitInByte]
  · interval_cases j <;> rfl

/-- Settles O26: the byte of the bit is overwritten when the bit is its first, and merged otherwise. -/
theorem appendBitWritesThrough : Obligations.AppendBitWritesThrough := by
  intro s b hl hlt hheld
  have hmax := Config.payloadBits_le_of_legal hl
  have hcnt : (s.wBitcnt + 1).toNat = s.wBitcnt.toNat + 1 := by
    rw [BitVec.toNat_add]; exact Nat.mod_eq_of_lt (by simp; omega)
  obtain ⟨hj, hnone, -⟩ | ⟨v, he, hv⟩ := appendBit_cases b s
  · have hsome := hheld hj
    rw [hnone] at hsome
    cases hsome
  · refine ⟨_, he, rfl, hcnt, fun hj => ?_, fun w hj hw => ?_, fun a ha => Memory.read_write_ne _ _ ha⟩
    · obtain ⟨-, rfl⟩ | ⟨hj', -⟩ := hv
      · rw [bitInByte_eq b (by decide)]
        exact Memory.read_write_self ..
      · exact absurd hj hj'
    · obtain ⟨hj', -⟩ | ⟨-, old, hold, rfl⟩ := hv
      · exact absurd hj' hj
      · cases hold.symm.trans hw
        rw [bitInByte_eq b (Nat.mod_lt _ (by decide))]
        exact Memory.read_write_self ..

/-! ### W_PUTSYM (R158) -/

/-- Settles O29: past the checks of WSTATE and of the code, the two outcomes are those of a whole append. -/
theorem putsymAppendsTheCode : Obligations.PutsymAppendsTheCode := by
  refine ⟨fun w => ?decodes, fun s a => ⟨fun hw => execWPutsym_of_ne_opened a hw,
    fun hw ha => execWPutsym_of_len_eq_zero hw ha, fun hw ha hfull => ?full, fun hs hw ha hfits => ?appended⟩⟩
  case decodes =>
    obtain ⟨-, -, -, -, -, -, -, h, -⟩ := decodeFunctionOfTheOpcodeMap w
    exact h
  case full => exact (execWPutsym_of_coded hw ha).trans (appendAll_of_lt _ hfull)
  case appended =>
    obtain ⟨t, he, ht, happ⟩ := appendAll_of_le (s.codebook.get a).code hs hfits
    exact ⟨t, (execWPutsym_of_coded hw ha).trans he, ht, happ⟩

/-- Settles O50: the PAYLOAD_FULL cases of the three commands. -/
theorem appendsThatDoNotFitAppendNothing : Obligations.AppendsThatDoNotFitAppendNothing := fun _ hw =>
  ⟨fun b hfull => (execWPutbit_of_opened b hw).trans (appendAll_of_lt _ hfull),
    fun _ hpos hle hfull => (execWPutbits_of_good_count hw hpos hle).trans (appendAll_of_lt _ hfull),
    fun _ ha hfull => (execWPutsym_of_coded hw ha).trans (appendAll_of_lt _ hfull)⟩

/-! ### W_ENCODE (R160) -/

/-- The codes of the first bytes, all coded and fitting, move W_ENCODE on over as many bytes. -/
theorem execWEncode_advance {s : State} {syms : List Symbol} (left : Nat) (hs : s.Inv) (hw : s.wstate = .opened)
    (hlen : s.wDatalen.toNat = syms.length + left) (hle : s.wDatalen.toNat ≤ s.cfg.dataBytes) (hd : s.holdsData 0 syms)
    (hc : ∀ a ∈ syms, (s.codebook.get a).len ≠ 0)
    (hfit : s.wBitcnt.toNat + (s.codebook.stream syms).length ≤ 8 * s.cfg.payloadBytes) :
    ∃ t, execWEncode s = encodeLoop left syms.length t ∧
      t = { s with payload := t.payload, wBitcnt := t.wBitcnt, wDatapos := t.wDatapos } ∧
      s.Appended t (s.codebook.stream syms) := by
  obtain ⟨t, hloop, ht, happ, -⟩ := encodeLoop_advance syms 0 left { s with wDatapos := 0 } hs.cfgLegal hs.partialByte hd
    hc hfit
  rw [Nat.zero_add] at hloop
  exact ⟨t, (execWEncode_of_opened hw hle).trans (by rw [hlen]; exact hloop), ht, happ.congr rfl rfl rfl rfl⟩

/-- Settles O30: the loop moves on over all the bytes and ends. -/
theorem encodePacksTheDataRam : Obligations.EncodePacksTheDataRam := by
  intro s syms hs hw hlen hle hd hc hfit
  obtain ⟨t, he, ht, happ⟩ := execWEncode_advance 0 hs hw hlen.symm hle hd hc hfit
  rw [encodeLoop, hlen, BitVec.ofNat_toNat, BitVec.setWidth_eq] at he
  exact ⟨_, he, by rw [ht]; rfl, happ.congr rfl rfl rfl rfl⟩

theorem encodeLoop_of_no_code {s : State} {i : Nat} {a : Symbol} (left : Nat) (hd : s.data.read i = some a)
    (ha : (s.codebook.get a).len = 0) :
    encodeLoop (left + 1) i s = .next (State.finish .noCode { s with wDatapos := BitVec.ofNat 32 i }) := by
  rw [encodeLoop]
  simp [hd, ha]

theorem encodeLoop_of_full {s : State} {i : Nat} {a : Symbol} (left : Nat) (hd : s.data.read i = some a)
    (ha : (s.codebook.get a).len ≠ 0) (hfull : 8 * s.cfg.payloadBytes < s.wBitcnt.toNat + (s.codebook.get a).len.toNat) :
    encodeLoop (left + 1) i s = .next (State.finish .payloadFull { s with wDatapos := BitVec.ofNat 32 i }) := by
  have hlen : (s.codebook.get a).len.toNat ≠ 0 := fun h => ha (BitVec.eq_of_toNat_eq h)
  rw [encodeLoop]
  simp only [hd]
  rw [if_neg hlen, if_pos (by simpa [State.fits] using hfull)]

/-- Settles O31: the loop moves on over the bytes before the failing one and ends there. -/
theorem encodeStopsAtTheFailingByte : Obligations.EncodeStopsAtTheFailingByte := by
  refine fun s => ⟨fun hw => execWEncode_of_ne_opened hw, fun hw hlen => execWEncode_of_bad_operand hw hlen,
    fun syms bad hs hw hle hlen hd hc hfit e hbad => ?_⟩
  obtain ⟨left, hleft⟩ := Nat.exists_eq_add_of_lt hlen
  have hd0 : s.holdsData 0 syms := fun i hi => by
    rw [hd i (by rw [List.length_append]; omega), List.getElem?_append_left hi]
  obtain ⟨t, he, ht, happ⟩ := execWEncode_advance (left + 1) hs hw hleft hle hd0 hc hfit
  have hread : t.data.read syms.length = some bad := by
    rw [ht]
    simpa using hd syms.length (by simp)
  have hcb : t.codebook = s.codebook := by rw [ht]
  have hcfg : t.cfg = s.cfg := by rw [ht]
  obtain ⟨hbad, rfl⟩ | ⟨hbad, hfull, rfl⟩ := hbad
  · rw [← hcb] at hbad
    exact ⟨_, he.trans (encodeLoop_of_no_code left hread hbad), by rw [ht]; rfl, happ.congr rfl rfl rfl rfl⟩
  · have hstream : (s.codebook.stream (syms ++ [bad])).length =
        (s.codebook.stream syms).length + (s.codebook.get bad).len.toNat := by simp [Codebook.stream]
    have hcnt := happ.1
    have hfull : 8 * t.cfg.payloadBytes < t.wBitcnt.toNat + (t.codebook.get bad).len.toNat := by
      rw [hcfg, hcb]
      omega
    rw [← hcb] at hbad
    exact ⟨_, he.trans (encodeLoop_of_full left hread hbad hfull), by rw [ht]; rfl, happ.congr rfl rfl rfl rfl⟩

/-- Where the loop of W_ENCODE succeeds, it has packed the codes of all its bytes. -/
theorem encodeLoop_packs :
    ∀ (left i : Nat) {s t : State}, s.cfg.Legal → s.partialHeld → encodeLoop left i s = .next t → t.err = .ok →
      ∃ syms : List Symbol, syms.length = left ∧ s.holdsData i syms ∧ s.Appended t (s.codebook.stream syms)
  | 0, i, s, t, _, hp, h, _ => by
    rw [encodeLoop] at h
    cases h
    exact ⟨[], rfl, fun j hj => absurd hj (Nat.not_lt_zero j), (State.Appended.refl hp).congr rfl rfl rfl rfl⟩
  | left + 1, i, s, t, hl, hp, h, hok => by
    have hmax := Config.payloadBits_le_of_legal hl
    rw [encodeLoop] at h
    dsimp only at h
    split at h
    · cases h
    · rename_i a ha
      split at h
      · cases h; cases hok
      · split at h
        · cases h; cases hok
        · rename_i hfit
          split at h
          · cases h
          · rename_i u hu
            have hfit : s.wBitcnt.toNat + (s.codebook.get a).len.toNat ≤ s.cfg.payloadBits := by
              simpa [State.fits] using hfit
            have hframe := appendCode_frame _ _ hu
            obtain ⟨happ, hpu⟩ := appendCode_appended (s.codebook.get a).code (s.codebook.get a).len.toNat
              (s := { s with wDatapos := BitVec.ofNat 32 i }) (by show s.wBitcnt.toNat + _ < _; omega) hp hu
            obtain ⟨syms, hlen, hd, happ2⟩ := encodeLoop_packs left (i + 1) (by rw [hframe]; exact hl) hpu h hok
            refine ⟨a :: syms, by rw [List.length_cons, hlen], fun j hj => ?_, ?_⟩
            · cases j with
              | zero => exact ha
              | succ j =>
                have hdj := hd j (by simpa using hj)
                rw [hframe, Nat.add_assoc, Nat.add_comm 1 j] at hdj
                rw [List.getElem?_cons_succ]
                exact hdj
            · have hcb : u.codebook = s.codebook := by rw [hframe]
              rw [hcb] at happ2
              exact (happ.congr rfl rfl rfl rfl).trans happ2

/-! ### What the writer commands write of PL -/

/-- No byte below the one W_BITCNT is in, and none at or above the bit W_BITCNT comes to. -/
theorem State.AppendOrTurnedAway.others {s t : State} (h : s.AppendOrTurnedAway t) {a : Nat}
    (ha : a < s.wBitcnt.toNat / 8 ∨ t.wBitcnt.toNat ≤ 8 * a) : t.payload.read a = s.payload.read a := by
  obtain ⟨e, rfl⟩ | ⟨-, hend⟩ := h
  · rfl
  · obtain ⟨bits, hcnt, -, -, hothers⟩ := hend.appended
    exact hothers a (by omega)

theorem payload_of_wInit_or_wFinal {i : Instr} {s t : State} (hi : i = .wInit ∨ i = .wFinal) (h : exec i s = .next t) :
    t.payload = s.payload := by
  obtain rfl | rfl := hi
  · cases h; rfl
  · obtain ⟨-, rfl⟩ | ⟨-, rfl⟩ := execWFinal_cases h <;> rfl

/-- Of the writer commands only W_INIT and W_FINAL write WSTATE, and both succeed when they do. -/
theorem exec_wstate_of_writer {i : Instr} {s t : State} (hi : IsWriterCommand i) (h : exec i s = .next t) :
    t.wstate = s.wstate ∨ t.err = .ok ∧
      (i = .wInit ∧ t.wstate = .opened ∨ i = .wFinal ∧ s.wstate = .opened ∧ t.wstate = .final) := by
  obtain rfl | ⟨b, rfl⟩ | ⟨n, rfl⟩ | ⟨a, rfl⟩ | rfl | rfl := hi
  · cases h; exact .inr ⟨rfl, .inl ⟨rfl, rfl⟩⟩
  · exact .inl (execWPutbit_keeps h).2
  · exact .inl (execWPutbits_keeps h).2
  · exact .inl (execWPutsym_keeps h).2
  · exact .inl (execWEncode_keeps h).2
  · obtain ⟨-, rfl⟩ | ⟨hw, rfl⟩ := execWFinal_cases h
    · exact .inl rfl
    · exact .inr ⟨rfl, .inr ⟨rfl, hw, rfl⟩⟩

/-- Whatever changes WSTATE is a writer command. -/
theorem isWriterCommand_of_wstate_ne {i : Instr} {s t : State} (h : exec i s = .next t) (hne : t.wstate ≠ s.wstate) :
    IsWriterCommand i := by
  obtain rfl | rfl | ⟨b, rfl⟩ | ⟨b, rfl⟩ | hi | hi | ⟨b, rfl⟩ | ⟨b, d, rfl⟩ := instr_kinds i
  · cases h; exact absurd rfl hne
  · cases h; exact absurd rfl hne
  · cases h; exact absurd rfl hne
  · cases h; exact absurd rfl hne
  · exact hi
  · exact absurd (by rw [(exec_readEnd hi h).frame]) hne
  · exact absurd (execBusRd_sameStates h).1 hne
  · exact absurd (execBusWr_sameStates h).1 hne

theorem writerCommand_others {i : Instr} {s t : State} (hs : s.Inv) (hi : IsWriterCommand i) (h : exec i s = .next t)
    {a : Nat} (ha : a < s.wBitcnt.toNat / 8 ∨ t.wBitcnt.toNat ≤ 8 * a) : t.payload.read a = s.payload.read a := by
  obtain rfl | hb | hn | hsym | henc | rfl := hi
  · rw [payload_of_wInit_or_wFinal (.inl rfl) h]
  · exact (exec_appendOrTurnedAway hs (.inl hb) h).others ha
  · exact (exec_appendOrTurnedAway hs (.inr (.inl hn)) h).others ha
  · exact (exec_appendOrTurnedAway hs (.inr (.inr (.inl hsym))) h).others ha
  · exact (exec_appendOrTurnedAway hs (.inr (.inr (.inr henc))) h).others ha
  · rw [payload_of_wInit_or_wFinal (.inr rfl) h]

/-- Settles O33: an append writes the bytes of the bits from W_BITCNT on, and of the writer commands only W_INIT and W_FINAL
write WSTATE. -/
theorem writerCommandsFrame : Obligations.WriterCommandsFrame := by
  refine ⟨fun i s t hi h => ⟨exec_writerFrame hi h, fun herr => ?wstate, fun hi => payload_of_wInit_or_wFinal hi h,
    fun hs a ha => writerCommand_others hs hi h ha⟩, fun i s t h hne => ?changes⟩
  case wstate =>
    obtain hst | ⟨hok, -⟩ := exec_wstate_of_writer hi h
    · exact hst
    · exact absurd hok herr
  case changes =>
    obtain hst | ⟨-, hst⟩ := exec_wstate_of_writer (isWriterCommand_of_wstate_ne h hne) h
    · exact absurd hst hne
    · exact hst

/-! ### The zero tail (R50) -/

/-- Above W_BITCNT a merge finds zeros. -/
theorem State.ZeroTail.mergedBit {s : State} (hz : s.ZeroTail) {q : Nat} (hq : s.wBitcnt.toNat ≤ q) (b : Bool) :
    s.mergedBit q b = b := by
  rw [State.mergedBit]
  by_cases hin : s.wBitcnt.toNat % 8 ≠ 0 ∧ q / 8 = s.wBitcnt.toNat / 8
  · rw [hz hin.1 q hq hin.2]
    simp
  · have hout : (decide (s.wBitcnt.toNat % 8 ≠ 0) && decide (q / 8 = s.wBitcnt.toNat / 8)) = false := by
      simpa using hin
    rw [hout, Bool.false_and, Bool.or_false]

theorem State.ZeroTail.appended {s t : State} {bits : List Bool} (hz : s.ZeroTail) (h : s.Appended t bits) :
    t.ZeroTail := by
  obtain ⟨hcnt, -, hmerged, -⟩ := h
  intro hm q hq hbyte
  rw [hmerged q (by omega) (by omega), hz.mergedBit (by omega), List.getD_eq_default _ _ (by omega)]

theorem State.ZeroTail.congr {s t : State} (hz : s.ZeroTail) (hp : t.payload = s.payload) (hc : t.wBitcnt = s.wBitcnt) :
    t.ZeroTail := by
  simp only [State.ZeroTail, State.payloadBit, hp, hc] at hz ⊢
  exact hz

/-- A write of the bus writes PL through PL_DATA only (R115). -/
theorem execBusWr_payload {a : RegAddr} {d : Word} {s t : State} (ha : a ≠ 0x41) (h : execBusWr a d s = .next t) :
    t.payload = s.payload := by
  cases hb : s.busy with
  | true =>
    rw [execBusWr_of_busy hb] at h
    cases h; rfl
  | false =>
    rw [execBusWr_of_idle hb] at h
    cases h
    cases hreg : regOfAddr a with
    | none => rfl
    | some r =>
      rw [Option.elim_some]
      cases r with
      | plData => exact absurd ((regOfAddr_eq_some_iff a .plData).1 hreg) ha
      | status => rw [writeReg_status]
      | dtData => rw [writeReg]; split <;> rfl
      | _ => rfl

/-- An instruction that appends or is W_INIT or a write of PL_DATA. -/
def WritesTheStream (i : Instr) : Prop :=
  i = .wInit ∨ (∃ b, i = .wPutbit b) ∨ (∃ n, i = .wPutbits n) ∨ (∃ a, i = .wPutsym a) ∨ i = .wEncode ∨
    ∃ d, i = .busWr 0x41 d

/-- All other instructions leave PL and W_BITCNT. -/
theorem exec_stream_of_not_writes {i : Instr} {s t : State} (hi : ¬ WritesTheStream i) (h : exec i s = .next t) :
    t.payload = s.payload ∧ t.wBitcnt = s.wBitcnt := by
  cases i with
  | nop | cbClear | cbWrite a | cbRead a => cases h; exact ⟨rfl, rfl⟩
  | wInit | wPutbit b | wPutbits n | wPutsym a | wEncode => exact absurd (by simp [WritesTheStream]) hi
  | wFinal => obtain ⟨-, rfl⟩ | ⟨-, rfl⟩ := execWFinal_cases h <;> exact ⟨rfl, rfl⟩
  | rInit => rw [(exec_readEnd (.inl rfl) h).frame]; exact ⟨rfl, rfl⟩
  | rGetbit => rw [(exec_readEnd (.inr (.inl rfl)) h).frame]; exact ⟨rfl, rfl⟩
  | rDecsym => rw [(exec_readEnd (.inr (.inr (.inl rfl))) h).frame]; exact ⟨rfl, rfl⟩
  | rDecode => rw [(exec_readEnd (.inr (.inr (.inr rfl))) h).frame]; exact ⟨rfl, rfl⟩
  | busRd a => rw [execBusRd_frame h]; exact ⟨rfl, rfl⟩
  | busWr a d =>
    have ha : a ≠ 0x41 := by
      rintro rfl
      exact hi (by simp [WritesTheStream])
    exact ⟨execBusWr_payload ha h, by rw [execBusWr_hostFrame h]⟩

/-- An instruction that is no write of PL_DATA keeps the zero tail. -/
theorem exec_zeroTail {i : Instr} {s t : State} (hi : ∀ d, i ≠ .busWr 0x41 d) (hs : s.Inv) (hz : s.ZeroTail)
    (h : exec i s = .next t) : t.ZeroTail := by
  have append (hi : (∃ b, i = .wPutbit b) ∨ (∃ n, i = .wPutbits n) ∨ (∃ a, i = .wPutsym a) ∨ i = .wEncode) :
      t.ZeroTail := by
    obtain ⟨e, rfl⟩ | ⟨-, hend⟩ := exec_appendOrTurnedAway hs hi h
    · exact hz.congr rfl rfl
    · obtain ⟨bits, happ⟩ := hend.appended
      exact hz.appended happ
  by_cases hw : WritesTheStream i
  · obtain rfl | hb | hn | hsym | henc | ⟨d, rfl⟩ := hw
    · cases h
      exact fun hm => absurd rfl hm
    · exact append (.inl hb)
    · exact append (.inr (.inl hn))
    · exact append (.inr (.inr (.inl hsym)))
    · exact append (.inr (.inr (.inr henc)))
    · exact absurd rfl (hi d)
  · obtain ⟨hp, hc⟩ := exec_stream_of_not_writes hw h
    exact hz.congr hp hc

/-- Settles O34. -/
theorem unwrittenTailBitsStayZero : Obligations.UnwrittenTailBitsStayZero :=
  fun _ _ _ hi hs hz h => exec_zeroTail (hi _) hs hz h

/-! ### What a successful command appends (R164) -/

theorem appendAll_packs {w n : Nat} {v : BitVec w} {s t : State} (hs : s.Inv) (h : appendAll n v s = .next t)
    (hok : t.err = .ok) : s.Appended t (msbFirst v n) := by
  obtain ⟨-, he⟩ | ⟨-, u, he, -, happ, -⟩ := appendAll_outcome n v hs.cfgLegal hs.partialByte
  · cases h.symm.trans he; cases hok
  · cases h.symm.trans he; exact happ

theorem execWPutbit_packs {b : Bool} {s t : State} (hs : s.Inv) (h : execWPutbit b s = .next t) (hok : t.err = .ok) :
    s.Appended t [b] := by
  by_cases hw : s.wstate = .opened
  · rw [execWPutbit_of_opened b hw] at h
    rw [← msbFirst_ofBool]
    exact appendAll_packs hs h hok
  · cases (execWPutbit_of_ne_opened b hw).symm.trans h; cases hok

theorem execWPutbits_packs {n : BitVec 8} {s t : State} (hs : s.Inv) (h : execWPutbits n s = .next t)
    (hok : t.err = .ok) : s.Appended t (msbFirst s.wBitsval n.toNat) := by
  unfold execWPutbits at h
  split at h
  · cases h; cases hok
  · split at h
    · cases h; cases hok
    · exact appendAll_packs hs h hok

theorem execWPutsym_packs {a : Symbol} {s t : State} (hs : s.Inv) (h : execWPutsym a s = .next t) (hok : t.err = .ok) :
    s.Appended t (s.codebook.get a).bits := by
  unfold execWPutsym at h
  dsimp only at h
  split at h
  · cases h; cases hok
  · split at h
    · cases h; cases hok
    · exact appendAll_packs hs h hok

/-- Bytes that DT holds are read from it. -/
theorem State.holdsData.map_read {s : State} {syms : List Symbol} (h : s.holdsData 0 syms) :
    ((List.range syms.length).map fun j => (s.data.read j).getD 0) = syms := by
  refine List.ext_getElem (by simp) fun j hj hj' => ?_
  have hread := h j hj'
  rw [Nat.zero_add] at hread
  simp [hread, List.getElem?_eq_getElem hj']

theorem execWEncode_packs {s t : State} (hs : s.Inv) (h : execWEncode s = .next t) (hok : t.err = .ok) :
    s.Appended t (appendedBits .wEncode s) := by
  unfold execWEncode at h
  split at h
  · cases h; cases hok
  · split at h
    · cases h; cases hok
    · obtain ⟨syms, hlen, hd, happ⟩ :=
        encodeLoop_packs s.wDatalen.toNat 0 (s := { s with wDatapos := 0 }) hs.cfgLegal hs.partialByte h hok
      have hmap := State.holdsData.map_read hd
      rw [hlen] at hmap
      rw [appendedBits, hmap]
      exact happ.congr rfl rfl rfl rfl

theorem exec_packs {i : Instr} {s t : State} (hi : i ≠ .wInit ∧ ∀ d, i ≠ .busWr 0x41 d) (hs : s.Inv)
    (h : exec i s = .next t) (hok : t.err = .ok) : s.Appended t (appendedBits i s) := by
  have nothing (hw : ¬ WritesTheStream i) : s.Appended t [] := by
    obtain ⟨hp, hc⟩ := exec_stream_of_not_writes hw h
    exact (State.Appended.refl hs.partialByte).congr rfl rfl hp hc
  cases i with
  | wInit => exact absurd rfl hi.1
  | wPutbit b => exact execWPutbit_packs hs h hok
  | wPutbits n => exact execWPutbits_packs hs h hok
  | wPutsym a => exact execWPutsym_packs hs h hok
  | wEncode => exact execWEncode_packs hs h hok
  | busWr a d => exact nothing (by simpa [WritesTheStream] using hi.2 d)
  | _ => exact nothing (by simp [WritesTheStream])

/-- The stream after an append is the stream and what was appended. -/
theorem State.Appended.streamBits {s t : State} {bits : List Bool} (h : s.Appended t bits) (hz : s.ZeroTail) :
    t.streamBits = s.streamBits ++ bits.map some := by
  obtain ⟨hcnt, hbelow, hmerged, -⟩ := h
  rw [State.streamBits, hcnt, List.range_add, List.map_append, List.map_map]
  refine congrArg₂ _ (List.map_congr_left fun q hq => hbelow q (List.mem_range.1 hq)) ?_
  refine List.ext_getElem (by simp) fun j hj hj' => ?_
  have hlt : j < bits.length := by simpa using hj'
  simp only [List.getElem_map, List.getElem_range, Function.comp]
  rw [hmerged _ (by omega) (by omega), hz.mergedBit (by omega), Nat.add_sub_cancel_left, List.getD_eq_getElem _ _ hlt]

theorem Packs.streamBits :
    ∀ {is : List Instr} {s t : State} {bits : List Bool}, s.Inv → s.ZeroTail →
      (∀ i ∈ is, i ≠ .wInit ∧ ∀ d, i ≠ .busWr 0x41 d) → Packs is s bits t →
      t.streamBits = s.streamBits ++ bits.map some
  | [], s, t, bits, _, _, _, h => by
    obtain ⟨rfl, rfl⟩ := h
    simp
  | i :: rest, s, t, bits, hs, hz, hi, h => by
    obtain ⟨u, more, he, hok, rfl, hrest⟩ := h
    have hnow := hi i (by simp)
    rw [Packs.streamBits (exec_inv hs he) (exec_zeroTail hnow.2 hs hz he) (fun j hj => hi j (by simp [hj])) hrest,
      (exec_packs hnow hs he hok).streamBits hz, List.map_append, List.append_assoc]

/-- Settles O35: after W_INIT the stream is empty, with no tail, and each command appends its bits. -/
theorem packedStreamIsTheConcatenation : Obligations.PackedStreamIsTheConcatenation := by
  intro s s0 t is bits hs h0 hi hpacks
  have hinv := exec_inv hs h0
  cases h0
  exact Packs.streamBits hinv (fun hm => absurd rfl hm) hi hpacks

end Sys2Proof.Machine
end

section
/-! PROOFS. The step (R71, R113, R117, R271): the turn of each agent, the issue of a command and reset, and the numbers of the
STATUS fields. -/

namespace Sys2Proof.Machine

/-- Settles O3. -/
theorem writtenOutWordsDecode : Obligations.WrittenOutWordsDecode := by
  refine ⟨?_, ?_, ?_, ?_, ?_, ?_, ?_, ?_, ?_, ?_⟩ <;> rfl

theorem perform_of_decode {w : Word} {i : Instr} (h : decodeCmd w = .ok i) (s : State) : perform w s = exec i s := by
  rw [perform, h]

theorem perform_of_reject {w : Word} {r : Reject} (h : decodeCmd w = .error r) (s : State) :
    perform w s = .next (s.finish .illegalCmd) := by
  rw [perform, h]

theorem engineTurn_of_pending {s : State} {w : Word} (h : s.pending = some w) : engineTurn s = perform w s := by
  rw [engineTurn, h]

theorem engineTurn_of_idle {s : State} (h : s.pending = none) : engineTurn s = .next s := by
  rw [engineTurn, h]

/-- Settles O4: the reserved ranges hold no opcode of the map. -/
theorem reservedOpcodesCompleteWithIllegalCmd : Obligations.ReservedOpcodesCompleteWithIllegalCmd := by
  intro w s hp hres
  have hne : w.toNat % 256 ∉ mappedOpcodes := by
    simp only [mappedOpcodes, List.mem_cons, List.not_mem_nil, or_false]
    omega
  exact ⟨(engineTurn_of_pending hp).trans (perform_of_reject (decodeCmd_of_not_mem_mappedOpcodes hne) s), rfl⟩

theorem step_of_bus {s : State} {q : BusReq} {rest : List Input} (hi : s.inputs = .bus q :: rest) :
    step s = exec (decodeBus q) { s with inputs := rest } := by
  rw [step, nextTurn, hi]
  rfl

theorem step_of_engine {s : State} {rest : List Input} (hi : s.inputs = .engine :: rest) :
    step s = engineTurn { s with inputs := rest } := by
  rw [step, nextTurn, hi]

/-- Settles O5: the first input says whose turn it is, and the engine runs what is pending. -/
theorem stepRunsTheDecodedInstruction : Obligations.StepRunsTheDecodedInstruction := by
  refine ⟨fun s a d rest hi => step_of_bus hi, fun s a d rest hi => step_of_bus hi, fun s w i rest hp hd => ⟨fun hi => ?_,
    fun hi => ?_⟩, fun s rest hp => ⟨fun hi => ?_, fun hi => ?_⟩⟩
  · exact (step_of_engine hi).trans ((engineTurn_of_pending (s := { s with inputs := rest }) hp).trans
      (perform_of_decode hd _))
  · rw [step_of_inputs_nil hi, engineTurn_of_pending hp, perform_of_decode hd]
  · exact (step_of_engine hi).trans (engineTurn_of_idle (s := { s with inputs := rest }) hp)
  · rw [step_of_inputs_nil hi, engineTurn_of_idle hp]

/-- Settles O6: the CMD write issues the word, which the engine finds pending; a write while BUSY is dropped. -/
theorem issuedCommandIsPerformedByTheEngineTurn : Obligations.IssuedCommandIsPerformedByTheEngineTurn := by
  intro s w rest hp hi
  have hb : State.busy { s with inputs := .engine :: rest } = false := (State.busy_eq_false_iff _).2 hp
  refine ⟨_, (step_of_bus hi).trans (execBusWr_regAddr hb .cmd w), rfl, rfl, ?_, fun d => execBusWr_of_busy rfl 0x08 d⟩
  exact (step_of_engine rfl).trans (engineTurn_of_pending rfl)

/-- Settles O10. -/
theorem resetMayComeAtAnyTime : Obligations.ResetMayComeAtAnyTime := fun _ _ hi =>
  ⟨_, step_of_reset hi, rfl, rfl, fun _ => ⟨rfl, rfl⟩⟩

/-- Settles O12. -/
theorem statusCodesAsNumbered : Obligations.StatusCodesAsNumbered := by
  refine ⟨rfl, rfl, rfl, rfl, rfl, rfl, rfl, rfl, rfl, rfl, fun e => ?_, rfl, rfl, rfl, fun w => ?_, rfl, rfl, rfl,
    fun r => ?_⟩
  · cases e <;> decide
  · cases w <;> decide
  · cases r <;> decide

/-- Settles O20. -/
theorem nopOnlyCompletes : Obligations.NopOnlyCompletes := by
  refine ⟨fun w => ?_, fun s => rfl⟩
  obtain ⟨h, -⟩ := decodeFunctionOfTheOpcodeMap w
  exact h

/-- Settles O22: the entry put is `entryOfStage`, whose bits are those of the stage below its length. -/
theorem cbWriteStoresTheStagedCode : Obligations.CbWriteStoresTheStagedCode := by
  refine ⟨fun w => ?decodes, fun s a => ⟨_, rfl, rfl, ?len, fun k j hj _ => ?code, fun b hb => Codebook.get_put_ne _ _ hb⟩⟩
  case decodes =>
    obtain ⟨-, -, h, -⟩ := decodeFunctionOfTheOpcodeMap w
    exact h
  case len => exact congrArg CbEntry.len (Codebook.get_put_self _ a _)
  case code =>
    simp only [State.finish_codebook, Codebook.get_put_self]
    rw [entryOfStage_code_getLsbD, stage_getLsbD _ k hj]

/-- Settles O36. -/
theorem rInitStartsTheReader : Obligations.RInitStartsTheReader := by
  refine ⟨fun w => ?decodes, fun s => ⟨fun h => if_pos h, fun h => if_neg (Nat.not_lt.2 h)⟩⟩
  obtain ⟨-, -, -, -, -, -, -, -, -, -, h, -⟩ := decodeFunctionOfTheOpcodeMap w
  exact h

end Sys2Proof.Machine
end
section
/-! PROOFS. BUS_RD (R68, R110, R116): the word each register reads as, reads while BUSY, that a read has no side effect, and
that the host reads back what it wrote. -/

namespace Sys2Proof.Machine

/-! ### Words as numbers -/

theorem append_toNat {m n : Nat} (x : BitVec m) (y : BitVec n) : (x ++ y).toNat = x.toNat * 2 ^ n + y.toNat := by
  rw [BitVec.toNat_append, ← Nat.shiftLeft_add_eq_or_of_lt y.isLt, Nat.shiftLeft_eq]

theorem extractLsb'_low (x : BitVec 64) : x.extractLsb' 0 32 = BitVec.ofNat 32 x.toNat := rfl

theorem extractLsb'_high (x : BitVec 64) : x.extractLsb' 32 32 = BitVec.ofNat 32 (x.toNat / 2 ^ 32) := by
  apply BitVec.eq_of_toNat_eq
  rw [BitVec.extractLsb'_toNat, Nat.shiftRight_eq_div_pow, BitVec.toNat_ofNat]

/-- STATUS of an idle block by the numbers of its fields (R26). -/
theorem statusIdle_eq (s : State) :
    s.statusIdle = BitVec.ofNat 32 (s.rstate.code.toNat * 1024 + s.wstate.code.toNat * 256 + s.err.code.toNat * 16 +
      s.dropped.toNat * 2) := by
  have hr := s.rstate.code.isLt
  have hw := s.wstate.code.isLt
  have he := s.err.code.isLt
  have hd : (BitVec.ofBool s.dropped).toNat = s.dropped.toNat := by cases s.dropped <;> rfl
  have hd1 : s.dropped.toNat ≤ 1 := Bool.toNat_le _
  apply BitVec.eq_of_toNat_eq
  simp only [State.statusIdle, BitVec.toNat_cast, append_toNat, BitVec.toNat_ofNat, hd]
  omega

/-! ### Reads of an idle block (R110) -/

theorem execBusRd_unmapped {s : State} {a : RegAddr} (hb : s.busy = false) (ha : regOfAddr a = none) :
    execBusRd a s = .next (s.reply 0) := by
  simp [execBusRd, hb, ha]

/-- The ranges of R22 that hold no register. -/
theorem regOfAddr_eq_none {a : RegAddr}
    (ha : (0x03 ≤ a.toNat ∧ a.toNat ≤ 0x07) ∨ (0x0A ≤ a.toNat ∧ a.toNat ≤ 0x0F) ∨ (0x19 ≤ a.toNat ∧ a.toNat ≤ 0x1F) ∨
      (0x25 ≤ a.toNat ∧ a.toNat ≤ 0x2F) ∨ (0x38 ≤ a.toNat ∧ a.toNat ≤ 0x3F) ∨ 0x44 ≤ a.toNat) : regOfAddr a = none := by
  cases hr : regOfAddr a with
  | none => rfl
  | some r =>
    rw [(regOfAddr_eq_some_iff a r).1 hr] at ha
    revert ha
    cases r with
    | cbCode k => fin_cases k <;> decide
    | _ => decide

/-- Settles O13: at a register's address the read is `readReg`, and the other words are unmapped. -/
theorem busReadReturnsTheRegister : Obligations.BusReadReturnsTheRegister := by
  intro s hp
  have hb : s.busy = false := (State.busy_eq_false_iff s).2 hp
  have reads (r : Reg) {v : Word} (hv : readReg s r = .ok v) : exec (.busRd (regAddr r)) s = .next (s.reply v) :=
    execBusRd_of_readReg_ok hb hv
  refine ⟨reads .name0 rfl, reads .name1 rfl, reads .version rfl, reads .cmd rfl,
    reads .status (congrArg _ (statusIdle_eq s)), reads .cbLen rfl, fun k => ?_, reads .wBitsval rfl, reads .wDatalen rfl,
    reads .wBitcnt rfl, reads .wPad rfl, reads .wDatapos rfl, reads .rNbits rfl, reads .origLenLo rfl,
    reads .origLenHi (congrArg _ (extractLsb'_high _)), reads .rBitpos rfl, reads .rSymcntLo rfl,
    reads .rSymcntHi (congrArg _ (extractLsb'_high _)), reads .rBit rfl, reads .rSym rfl, reads .plAddr rfl,
    reads .dtAddr rfl, fun a ha => execBusRd_unmapped hb (regOfAddr_eq_none ha)⟩
  rw [← regAddr_cbCode]
  exact reads (.cbCode k) rfl

/-! ### Reads while BUSY (R110, R116) -/

theorem execBusRd_of_busy {s : State} (hb : s.busy = true) (a : RegAddr) : execBusRd a s = busyRead a s := by
  rw [execBusRd, if_pos hb]

theorem busyRead_drawn {a : RegAddr} (ha : a ∉ [0x00, 0x01, 0x02, 0x09]) (s : State) :
    busyRead a s = .next ((s.reply (Config.freeWord s.draws)).nextDraw) := by
  unfold busyRead
  split
  case h_5 => rfl
  all_goals
    rename_i hr
    rw [(regOfAddr_eq_some_iff a _).1 hr] at ha
    exact absurd (by decide) ha

/-- STATUS of a busy block by its bits (R26). -/
theorem statusBusy_getLsbD (s : State) (x : BitVec 4) (k : Nat) :
    (s.statusBusy x).getLsbD k =
      if k = 0 then true else if k = 1 then s.dropped else if k < 8 then false else x.getLsbD (k - 8) := by
  simp only [State.statusBusy, BitVec.getLsbD_cast, BitVec.getLsbD_append]
  by_cases hk : k < 8
  · interval_cases k <;> simp
  · have h0 : k ≠ 0 := by omega
    have h1 : k ≠ 1 := by omega
    have h1' : k - 1 ≠ 0 := by omega
    have h4 : ¬ k ≤ 3 := by omega
    have h8 : ¬ k - 4 < 4 := by omega
    have hx : (decide (k - 8 < 4) && x.getLsbD (k - 8)) = x.getLsbD (k - 8) := by
      by_cases h : k - 8 < 4
      · simp [h]
      · rw [BitVec.getLsbD_of_ge x _ (by omega), Bool.and_false]
    simp [h0, h1, h1', h4, h8, hx, hk, Nat.sub_sub]

/-- Settles O17: the five cases of `busyRead`, and the bits of STATUS. -/
theorem readsWhileBusyAreLiveOrDrawn : Obligations.ReadsWhileBusyAreLiveOrDrawn := by
  intro s hb
  have reads (a : RegAddr) : exec (.busRd a) s = busyRead a s := execBusRd_of_busy hb a
  refine ⟨reads 0x00, reads 0x01, reads 0x02, ⟨_, reads 0x09, ?_, ?_, fun k h2 h8 => ?_, fun k hk => ?_, fun k hk => ?_⟩,
    fun a ha => (reads a).trans (busyRead_drawn ha s)⟩
  all_goals rw [statusBusy_getLsbD]
  · rfl
  · rfl
  · rw [if_neg (by omega), if_neg (by omega), if_pos h8]
  · rw [if_neg (by omega), if_neg (by omega), if_neg (by omega), Nat.add_sub_cancel_left]
  · rw [if_neg (by omega), if_neg (by omega), if_neg (by omega)]
    exact BitVec.getLsbD_of_ge _ _ (by omega)

/-! ### A read has no side effect (R68) -/

/-- What the host has read before changes no read. -/
theorem readReg_replies (s : State) (vs : List Word) (r : Reg) : readReg { s with replies := vs } r = readReg s r := by
  cases r <;> rfl

theorem execBusRd_idle_cases {a : RegAddr} {s t : State} (hb : s.busy = false) (h : execBusRd a s = .next t) :
    ∃ v, t = s.reply v ∧ ∀ vs, execBusRd a { s with replies := vs } = .next (State.reply v { s with replies := vs }) := by
  have hb' (vs : List Word) : State.busy { s with replies := vs } = false := hb
  cases hr : regOfAddr a with
  | none =>
    rw [execBusRd_unmapped hb hr] at h
    cases h
    exact ⟨0, rfl, fun vs => execBusRd_unmapped (hb' vs) hr⟩
  | some r =>
    obtain rfl := (regOfAddr_eq_some_iff a r).1 hr
    cases hv : readReg s r with
    | error f => cases (execBusRd_of_readReg_error hb hv).symm.trans h
    | ok v =>
      cases (execBusRd_of_readReg_ok hb hv).symm.trans h
      exact ⟨v, rfl, fun vs => execBusRd_of_readReg_ok (hb' vs) ((readReg_replies s vs r).trans hv)⟩

/-- Settles O18: a read changes the words the host has read and the draws, on which no read of an idle block depends. -/
theorem readsHaveNoSideEffect : Obligations.ReadsHaveNoSideEffect := by
  refine fun a s t h => ⟨?_, fun hb => ?_⟩
  · obtain ⟨v, n, he, -⟩ | ⟨-, r, f, -, -, he⟩ := execBusRd_cases a s
    · cases he.symm.trans h; exact ⟨v, rfl⟩
    · cases he.symm.trans h
  · obtain ⟨v, rfl, -⟩ := execBusRd_idle_cases hb h
    refine ⟨rfl, fun b u hu => ?_⟩
    obtain ⟨w, rfl, hagain⟩ := execBusRd_idle_cases (s := s.reply v) hb hu
    exact ⟨w, hagain s.replies, rfl⟩

/-! ### The host reads back what it wrote (R112) -/

/-- The registers of R112 that hold a whole word. -/
def IsHostWord (r : Reg) : Prop :=
  (∃ k, r = .cbCode k) ∨ r = .origLenLo ∨ r = .origLenHi ∨ r = .wBitsval ∨ r = .wDatalen ∨ r = .rNbits ∨ r = .plAddr ∨
    r = .dtAddr

def hostWords : List Reg :=
  [.cbCode 0, .cbCode 1, .cbCode 2, .cbCode 3, .cbCode 4, .cbCode 5, .cbCode 6, .cbCode 7, .wBitsval, .wDatalen, .rNbits,
    .origLenLo, .origLenHi, .plAddr, .dtAddr]

theorem isHostWord_of_mem_hostWords {r : Reg} (hr : r ∈ hostWords) : IsHostWord r := by
  revert r
  simp [hostWords, IsHostWord]

/-- The addresses of R112's list are those registers'. -/
theorem exists_isHostWord {a : RegAddr}
    (ha : a ∈ [0x11, 0x12, 0x13, 0x14, 0x15, 0x16, 0x17, 0x18, 0x20, 0x21, 0x30, 0x31, 0x32, 0x40, 0x42]) :
    ∃ r, IsHostWord r ∧ regAddr r = a := by
  obtain ⟨r, hr, he⟩ := List.mem_map.1 (show a ∈ hostWords.map regAddr from ha)
  exact ⟨r, isHostWord_of_mem_hostWords hr, he⟩

theorem readReg_writeReg_same {r : Reg} (hr : IsHostWord r) (d : Word) (s : State) :
    readReg (writeReg d s r) r = .ok d := by
  obtain ⟨k, rfl⟩ | rfl | rfl | rfl | rfl | rfl | rfl | rfl := hr
  · exact congrArg _ (Vector.getElem_set_self ..)
  · exact congrArg _ BitVec.extractLsb'_append_eq_right
  · exact congrArg _ BitVec.extractLsb'_append_eq_left
  all_goals rfl

/-- The other halves of ORIG_LEN and the other staging words stay. -/
theorem readReg_writeReg_ne {r q : Reg} (hr : IsHostWord r) (hne : q ≠ r) (hpl : q ≠ .plData) (hdt : q ≠ .dtData)
    (d : Word) (s : State) : readReg (writeReg d s r) q = readReg s q := by
  obtain ⟨k, rfl⟩ | rfl | rfl | rfl | rfl | rfl | rfl | rfl := hr
  · cases q with
    | cbCode j =>
      have hkj : k.val ≠ j.val := fun h => hne (congrArg Reg.cbCode (Fin.ext h.symm))
      exact congrArg _ (Vector.getElem_set_ne k.isLt j.isLt hkj)
    | plData => exact absurd rfl hpl
    | dtData => exact absurd rfl hdt
    | _ => rfl
  · cases q with
    | origLenLo => exact absurd rfl hne
    | origLenHi => exact congrArg _ BitVec.extractLsb'_append_eq_left
    | _ => rfl
  · cases q with
    | origLenLo => exact congrArg _ BitVec.extractLsb'_append_eq_right
    | origLenHi => exact absurd rfl hne
    | _ => rfl
  all_goals
    revert hne hpl hdt
    cases q <;> simp [readReg, writeReg, State.statusIdle]

theorem writeReg_isHostWord_keeps {r : Reg} (hr : IsHostWord r) (d : Word) (s : State) :
    (writeReg d s r).busy = s.busy ∧ (writeReg d s r).replies = s.replies := by
  obtain ⟨k, rfl⟩ | rfl | rfl | rfl | rfl | rfl | rfl | rfl := hr <;> exact ⟨rfl, rfl⟩

/-- A read of another word but the windows gives after the write what it gave before. -/
theorem execBusRd_writeReg_ne {s u : State} {r : Reg} {b : RegAddr} (d : Word) (hb : s.busy = false) (hr : IsHostWord r)
    (hne : b ∉ [regAddr r, 0x41, 0x43]) (h : execBusRd b s = .next u) :
    execBusRd b (writeReg d s r) = .next { writeReg d s r with replies := u.replies } := by
  obtain ⟨hbusy, hreplies⟩ := writeReg_isHostWord_keeps hr d s
  have hb' := hbusy.trans hb
  cases hq : regOfAddr b with
  | none =>
    rw [execBusRd_unmapped hb hq] at h
    cases h
    rw [execBusRd_unmapped hb' hq, State.reply, hreplies, State.reply_replies]
  | some q =>
    obtain rfl := (regOfAddr_eq_some_iff b q).1 hq
    have hqr : q ≠ r := by rintro rfl; exact hne List.mem_cons_self
    have hpl : q ≠ .plData := by rintro rfl; exact hne (.tail _ List.mem_cons_self)
    have hdt : q ≠ .dtData := by rintro rfl; exact hne (.tail _ (.tail _ List.mem_cons_self))
    have hread := readReg_writeReg_ne hr hqr hpl hdt d s
    cases hv : readReg s q with
    | error f => cases (execBusRd_of_readReg_error hb hv).symm.trans h
    | ok v =>
      cases (execBusRd_of_readReg_ok hb hv).symm.trans h
      rw [execBusRd_of_readReg_ok hb' (hread.trans hv), State.reply, hreplies, State.reply_replies]

/-- Settles O19: a word register reads what was written, the others what they did, and CB_LEN is a byte of what was
written. -/
theorem hostRegistersReadBackWhatWasWritten : Obligations.HostRegistersReadBackWhatWasWritten := by
  intro s d hp
  have hb : s.busy = false := (State.busy_eq_false_iff s).2 hp
  refine ⟨fun a ha => ?_, _, execBusWr_regAddr hb .cbLen d, ?_⟩
  · obtain ⟨r, hr, rfl⟩ := exists_isHostWord ha
    have hb' := (writeReg_isHostWord_keeps hr d s).1.trans hb
    exact ⟨_, execBusWr_regAddr hb r d, execBusRd_of_readReg_ok hb' (readReg_writeReg_same hr d s),
      fun b u hne h => execBusRd_writeReg_ne d hb hr hne h⟩
  · have hlow : (d.extractLsb' 0 8).setWidth 32 = BitVec.ofNat 32 (d.toNat % 256) := by
      apply BitVec.eq_of_toNat_eq
      simp
    rw [← hlow]
    exact execBusRd_of_readReg_ok (r := .cbLen) hb rfl

end Sys2Proof.Machine
end

section
/-! PROOFS. The reader's commands (R181-R189): one bit, one symbol, the symbols of a packed payload, the end at bits that match
no code, and that decoding inverts encoding. -/

namespace Sys2Proof.Machine

/-! ### R_GETBIT (R181) -/

theorem bitOfByte_toNat (v : Byte) (p : Nat) : (bitOfByte v p).toNat = v.toNat / 2 ^ (7 - p % 8) % 2 := by
  rw [bitOfByte, BitVec.getLsbD, Nat.testBit_eq_decide_div_mod_eq]
  rcases Nat.mod_two_eq_zero_or_one (v.toNat / 2 ^ (7 - p % 8)) with h | h <;> simp [h]

section
variable {s : State} (hr : s.rstate = .active)
include hr

theorem execRGetbit_of_readBit_ok {b : Bool} {u : State} (h : readBit s = .ok b u) :
    execRGetbit s = .next ({ u with rBit := BitVec.ofBool b }.finish .ok) := by
  rw [execRGetbit, if_neg (not_not.2 hr), h]

theorem execRGetbit_of_readBit_ended {u : State} (h : readBit s = .ended u) : execRGetbit s = .next u := by
  rw [execRGetbit, if_neg (not_not.2 hr), h]

theorem execRGetbit_of_readBit_stopped {f : Fault} (h : readBit s = .stopped f) : execRGetbit s = .fault f := by
  rw [execRGetbit, if_neg (not_not.2 hr), h]

end

/-- Settles O37: the three outcomes of ReadBit. -/
theorem getbitReadsOneBit : Obligations.GetbitReadsOneBit := by
  refine fun s hl => ⟨fun hr => execRGetbit_of_ne_active hr, fun hr hend => ?ended,
    fun hr hn hp => ⟨fun v hv => ?read, fun hnone => ?stopped⟩⟩
  case ended => exact execRGetbit_of_readBit_ended hr (readBit_ended hend)
  case read =>
    have hbit : s.payloadBit s.rBitpos.toNat = some (bitOfByte v s.rBitpos.toNat) := State.payloadBit_eq_some_of_read hv
    have hval : (BitVec.ofBool (bitOfByte v s.rBitpos.toNat)).toNat = v.toNat / 2 ^ (7 - s.rBitpos.toNat % 8) % 2 := by
      rw [← bitOfByte_toNat]
      cases bitOfByte v s.rBitpos.toNat <;> rfl
    exact ⟨_, execRGetbit_of_readBit_ok hr (readBit_ok hn hp hbit), rfl, rBitpos_add (n := 1) hn, hval⟩
  case stopped =>
    obtain ⟨hend, -⟩ | ⟨-, -, ⟨-, he⟩ | ⟨b, hb, -⟩⟩ := readBit_cases s
    · simp only [Config.payloadBits] at hend
      omega
    · exact execRGetbit_of_readBit_stopped hr he
    · rw [State.payloadBit, hnone] at hb
      cases hb

/-! ### R_DECSYM (R186) -/

theorem execRDecsym_of_decodeStep_ok {s u : State} {a : Symbol} (hr : s.rstate = .active)
    (hc : s.rSymcnt.toNat < s.origLen.toNat) (h : decodeStep s = .ok a u) :
    execRDecsym s = .next ((emit a u).finish .ok) := by
  rw [execRDecsym, if_neg (not_not.2 hr), if_neg (Nat.not_le.2 hc), h]

/-- Settles O38: a decode step at the code, and Emit. -/
theorem decsymDecodesOneSymbol : Obligations.DecsymDecodesOneSymbol := by
  intro s a hs hr hc hd hbits hn hp
  have hreadable : s.readable (s.codebook.get a).bits :=
    ⟨hbits, by rw [CbEntry.length_bits]; exact hn, by rw [CbEntry.length_bits]; exact hp⟩
  have hlt := s.origLen.isLt
  obtain ⟨-, hcnt, hin, hout, hother, -⟩ := emit_spec a (s := s.advanced (s.codebook.get a).len.toNat)
    (by show s.rSymcnt.toNat + 1 < _; omega)
  exact ⟨_, execRDecsym_of_decodeStep_ok hr hc (decodeStep_decodes hd hreadable), rfl, rBitpos_add hn, hcnt, hin, hout,
    hother⟩

/-! ### R_DECODE (R188) -/

/-- Settles O39: the loop moves on over the codes of all the symbols and ends, or it has none to decode. -/
theorem decodeRecoversTheSymbols : Obligations.DecodeRecoversTheSymbols := by
  intro s syms hs hr hdb hlen hd hbits hn hp
  by_cases hnil : syms = []
  · subst hnil
    have hc : s.origLen.toNat ≤ s.rSymcnt.toNat := Nat.le_of_sub_eq_zero hlen.symm
    exact ⟨_, execRDecode_of_count_reached hr hdb hc, rfl, rfl, rfl, fun j hj => absurd hj (Nat.not_lt_zero j),
      fun _ _ => rfl⟩
  · have hn := hn.resolve_right hnil
    have hpos := List.length_pos_of_ne_nil hnil
    have horig := s.origLen.isLt
    obtain ⟨t, hloop, ht, hcnt, hdata, hother⟩ := decodeLoop_advance syms 0 s (by omega) hd (by omega)
      fun _ => ⟨hbits, hn, hp⟩
    have hbitpos : t.rBitpos.toNat = s.rBitpos.toNat + (s.codebook.stream syms).length := by
      rw [ht]
      exact rBitpos_add hn
    rw [decodeLoop, Nat.add_zero, hlen] at hloop
    exact ⟨_, (execRDecode_of_active hr hdb).trans hloop, by rw [ht]; rfl, hbitpos, hcnt, hdata, hother⟩

/-! ### OFF_CODE (R183) -/

theorem Codebook.isEmpty_eq_false_of_len_ne_zero {cb : Codebook} (h : ∃ a : Symbol, (cb.get a).len ≠ 0) :
    cb.isEmpty = false := by
  obtain ⟨a, ha⟩ := h
  exact Codebook.isEmpty_eq_false_of_maxlen_pos (Codebook.maxlen_pos_of_len_ne_zero ha)

/-- A decode step over maxlen bits of which no code is a beginning. -/
theorem decodeStep_of_no_code {s : State} {bits : List Bool} (hcoded : ∃ a : Symbol, (s.codebook.get a).len ≠ 0)
    (hlen : bits.length = s.codebook.maxlen) (hr : s.readable bits)
    (hno : ∀ a : Symbol, (s.codebook.get a).len ≠ 0 → ¬ (s.codebook.get a).bits <+: bits) :
    decodeStep s = .ended ((s.advanced bits.length).failReader .offCode) := by
  refine decodeStep_offCode hr hlen (Codebook.isEmpty_eq_false_of_len_ne_zero hcoded) fun q hq hne a hcode => ?_
  subst hcode
  exact hno a ((CbEntry.len_ne_zero_iff _).2 hne) hq

/-- Settles O41: one such decode step, first or after the codes of some symbols. -/
theorem decsymOffCodeAfterMaxlenBits : Obligations.DecsymOffCodeAfterMaxlenBits := by
  refine ⟨fun s bits hs hr hc hcoded hlen hbits hn hp hno => ?decsym,
    fun s syms bits hs hr hdb hc hcoded hd hlen hbits hn hp hno => ?decode⟩
  case decsym =>
    have hstep := decodeStep_of_no_code hcoded hlen ⟨hbits, hn, hp⟩ hno
    refine ⟨_, (decodeCommands_of_ended hr hc hstep).1, rfl, ?_⟩
    rw [← hlen]
    exact rBitpos_add hn
  case decode =>
    have horig := s.origLen.isLt
    obtain ⟨hrsyms, hrbits⟩ := State.readable_append ⟨hbits, hn, hp⟩
    obtain ⟨left, hleft⟩ := Nat.exists_eq_add_of_lt hc
    obtain ⟨u, hloop, hu, hcnt, hdata, hother⟩ := decodeLoop_advance syms (left + 1) s (by omega) hd (by omega)
      fun _ => hrsyms
    have hcb : u.codebook = s.codebook := by rw [hu]
    have hbitpos : u.rBitpos.toNat = s.rBitpos.toNat + (s.codebook.stream syms).length := by
      rw [hu]
      exact rBitpos_add hrsyms.2.1
    have hru : u.readable bits := by rw [hu]; exact hrbits
    have hstep : decodeStep u = .ended ((u.advanced bits.length).failReader .offCode) := by
      rw [← hcb] at hcoded hlen hno
      exact decodeStep_of_no_code hcoded hlen hru hno
    refine ⟨(u.advanced bits.length).failReader .offCode, ?_, by rw [hu]; rfl, ?_, hcnt, hdata, hother⟩
    · rw [← decodeLoop_of_ended hstep left, ← hloop]
      refine (execRDecode_of_active hr hdb).trans (congrArg (decodeLoop · s) ?_)
      omega
    · rw [← hlen, ← hbitpos]
      exact rBitpos_add hru.2.1

/-! ### Decoding inverts encoding (R189) -/

/-- What is appended at the beginning of the stream is what the payload then begins with. -/
theorem State.Appended.holdsBits {s t : State} {bits : List Bool} (h : s.Appended t bits) (h0 : s.wBitcnt.toNat = 0) :
    t.holdsBits 0 bits := by
  obtain ⟨-, -, hmerged, -⟩ := h
  intro j hj
  rw [hmerged (0 + j) (by omega) (by omega), State.mergedBit, h0]
  simp [List.getElem?_eq_getElem hj]

theorem execRInit_of_le {s : State} (h : s.rNbits.toNat ≤ s.cfg.payloadBits) :
    execRInit s =
      .next { s with rBitpos := 0, rSymcnt := 0, rBit := 0, rSym := 0, rstate := .active, err := .ok, pending := none } :=
  if_neg (Nat.not_lt.2 h)

/-- R_INIT and R_DECODE over a payload that begins with the codes of as many symbols as ORIG_LEN says. -/
theorem rInit_rDecode_packed {s : State} {syms : List Symbol} (hs : s.Inv) (hcb : s.codebook.PrefixFree)
    (hcoded : ∀ a ∈ syms, (s.codebook.get a).len ≠ 0) (hbits : s.holdsBits 0 (s.codebook.stream syms))
    (hn : (s.codebook.stream syms).length ≤ s.rNbits.toNat) (hp : s.rNbits.toNat ≤ s.cfg.payloadBits)
    (hlen : s.origLen.toNat = syms.length) (hdb : syms.length ≤ s.cfg.dataBytes) :
    ∃ t u, execRInit s = .next t ∧ t.err = .ok ∧ execRDecode t = .next u ∧ u.err = .ok ∧
      u.rBitpos.toNat = (s.codebook.stream syms).length ∧ u.rSymcnt.toNat = syms.length ∧ u.holdsData 0 syms := by
  have he := execRInit_of_le hp
  obtain ⟨u, hu, hframe, hpos, hcnt, hdata, -⟩ := decodeRecoversTheSymbols _ syms (execRInit_inv hs he) rfl
    (hlen.trans_le hdb) hlen.symm (fun a ha => hcb.decodes (hcoded a ha)) hbits (.inl ((Nat.zero_add _).trans_le hn))
    ((Nat.zero_add _).trans_le (hn.trans hp))
  exact ⟨_, u, he, rfl, hu, by rw [hframe], hpos.trans (Nat.zero_add _), hcnt.trans (Nat.zero_add _), hdata⟩

/-- Settles O46: W_ENCODE leaves the codes at the beginning of the payload, and R_DECODE of as many symbols reads them. -/
theorem decodingInvertsEncoding : Obligations.DecodingInvertsEncoding := by
  intro s syms hs hw h0 hcb hlen hle hd hc hfit
  have hcnt0 : s.wBitcnt.toNat = 0 := by rw [h0]; rfl
  obtain ⟨s1, he1, hs1, happ⟩ := encodePacksTheDataRam s syms hs hw hlen hle hd hc (by rw [hcnt0, Nat.zero_add]; exact hfit)
  have hcnt := happ.1
  rw [hcnt0, Nat.zero_add] at hcnt
  have hw1 : s1.wstate = .opened := by rw [hs1]; exact hw
  have hcb1 : s1.codebook = s.codebook := by rw [hs1]
  have hcfg1 : s1.cfg = s.cfg := by rw [hs1]
  have hs2 := execWFinal_inv (exec_inv hs he1) (execWFinal_of_opened hw1)
  have hpad := payload_bits_eq_add_padCount s1.wBitcnt
  refine ⟨s1, _, he1, by rw [hs1], execWFinal_of_opened hw1, rfl, fun nb m hm hmr hnb => ?_⟩
  have hlt := s.wDatalen.isLt
  have hnbits : (s.codebook.stream syms).length ≤ nb.toNat ∧ nb.toNat ≤ s1.cfg.payloadBits := by
    simp only [State.finish_wPad] at hnb
    simp only [Config.payloadBits, hcfg1]
    omega
  have hbits := happ.holdsBits hcnt0
  have hdb : syms.length ≤ s1.cfg.dataBytes := by rw [hlen, hcfg1]; exact hle
  rw [← hcfg1] at hmr
  rw [← hcb1] at hcb hc hnbits hbits ⊢
  exact rInit_rDecode_packed { hs2 with dataWf := hm, dataWithin := hmr } hcb hc
    hbits hnbits.1 hnbits.2 (Nat.mod_eq_of_lt (by omega)) hdb

end Sys2Proof.Machine
end

section
/-! PROOFS. The container (R224, R228): big-endian numbers read back, the bytes field by field, and the header checks on
them. -/

namespace Sys2Proof.Machine

/-! ### Big-endian numbers -/

@[simp] theorem length_beBytes (n v : Nat) : (beBytes n v).length = n := by
  induction n with
  | zero => rfl
  | succ n ih => rw [beBytes, List.length_cons, ih]

theorem beValue_foldl (b : List Byte) (x : Nat) :
    b.foldl (fun v y => v * 256 + y.toNat) x = x * 256 ^ b.length + beValue b := by
  induction b generalizing x with
  | nil => simp [beValue]
  | cons y b ih =>
    rw [beValue, List.foldl_cons, List.foldl_cons, ih, ih, List.length_cons]
    ring

theorem beValue_cons (y : Byte) (b : List Byte) : beValue (y :: b) = y.toNat * 256 ^ b.length + beValue b := by
  rw [beValue, List.foldl_cons, beValue_foldl, Nat.zero_mul, Nat.zero_add]

/-- A number is read back modulo the width of its field. -/
theorem beValue_beBytes (n v : Nat) : beValue (beBytes n v) = v % 256 ^ n := by
  induction n with
  | zero => simp [beBytes, beValue, Nat.mod_one]
  | succ n ih =>
    rw [beBytes, beValue_cons, ih, length_beBytes, BitVec.toNat_ofNat, show 2 ^ 8 = 256 from rfl, Nat.mod_pow_succ]
    ring

/-! ### The symbol table -/

/-- The bytes of one entry of the symbol table. -/
def entryBytes (e : Symbol × Word) : List Byte := e.1 :: beBytes 4 e.2.toNat

theorem length_flatMap_entryBytes (t : List (Symbol × Word)) : (t.flatMap entryBytes).length = 5 * t.length := by
  induction t with
  | nil => rfl
  | cons e t ih =>
    rw [List.flatMap_cons, List.length_append, ih, entryBytes, List.length_cons, length_beBytes, List.length_cons]
    omega

theorem parseTable_flatMap_entryBytes (t : List (Symbol × Word)) (rest : List Byte) :
    parseTable t.length (t.flatMap entryBytes ++ rest) = t := by
  induction t with
  | nil => rfl
  | cons e t ih =>
    have hcount : BitVec.ofNat 32 (beValue (beBytes 4 e.2.toNat)) = e.2 := by
      apply BitVec.eq_of_toNat_eq
      rw [beValue_beBytes, BitVec.toNat_ofNat]
      have := e.2.isLt
      omega
    rw [List.length_cons, parseTable, List.flatMap_cons, entryBytes, List.append_assoc, List.cons_append, List.headD_cons,
      List.drop_succ_cons, List.drop_zero, List.take_left' (length_beBytes 4 _), hcount, List.drop_succ_cons,
      List.drop_left' (length_beBytes 4 _), ih]

/-- An ascending table has at most one entry for each symbol (R228 check 4). -/
theorem length_le_of_strictlyAscending {t : List (Symbol × Word)} (h : strictlyAscending t = true) : t.length ≤ 256 := by
  have hpair : t.Pairwise fun a b => a.1.toNat < b.1.toNat := of_decide_eq_true h
  have hnodup : (t.map fun e => e.1.toNat).Nodup := by
    rw [List.Nodup, List.pairwise_map]
    exact hpair.imp fun hlt => Nat.ne_of_lt hlt
  have hsub : (t.map fun e => e.1.toNat) ⊆ List.range 256 := fun x hx => by
    obtain ⟨e, -, rfl⟩ := List.mem_map.1 hx
    exact List.mem_range.2 e.1.isLt
  have hle := (hnodup.subperm hsub).length_le
  simpa using hle

/-! ### The bytes field by field -/

section
variable (c : Container)

/-- What follows the number of entries. -/
def Container.body : List Byte := c.symbolTable.flatMap entryBytes ++ c.paddingBits :: c.payload

theorem Container.bytes_eq :
    c.bytes = magicBytes ++ versionByte :: (beBytes 8 c.originalLength.toNat ++
      (beBytes 2 c.symbolTable.length ++ c.body)) := by
  simp only [Container.bytes, Container.body, List.append_assoc, List.cons_append, List.nil_append]
  rfl

theorem Container.bytes_drop_five :
    c.bytes.drop 5 = beBytes 8 c.originalLength.toNat ++ (beBytes 2 c.symbolTable.length ++ c.body) := by
  rw [Container.bytes_eq]; rfl

theorem Container.bytes_drop_thirteen : c.bytes.drop 13 = beBytes 2 c.symbolTable.length ++ c.body := by
  rw [← List.drop_drop (i := 8) (j := 5), Container.bytes_drop_five, List.drop_left' (length_beBytes 8 _)]

theorem Container.bytes_drop_fifteen : c.bytes.drop 15 = c.body := by
  rw [← List.drop_drop (i := 2) (j := 13), Container.bytes_drop_thirteen, List.drop_left' (length_beBytes 2 _)]

theorem Container.bytes_drop_table : c.bytes.drop (15 + 5 * c.symbolTable.length) = c.paddingBits :: c.payload := by
  rw [← List.drop_drop, Container.bytes_drop_fifteen, Container.body, List.drop_left' (length_flatMap_entryBytes _)]

theorem Container.bytes_drop_header : c.bytes.drop (16 + 5 * c.symbolTable.length) = c.payload := by
  rw [show 16 + 5 * c.symbolTable.length = 15 + 5 * c.symbolTable.length + 1 by omega, ← List.drop_drop,
    Container.bytes_drop_table, List.drop_one, List.tail_cons]

theorem Container.length_bytes : 16 + 5 * c.symbolTable.length ≤ c.bytes.length := by
  have h := congrArg List.length c.bytes_drop_table
  rw [List.length_drop, List.length_cons] at h
  omega

end

/-! ### The header checks (R228) -/

/-- With no entry of count 0 the table is empty exactly when the length is 0 (R228 check 7). -/
theorem symbolTable_eq_nil_iff {t : List (Symbol × Word)} (hne : ∀ e ∈ t, e.2 ≠ 0) :
    t = [] ↔ (t.map fun e => e.2.toNat).sum = 0 := by
  cases t with
  | nil => simp
  | cons e t =>
    have he : e.2.toNat ≠ 0 := fun h => hne e List.mem_cons_self (BitVec.eq_of_toNat_eq h)
    rw [List.map_cons, List.sum_cons]
    exact ⟨nofun, fun h => absurd h (by omega)⟩

/-- Settles O56: each field is read where it was written, and each check is one of the hypotheses. -/
theorem containerParsesBack : Obligations.ContainerParsesBack := by
  intro c hasc hne hsum hpad
  have hk := length_le_of_strictlyAscending hasc
  have hn : BitVec.ofNat 64 (beValue ((c.bytes.drop 5).take 8)) = c.originalLength := by
    apply BitVec.eq_of_toNat_eq
    rw [c.bytes_drop_five, List.take_left' (length_beBytes 8 _), beValue_beBytes, BitVec.toNat_ofNat]
    have := c.originalLength.isLt
    omega
  have hlen : beValue ((c.bytes.drop 13).take 2) = c.symbolTable.length := by
    rw [c.bytes_drop_thirteen, List.take_left' (length_beBytes 2 _), beValue_beBytes]
    omega
  have htable : parseTable c.symbolTable.length (c.bytes.drop 15) = c.symbolTable := by
    rw [c.bytes_drop_fifteen, Container.body, parseTable_flatMap_entryBytes]
  have hmagic : c.bytes.take 4 = magicBytes := by rw [c.bytes_eq]; rfl
  have hversion : c.bytes[4]? = some versionByte := by rw [c.bytes_eq]; rfl
  have hcounts : c.symbolTable.any (fun e => e.2 == 0) = false := by
    rw [List.any_eq_false]
    exact fun e he => by simpa using hne e he
  have hempty : ¬ ((c.symbolTable.length = 0 ∧ c.originalLength ≠ 0) ∨ (c.symbolTable.length ≠ 0 ∧ c.originalLength = 0)) := by
    have hzero : c.symbolTable.length = 0 ↔ c.originalLength = 0 := by
      rw [List.length_eq_zero_iff, symbolTable_eq_nil_iff hne, hsum]
      exact BitVec.toNat_inj (y := 0)
    tauto
  have hbytes := c.length_bytes
  unfold parseContainer
  dsimp only
  rw [hn, hlen, htable, c.bytes_drop_table, c.bytes_drop_header, hasc, hcounts, if_neg (by omega),
    if_neg (not_not.2 hmagic), if_neg (not_not.2 hversion), if_neg (by omega), if_neg (by simp), if_neg (by simp),
    if_neg hempty, if_neg (not_not.2 hsum), if_neg (by simpa using hpad)]
  rfl

end Sys2Proof.Machine
end

section
/-! PROOFS. The tree builder (R214-R218): the codes below a node, the queue kept lowest first, and one induction over the
merges. -/

namespace Sys2Proof.Machine

/-! ### The codes below a node (R218) -/

/-- Below a node the codes are those from the root of it, after the path to it. -/
theorem Node.codes_eq_map (n : Node) (path : List Bool) :
    n.codes path = (n.codes []).map fun e => (e.1, path ++ e.2) := by
  induction n generalizing path with
  | leaf a w => simp [Node.codes]
  | internal w l r ihl ihr =>
    simp only [Node.codes, List.nil_append]
    rw [ihl, ihr, ihl [false], ihr [true]]
    simp [Function.comp_def]

/-- The symbols at the leaves of a node, left to right. -/
def Node.symbols : Node → List Symbol
  | .leaf a _ => [a]
  | .internal _ l r => l.symbols ++ r.symbols

theorem Node.map_fst_codes (n : Node) (path : List Bool) : (n.codes path).map Prod.fst = n.symbols := by
  induction n generalizing path with
  | leaf a w => rfl
  | internal w l r ihl ihr => rw [Node.codes, List.map_append, ihl, ihr, Node.symbols]

theorem Node.symbols_ne_nil (n : Node) : n.symbols ≠ [] := by
  induction n with
  | leaf a w => exact List.cons_ne_nil a []
  | internal w l r ihl _ => exact fun h => ihl (List.append_eq_nil_iff.1 h).1

/-- No code below a node begins another. -/
theorem Node.codes_prefixFree {n : Node} {path : List Bool} {d e : Symbol × List Bool} (hd : d ∈ n.codes path)
    (he : e ∈ n.codes path) (hpre : d.2 <+: e.2) : d = e := by
  induction n generalizing path with
  | leaf a w => rw [List.mem_singleton.1 hd, List.mem_singleton.1 he]
  | internal w l r ihl ihr =>
    obtain ⟨b, hd⟩ := (Node.mem_codes_internal w l r path d).1 hd
    obtain ⟨c, he⟩ := (Node.mem_codes_internal w l r path e).1 he
    obtain rfl := eq_of_concat_prefix ((Node.prefix_of_mem_codes hd).trans hpre) (Node.prefix_of_mem_codes he)
    cases b with
    | false => exact ihl hd he
    | true => exact ihr hd he

/-- A code is shorter than the number of leaves. -/
theorem Node.length_lt_of_mem_codes {n : Node} {path : List Bool} {e : Symbol × List Bool} (he : e ∈ n.codes path) :
    e.2.length < path.length + n.symbols.length := by
  induction n generalizing path with
  | leaf a w =>
    rw [List.mem_singleton.1 he]
    exact Nat.lt_succ_self _
  | internal w l r ihl ihr =>
    have hl := List.length_pos_of_ne_nil l.symbols_ne_nil
    have hr := List.length_pos_of_ne_nil r.symbols_ne_nil
    rw [Node.symbols, List.length_append]
    rcases List.mem_append.1 he with he | he
    · have h := ihl he
      rw [List.length_append, List.length_singleton] at h
      omega
    · have h := ihr he
      rw [List.length_append, List.length_singleton] at h
      omega

/-! ### The queue (R215) -/

/-- The weight of a queue item's node. -/
def QueueItem.weight (a : QueueItem) : Nat := a.node.weight

theorem QueueItem.weight_le_of_lower {a b : QueueItem} (h : a.lower b = true) : a.weight ≤ b.weight := by
  simp only [QueueItem.lower, Bool.or_eq_true, decide_eq_true_eq, Bool.and_eq_true, beq_iff_eq] at h
  simp only [QueueItem.weight]
  omega

theorem QueueItem.weight_le_of_not_lower {a b : QueueItem} (h : ¬ a.lower b = true) : b.weight ≤ a.weight := by
  simp only [QueueItem.lower, Bool.or_eq_true, decide_eq_true_eq, Bool.and_eq_true, beq_iff_eq] at h
  simp only [QueueItem.weight]
  omega

/-- Of two nodes of one weight the later is not lower. -/
theorem QueueItem.weight_lt_of_lower {a b : QueueItem} (h : a.lower b = true) (hseq : b.seq < a.seq) :
    a.weight < b.weight := by
  simp only [QueueItem.lower, Bool.or_eq_true, decide_eq_true_eq, Bool.and_eq_true, beq_iff_eq] at h
  simp only [QueueItem.weight]
  omega

/-- The queue is lowest first. -/
def Ascending (q : List QueueItem) : Prop := q.Pairwise fun a b => a.weight ≤ b.weight

/-- Where an item is put in a queue: after those that weigh no more, and, when it is the latest, before those that weigh
more. -/
theorem enqueue_split (a : QueueItem) {q : List QueueItem} (hq : Ascending q) :
    ∃ pre post, q = pre ++ post ∧ enqueue a q = pre ++ a :: post ∧ (∀ x ∈ pre, x.weight ≤ a.weight) ∧
      (∀ x ∈ post, a.weight ≤ x.weight) ∧ ((∀ x ∈ q, x.seq < a.seq) → ∀ x ∈ post, a.weight < x.weight) := by
  induction q with
  | nil => exact ⟨[], [], rfl, rfl, nofun, nofun, fun _ => nofun⟩
  | cons b q ih =>
    obtain ⟨hb, hq⟩ := List.pairwise_cons.1 hq
    rw [enqueue]
    by_cases hlow : a.lower b = true
    · rw [if_pos hlow]
      refine ⟨[], b :: q, rfl, rfl, nofun, fun x hx => ?_, fun hseq x hx => ?_⟩
      · rcases List.mem_cons.1 hx with rfl | hx
        · exact QueueItem.weight_le_of_lower hlow
        · exact (QueueItem.weight_le_of_lower hlow).trans (hb x hx)
      · have hlt := QueueItem.weight_lt_of_lower hlow (hseq b List.mem_cons_self)
        rcases List.mem_cons.1 hx with rfl | hx
        · exact hlt
        · exact hlt.trans_le (hb x hx)
    · rw [if_neg hlow]
      obtain ⟨pre, post, rfl, he, hpre, hpost, hlast⟩ := ih hq
      refine ⟨b :: pre, post, rfl, by rw [he, List.cons_append], fun x hx => ?_, hpost,
        fun hseq => hlast fun x hx => hseq x (List.mem_cons_of_mem b hx)⟩
      rcases List.mem_cons.1 hx with rfl | hx
      · exact QueueItem.weight_le_of_not_lower hlow
      · exact hpre x hx

theorem enqueue_perm (a : QueueItem) (q : List QueueItem) : (enqueue a q).Perm (a :: q) := by
  induction q with
  | nil => exact .refl _
  | cons b q ih =>
    rw [enqueue]
    split
    · exact .refl _
    · exact (ih.cons b).trans (.swap a b q)

theorem Ascending.enqueue {q : List QueueItem} (hq : Ascending q) (a : QueueItem) : Ascending (enqueue a q) := by
  obtain ⟨pre, post, rfl, he, hpre, hpost, -⟩ := enqueue_split a hq
  rw [he, Ascending, List.pairwise_append, List.pairwise_cons]
  obtain ⟨h1, h2, h3⟩ := List.pairwise_append.1 hq
  refine ⟨h1, ⟨hpost, h2⟩, fun x hx y hy => ?_⟩
  rcases List.mem_cons.1 hy with rfl | hy
  · exact hpre x hx
  · exact h3 x hx y hy

theorem foldr_enqueue_perm (l : List QueueItem) : (l.foldr enqueue []).Perm l := by
  induction l with
  | nil => exact .refl _
  | cons a l ih => exact (enqueue_perm a _).trans (ih.cons a)

/-- The leaf of the k-th entry of a frequency table. -/
def leafItem (e : (Symbol × Nat) × Nat) : QueueItem := { node := .leaf e.1.1 e.1.2, seq := e.2 }

theorem leafQueue_perm (f : FrequencyTable) : (leafQueue f).Perm (f.zipIdx.map leafItem) := foldr_enqueue_perm _

theorem foldr_enqueue_ascending (l : List QueueItem) : Ascending (l.foldr enqueue []) := by
  induction l with
  | nil => exact .nil
  | cons a l ih => exact ih.enqueue a

theorem leafQueue_ascending (f : FrequencyTable) : Ascending (leafQueue f) := foldr_enqueue_ascending _

theorem length_leafQueue (f : FrequencyTable) : (leafQueue f).length = f.length := by
  rw [(leafQueue_perm f).length_eq, List.length_map, List.length_zipIdx]

theorem mem_leafQueue {f : FrequencyTable} {x : QueueItem} (hx : x ∈ leafQueue f) :
    ∃ e ∈ f, x.node = .leaf e.1 e.2 ∧ x.seq < f.length := by
  obtain ⟨⟨e, k⟩, he, rfl⟩ := List.mem_map.1 ((leafQueue_perm f).mem_iff.1 hx)
  obtain ⟨-, hk, heq⟩ := List.mem_zipIdx he
  exact ⟨e, List.mem_of_getElem heq.symm, rfl, show k < f.length by simpa using hk⟩

/-! ### The merges (R216) -/

/-- The node two items are merged into. -/
def mergeItem (a b : QueueItem) (next : Nat) : QueueItem :=
  { node := .internal (a.node.weight + b.node.weight) a.node b.node, seq := next }

theorem weight_mergeItem (a b : QueueItem) (next : Nat) : (mergeItem a b next).weight = a.weight + b.weight := rfl

/-- The induction over the merges: what holds of a single node, and of a queue when it holds of the queue after the first
merge, holds of every queue and the root it is merged into. -/
theorem mergeLoop_induction {motive : Nat → List QueueItem → Node → Prop} (one : ∀ next a, motive next [a] a.node)
    (merge : ∀ next a b rest root, motive (next + 1) (enqueue (mergeItem a b next) rest) root →
      motive next (a :: b :: rest) root) :
    ∀ (fuel next : Nat) (q : List QueueItem) {root : Node}, mergeLoop fuel next q = some root → motive next q root
  | 0, _, [], _, h => nomatch h
  | _ + 1, _, [], _, h => nomatch h
  | 0, next, [a], _, h => by cases h; exact one next a
  | _ + 1, next, [a], _, h => by cases h; exact one next a
  | 0, _, _ :: _ :: _, _, h => nomatch h
  | fuel + 1, next, a :: b :: rest, _, h => merge next a b rest _ (mergeLoop_induction one merge fuel (next + 1) _ h)

/-- There is a merge for each node but one. -/
theorem mergeLoop_exists :
    ∀ (fuel next : Nat) (q : List QueueItem), q ≠ [] → q.length ≤ fuel + 1 → ∃ root, mergeLoop fuel next q = some root
  | _, _, [], h, _ => absurd rfl h
  | 0, _, [a], _, _ => ⟨a.node, rfl⟩
  | _ + 1, _, [a], _, _ => ⟨a.node, rfl⟩
  | 0, _, _ :: _ :: _, _, h => absurd h (by simp)
  | fuel + 1, next, a :: b :: rest, _, h => by
    have hlen : (enqueue (mergeItem a b next) rest).length = rest.length + 1 :=
      (enqueue_perm (mergeItem a b next) rest).length_eq
    exact mergeLoop_exists fuel (next + 1) (enqueue (mergeItem a b next) rest)
      (List.ne_nil_of_length_eq_add_one hlen) (hlen.trans_le (Nat.le_of_succ_le_succ h))

/-- The leaves of the root are those of the queue. -/
theorem mergeLoop_symbols {fuel next : Nat} {q : List QueueItem} {root : Node} (h : mergeLoop fuel next q = some root) :
    root.symbols.Perm (q.flatMap fun x => x.node.symbols) := by
  refine mergeLoop_induction (motive := fun _ q root => root.symbols.Perm (q.flatMap fun x => x.node.symbols))
    (fun _ a => by simp) (fun next a b rest root ih => ?_) fuel next q h
  refine ih.trans (((enqueue_perm _ rest).flatMap_right _).trans ?_)
  simp [mergeItem, Node.symbols]

end Sys2Proof.Machine
end

section
/-! PROOFS. The codebook derived from a frequency table: its coverage and the lengths of its codes (R220). -/

namespace Sys2Proof.Machine

/-- The codebook of a table: empty, the one-symbol code, or the codes of the tree the merges end in. -/
theorem codesOf_cases (f : FrequencyTable) :
    f = [] ∧ codesOf f = [] ∨ (∃ a w, f = [(a, w)] ∧ codesOf f = [(a, [false])]) ∨
      2 ≤ f.length ∧ ∃ root, mergeLoop f.length f.length (leafQueue f) = some root ∧ codesOf f = root.codes [] := by
  match f with
  | [] => exact .inl ⟨rfl, rfl⟩
  | [(a, w)] => exact .inr (.inl ⟨a, w, rfl, rfl⟩)
  | d :: e :: f =>
    have hlen := length_leafQueue (d :: e :: f)
    obtain ⟨root, hroot⟩ := mergeLoop_exists (d :: e :: f).length (d :: e :: f).length (leafQueue (d :: e :: f))
      (List.ne_nil_of_length_eq_add_one hlen) (hlen.trans_le (Nat.le_succ _))
    refine .inr (.inr ⟨Nat.le_add_left 2 _, root, hroot, ?_⟩)
    rw [codesOf, buildTree, hroot]
    rfl

theorem flatMap_symbols_leafQueue (f : FrequencyTable) :
    ((leafQueue f).flatMap fun x => x.node.symbols).Perm (f.map Prod.fst) := by
  refine ((leafQueue_perm f).flatMap_right _).trans (.of_eq ?_)
  rw [List.flatMap_map]
  calc (f.zipIdx.flatMap fun e => (leafItem e).node.symbols)
      = f.zipIdx.map fun e => e.1.1 := (List.map_eq_flatMap ..).symm
    _ = (f.zipIdx.map Prod.fst).map Prod.fst := (List.map_map ..).symm
    _ = f.map Prod.fst := by rw [List.zipIdx_map_fst]

/-- The derived codebook has the symbols of its table. -/
theorem codesOf_symbols (f : FrequencyTable) : ((codesOf f).map Prod.fst).Perm (f.map Prod.fst) := by
  rcases codesOf_cases f with ⟨rfl, -⟩ | ⟨a, w, rfl, -⟩ | ⟨-, root, hroot, hcodes⟩
  · exact .refl _
  · exact .refl _
  · rw [hcodes, Node.map_fst_codes]
    exact (mergeLoop_symbols hroot).trans (flatMap_symbols_leafQueue f)

theorem nodup_symbols_codesOf {f : FrequencyTable} (h : (f.map Prod.fst).Nodup) : ((codesOf f).map Prod.fst).Nodup :=
  (codesOf_symbols f).nodup_iff.2 h

/-- There are 256 symbols. -/
theorem length_le_of_nodup {l : List Symbol} (h : l.Nodup) : l.length ≤ 256 := by
  have hle := (h.subperm fun a _ => mem_allSymbols a).length_le
  rwa [allSymbols, List.length_map, List.length_range] at hle

/-- In a tree of two leaves or more no code is empty. -/
theorem Node.code_ne_nil {n : Node} {e : Symbol × List Bool} (hn : 2 ≤ n.symbols.length) (he : e ∈ n.codes []) :
    e.2 ≠ [] := by
  cases n with
  | leaf a w => exact absurd hn (by simp [Node.symbols])
  | internal w l r =>
    obtain ⟨b, hb⟩ := (Node.mem_codes_internal w l r [] e).1 he
    exact fun hnil => by simpa [hnil] using Node.prefix_of_mem_codes hb

theorem codesOf_length {f : FrequencyTable} (h : (f.map Prod.fst).Nodup) {e : Symbol × List Bool} (he : e ∈ codesOf f) :
    1 ≤ e.2.length ∧ e.2.length ≤ 255 := by
  rcases codesOf_cases f with ⟨-, hcodes⟩ | ⟨a, w, -, hcodes⟩ | ⟨hf, root, hroot, hcodes⟩
  · rw [hcodes] at he
    nomatch he
  · rw [hcodes, List.mem_singleton] at he
    rw [he]
    exact ⟨le_refl 1, (by decide : 1 ≤ 255)⟩
  · rw [hcodes] at he
    have hlen := ((mergeLoop_symbols hroot).trans (flatMap_symbols_leafQueue f)).length_eq
    have hlt := Node.length_lt_of_mem_codes he
    have hle := length_le_of_nodup h
    rw [List.length_map] at hlen hle
    rw [List.length_nil] at hlt
    exact ⟨List.length_pos_of_ne_nil (Node.code_ne_nil (by omega) he), by omega⟩

theorem codesOf_prefixFree (f : FrequencyTable) {d e : Symbol × List Bool} (hd : d ∈ codesOf f) (he : e ∈ codesOf f)
    (hpre : d.2 <+: e.2) : d = e := by
  rcases codesOf_cases f with ⟨-, hcodes⟩ | ⟨a, w, -, hcodes⟩ | ⟨-, root, -, hcodes⟩
  · rw [hcodes] at hd
    nomatch hd
  · rw [hcodes, List.mem_singleton] at hd he
    rw [hd, he]
  · rw [hcodes] at hd he
    exact Node.codes_prefixFree hd he hpre

/-- Settles O55: the leaves of the tree are the entries of the table, each once, and a code is the path to its leaf. -/
theorem derivedCodesArePrefixFree : Obligations.DerivedCodesArePrefixFree := fun f h =>
  ⟨fun _ => (codesOf_symbols f).mem_iff.symm, nodup_symbols_codesOf h, fun _ he => codesOf_length h he,
    fun _ hd _ he => codesOf_prefixFree f hd he⟩

end Sys2Proof.Machine
end

section
/-! PROOFS. The derived codebook is monotone (R220): the depths the merges give fall along the queue. -/

namespace Sys2Proof.Machine

/-- The items of a queue, each with the depth its node gets below the root the queue is merged into. They fall along the
queue, and the first is at most one deeper than a node that weighs no more than the first merge. -/
structure Levels (root : Node) (A : List (QueueItem × Nat)) : Prop where
  desc : A.Pairwise fun x y => y.2 ≤ x.2
  near : ∀ x y rest, A = x :: y :: rest → ∀ z ∈ A, z.1.weight ≤ x.1.weight + y.1.weight → x.2 ≤ z.2 + 1
  codes : ∀ e ∈ root.codes [], ∃ x ∈ A, ∃ c, (e.1, c) ∈ x.1.node.codes [] ∧ e.2.length = x.2 + c.length

theorem Levels.single (a : QueueItem) : Levels a.node [(a, 0)] where
  desc := List.pairwise_singleton _ _
  near := by simp
  codes e he := ⟨(a, 0), List.mem_cons_self, e.2, he, (Nat.zero_add _).symm⟩

/-- Taking the first merge back: its two parts are one level below it. -/
theorem Levels.unmerge {root : Node} {a b : QueueItem} {next d : Nat} {Apre Apost : List (QueueItem × Nat)}
    (h : Levels root (Apre ++ (mergeItem a b next, d) :: Apost)) (hab : a.weight ≤ b.weight)
    (hpre : ∀ x ∈ Apre, b.weight ≤ x.1.weight) (hpost : ∀ x ∈ Apost, a.weight + b.weight < x.1.weight) :
    Levels root ((a, d + 1) :: (b, d + 1) :: (Apre ++ Apost)) := by
  obtain ⟨hdpre, hdnew, hdcross⟩ := List.pairwise_append.1 h.desc
  obtain ⟨hnew, hdpost⟩ := List.pairwise_cons.1 hdnew
  have hdepth : ∀ y ∈ Apre ++ Apost, y.2 ≤ d + 1 := by
    intro y hy
    rcases List.mem_append.1 hy with hy | hy
    · cases Apre with
      | nil => nomatch hy
      | cons p ps =>
        have hp : p.2 ≤ d + 1 := by
          have hpw := hpre p List.mem_cons_self
          cases ps with
          | nil =>
            refine h.near p (mergeItem a b next, d) Apost rfl (mergeItem a b next, d) (by simp) ?_
            exact Nat.le_add_left _ _
          | cons p' ps =>
            have hpw' := hpre p' (by simp)
            refine h.near p p' (ps ++ (mergeItem a b next, d) :: Apost) rfl (mergeItem a b next, d) (by simp) ?_
            exact (Nat.add_le_add_right hab _).trans (Nat.add_le_add hpw hpw')
        rcases List.mem_cons.1 hy with rfl | hy
        · exact hp
        · exact ((List.pairwise_cons.1 hdpre).1 y hy).trans hp
    · exact (hnew y hy).trans (Nat.le_succ d)
  refine ⟨?_, ?_, fun e he => ?_⟩
  · refine List.pairwise_cons.2 ⟨fun y hy => ?_, List.pairwise_cons.2 ⟨hdepth, List.pairwise_append.2
      ⟨hdpre, hdpost, fun x hx y hy => hdcross x hx y (List.mem_cons_of_mem _ hy)⟩⟩⟩
    rcases List.mem_cons.1 hy with rfl | hy
    · exact le_refl _
    · exact hdepth y hy
  · rintro x y rest heq z hz hw
    obtain ⟨rfl, rfl, -⟩ : (a, d + 1) = x ∧ (b, d + 1) = y ∧ Apre ++ Apost = rest := by simpa using heq
    have hz : z = (a, d + 1) ∨ z = (b, d + 1) ∨ z ∈ Apre ∨ z ∈ Apost := by simpa using hz
    rcases hz with rfl | rfl | hz | hz
    · exact Nat.le_succ _
    · exact Nat.le_succ _
    · exact Nat.succ_le_succ (hdcross z hz _ List.mem_cons_self)
    · exact absurd hw (Nat.not_le.2 (hpost z hz))
  · obtain ⟨x, hx, c, hc, hlen⟩ := h.codes e he
    rcases List.mem_append.1 hx with hx | hx
    · exact ⟨x, by simp [hx], c, hc, hlen⟩
    rcases List.mem_cons.1 hx with rfl | hx
    · have hc : (e.1, c) ∈ a.node.codes [false] ++ b.node.codes [true] := hc
      rcases List.mem_append.1 hc with hc | hc
      · rw [Node.codes_eq_map] at hc
        obtain ⟨⟨s, c0⟩, hc0, heq⟩ := List.mem_map.1 hc
        obtain ⟨rfl, rfl⟩ := Prod.mk.inj heq
        exact ⟨(a, d + 1), by simp, c0, hc0, by rw [hlen]; simp; omega⟩
      · rw [Node.codes_eq_map] at hc
        obtain ⟨⟨s, c0⟩, hc0, heq⟩ := List.mem_map.1 hc
        obtain ⟨rfl, rfl⟩ := Prod.mk.inj heq
        exact ⟨(b, d + 1), by simp, c0, hc0, by rw [hlen]; simp; omega⟩
    · exact ⟨x, by simp [hx], c, hc, hlen⟩

theorem mergeLoop_levels {fuel next : Nat} {q : List QueueItem} {root : Node} (h : mergeLoop fuel next q = some root)
    (hq : Ascending q) (hseq : ∀ x ∈ q, x.seq < next) : ∃ A : List (QueueItem × Nat), A.map Prod.fst = q ∧ Levels root A := by
  refine mergeLoop_induction (motive := fun next q root => Ascending q → (∀ x ∈ q, x.seq < next) →
    ∃ A : List (QueueItem × Nat), A.map Prod.fst = q ∧ Levels root A) (fun _ a _ _ => ⟨[(a, 0)], rfl, Levels.single a⟩)
    (fun next a b rest root ih hq hseq => ?_) fuel next q h hq hseq
  obtain ⟨ha, hbrest⟩ := List.pairwise_cons.1 hq
  obtain ⟨hb, hrest⟩ := List.pairwise_cons.1 hbrest
  have hseqrest : ∀ x ∈ rest, x.seq < next := fun x hx => hseq x (by simp [hx])
  obtain ⟨A', hmap, hlev⟩ := ih (Ascending.enqueue hrest _) fun x hx => by
    rcases List.mem_cons.1 ((enqueue_perm _ rest).mem_iff.1 hx) with rfl | hx
    · exact Nat.lt_succ_self next
    · exact (hseqrest x hx).trans (Nat.lt_succ_self next)
  obtain ⟨pre, post, rfl, hins, -, -, hpost⟩ := enqueue_split (mergeItem a b next) hrest
  rw [hins] at hmap
  obtain ⟨Apre, A₂, rfl, rfl, hmap₂⟩ := List.map_eq_append_iff.1 hmap
  obtain ⟨⟨n, d⟩, Apost, rfl, rfl, rfl⟩ := List.map_eq_cons_iff.1 hmap₂
  refine ⟨(a, d + 1) :: (b, d + 1) :: (Apre ++ Apost), by simp, hlev.unmerge (ha b List.mem_cons_self)
    (fun x hx => hb _ (List.mem_append_left _ (List.mem_map_of_mem hx))) fun x hx => ?_⟩
  exact hpost hseqrest _ (List.mem_map_of_mem hx)

/-- Of two items of a queue the heavier gets no greater depth. -/
theorem Levels.depth_le {root : Node} {A : List (QueueItem × Nat)} (h : Levels root A)
    (hq : Ascending (A.map Prod.fst)) {x y : QueueItem × Nat} (hx : x ∈ A) (hy : y ∈ A)
    (hlt : y.1.weight < x.1.weight) : x.2 ≤ y.2 := by
  have hheavier : A.Pairwise fun x y => y.1.weight < x.1.weight → x.2 ≤ y.2 :=
    (List.pairwise_map.1 hq).imp fun hw hlt => absurd hw (Nat.not_le.2 hlt)
  have hlighter : A.Pairwise (flip fun x y => y.1.weight < x.1.weight → x.2 ≤ y.2) := by
    refine h.desc.imp ?_
    exact fun hd _ => hd
  exact hheavier.forall_of_forall_of_flip (fun _ _ _ => le_rfl) hlighter hx hy hlt

/-- Of an item of a table's queue the codes are the empty one of its entry. -/
theorem code_of_mem_leafQueue {f : FrequencyTable} (hf : (f.map Prod.fst).Nodup) {x : QueueItem} (hx : x ∈ leafQueue f)
    {a : Symbol} {w : Nat} {c : List Bool} (ha : (a, w) ∈ f) (hc : (a, c) ∈ x.node.codes []) : c = [] ∧ x.weight = w := by
  obtain ⟨e, he, hnode, -⟩ := mem_leafQueue hx
  rw [hnode] at hc
  obtain ⟨rfl, rfl⟩ := Prod.mk.inj (List.mem_singleton.1 hc)
  have heq : e = (e.1, w) := List.inj_on_of_nodup_map hf he ha rfl
  exact ⟨rfl, by rw [QueueItem.weight, hnode]; exact congrArg Prod.snd heq⟩

/-- Settles O58: a code is as long as its leaf is deep, and depths fall along the queue of leaves, lightest first. -/
theorem derivedCodesAreMonotone : Obligations.DerivedCodesAreMonotone := by
  intro f a b wa wb ca cb hf ha hb hca hcb hlt
  rcases codesOf_cases f with ⟨rfl, -⟩ | ⟨s, w, rfl, hcodes⟩ | ⟨-, root, hroot, hcodes⟩
  · nomatch ha
  · rw [hcodes, List.mem_singleton] at hca hcb
    rw [(Prod.mk.inj hca).2, (Prod.mk.inj hcb).2]
  · rw [hcodes] at hca hcb
    obtain ⟨A, hmap, hlev⟩ := mergeLoop_levels hroot (leafQueue_ascending f) fun x hx => (mem_leafQueue hx).choose_spec.2.2
    have hmem : ∀ x ∈ A, x.1 ∈ leafQueue f := fun x hx => hmap ▸ List.mem_map_of_mem hx
    obtain ⟨x, hx, c, hc, hclen⟩ := hlev.codes _ hca
    obtain ⟨y, hy, d, hd, hdlen⟩ := hlev.codes _ hcb
    obtain ⟨rfl, hwa⟩ := code_of_mem_leafQueue hf (hmem x hx) ha hc
    obtain ⟨rfl, hwb⟩ := code_of_mem_leafQueue hf (hmem y hy) hb hd
    have hle := hlev.depth_le (hmap ▸ leafQueue_ascending f) hx hy (by rw [hwa, hwb]; exact hlt)
    rw [hclen, hdlen]
    exact hle

end Sys2Proof.Machine
end

section
/-! PROOFS. The derived codebook does not expand (R220): the cost of the tree the merges end in, and the length of a stream
counted symbol by symbol. -/

namespace Sys2Proof.Machine

/-! ### The frequency table of a byte sequence (R213) -/

theorem mem_freq {x : List Byte} {a : Symbol} {w : Nat} : (a, w) ∈ freq x ↔ x.count a = w ∧ a ∈ x := by
  simp only [freq, List.mem_filter, List.mem_map, decide_eq_true_eq]
  constructor
  · rintro ⟨⟨b, -, heq⟩, hpos⟩
    obtain ⟨rfl, rfl⟩ := Prod.mk.inj heq
    exact ⟨rfl, List.count_pos_iff.1 hpos⟩
  · rintro ⟨rfl, ha⟩
    exact ⟨⟨a, mem_allSymbols a, rfl⟩, List.count_pos_iff.2 ha⟩

theorem map_fst_freq (x : List Byte) : (freq x).map Prod.fst = allSymbols.filter fun a => 0 < x.count a := by
  rw [freq, List.filter_map, List.map_map]
  exact List.map_id _

theorem mem_map_fst_freq {x : List Byte} {a : Symbol} : a ∈ (freq x).map Prod.fst ↔ a ∈ x := by
  simp [map_fst_freq, mem_allSymbols]

theorem freq_ascending (x : List Byte) : ((freq x).map Prod.fst).Pairwise fun a b => a.toNat < b.toNat := by
  rw [map_fst_freq]
  exact allSymbols_ascending.filter _

theorem nodup_symbols_freq (x : List Byte) : ((freq x).map Prod.fst).Nodup :=
  (freq_ascending x).imp fun hlt heq => absurd (congrArg BitVec.toNat heq) (Nat.ne_of_lt hlt)

/-- A sum over the bytes of a sequence, counted symbol by symbol. -/
theorem sum_map_eq_sum_count (x : List Byte) {l : List Symbol} (hl : l.Nodup) (hmem : ∀ a, a ∈ l ↔ a ∈ x)
    (g : Symbol → Nat) : (x.map g).sum = (l.map fun a => x.count a * g a).sum := by
  have hset : x.toFinset = l.toFinset := by
    ext a
    rw [List.mem_toFinset, List.mem_toFinset, hmem]
  calc (x.map g).sum
      = ∑ a ∈ x.toFinset, x.count a * g a := Finset.sum_list_map_count x g
    _ = ∑ a ∈ l.toFinset, x.count a * g a := by rw [hset]
    _ = (l.map fun a => x.count a * g a).sum := List.sum_toFinset _ hl

/-- The counts add up to the length. -/
theorem sum_freq (x : List Byte) : ((freq x).map Prod.snd).sum = x.length := by
  have hcount : (freq x).map Prod.snd = ((freq x).map Prod.fst).map fun a => x.count a * 1 := by
    rw [List.map_map]
    refine List.map_congr_left fun e he => ?_
    rw [Function.comp_apply, Nat.mul_one, (mem_freq.1 he).1]
  rw [hcount, ← sum_map_eq_sum_count x (nodup_symbols_freq x) (fun a => mem_map_fst_freq) fun _ => 1]
  simp

/-- A sequence of one byte value has a table of one entry. -/
theorem freq_of_forall_eq {x : List Byte} {a : Byte} (hne : x ≠ []) (h : ∀ b ∈ x, b = a) :
    ∃ w, freq x = [(a, w)] := by
  have hmem : ∀ b, b ∈ (freq x).map Prod.fst ↔ b ∈ [a] := fun b => by
    rw [mem_map_fst_freq, List.mem_singleton]
    refine ⟨h b, ?_⟩
    rintro rfl
    obtain ⟨c, hc⟩ := List.exists_mem_of_ne_nil x hne
    exact h c hc ▸ hc
  have hperm := (List.perm_ext_iff_of_nodup (nodup_symbols_freq x) (List.nodup_singleton a)).2 hmem
  obtain ⟨⟨b, w⟩, hfreq, rfl⟩ := List.map_eq_singleton_iff.1 (List.perm_singleton.1 hperm)
  exact ⟨w, hfreq⟩

/-! ### The cost of a tree -/

/-- The weights below the root of a node, each as often as its leaf is deep. -/
def Node.cost : Node → Nat
  | .leaf _ _ => 0
  | .internal _ l r => l.cost + r.cost + l.weight + r.weight

/-- The weights of a node are counts `ω` of its symbols, added up. -/
def Node.Counts (ω : Symbol → Nat) : Node → Prop
  | .leaf a w => w = ω a
  | .internal w l r => w = l.weight + r.weight ∧ l.Counts ω ∧ r.Counts ω

/-- The bits the codes of a node take for its symbols, each as often as it is counted. -/
theorem Node.Counts.sum_codes {ω : Symbol → Nat} {n : Node} (h : n.Counts ω) (path : List Bool) :
    ((n.codes path).map fun e => ω e.1 * e.2.length).sum = n.cost + path.length * n.weight := by
  induction n generalizing path with
  | leaf a w =>
    obtain rfl : w = ω a := h
    simp [Node.codes, Node.cost, Node.weight, Nat.mul_comm]
  | internal w l r ihl ihr =>
    obtain ⟨rfl, hl, hr⟩ := h
    rw [Node.codes, List.map_append, List.sum_append, ihl hl, ihr hr]
    simp only [Node.cost, Node.weight, List.length_append, List.length_singleton]
    ring

theorem mergeLoop_counts {ω : Symbol → Nat} {fuel next : Nat} {q : List QueueItem} {root : Node}
    (h : mergeLoop fuel next q = some root) (hq : ∀ x ∈ q, x.node.Counts ω) : root.Counts ω := by
  refine mergeLoop_induction (motive := fun _ q root => (∀ x ∈ q, x.node.Counts ω) → root.Counts ω)
    (fun _ a h => h a List.mem_cons_self) (fun next a b rest root ih hq => ih fun x hx => ?_) fuel next q h hq
  rcases List.mem_cons.1 ((enqueue_perm (mergeItem a b next) rest).mem_iff.1 hx) with rfl | hx
  · exact ⟨rfl, hq a (by simp), hq b (by simp)⟩
  · exact hq x (by simp [hx])

/-- The weights of a queue. -/
def weights (q : List QueueItem) : List Nat := q.map QueueItem.weight

/-- What the nodes of a queue cost. -/
def costs (q : List QueueItem) : Nat := (q.map fun x => x.node.cost).sum

theorem sum_weights_merge (a b : QueueItem) (next : Nat) (rest : List QueueItem) :
    (weights (enqueue (mergeItem a b next) rest)).sum = (weights (a :: b :: rest)).sum := by
  rw [weights, ((enqueue_perm (mergeItem a b next) rest).map _).sum_eq]
  simp [weights, weight_mergeItem, Nat.add_assoc]

theorem costs_merge (a b : QueueItem) (next : Nat) (rest : List QueueItem) :
    costs (enqueue (mergeItem a b next) rest) = costs (a :: b :: rest) + (a.weight + b.weight) := by
  rw [costs, ((enqueue_perm (mergeItem a b next) rest).map _).sum_eq]
  simp [costs, mergeItem, Node.cost, QueueItem.weight]
  ring

/-- The first `k` of a queue do not get heavier by an item put before heavier ones. -/
theorem sum_take_insert_le (pre : List QueueItem) (a : QueueItem) {post : List QueueItem}
    (hpost : ∀ x ∈ post, a.weight ≤ x.weight) {k : Nat} (hk : k ≤ (pre ++ post).length) :
    ((weights (pre ++ a :: post)).take k).sum ≤ ((weights (pre ++ post)).take k).sum := by
  induction pre generalizing k with
  | nil =>
    cases k with
    | zero => exact le_rfl
    | succ j =>
      have hj : j < (weights post).length := by rwa [weights, List.length_map]
      have hle : a.weight ≤ (weights post)[j] := by
        obtain ⟨x, hx, heq⟩ := List.mem_map.1 (List.getElem_mem hj)
        exact heq ▸ hpost x hx
      have hcons : ((weights (a :: post)).take (j + 1)).sum = a.weight + ((weights post).take j).sum := by simp [weights]
      rw [List.nil_append, List.nil_append, hcons, List.sum_take_succ _ _ hj]
      omega
  | cons b pre ih =>
    cases k with
    | zero => exact le_rfl
    | succ k => exact Nat.add_le_add_left (ih (Nat.le_of_succ_le_succ hk)) b.weight

theorem sum_take_enqueue_le (a : QueueItem) {q : List QueueItem} (hq : Ascending q) {k : Nat} (hk : k ≤ q.length) :
    ((weights (enqueue a q)).take k).sum ≤ ((weights q).take k).sum := by
  obtain ⟨pre, post, rfl, he, -, hpost, -⟩ := enqueue_split a hq
  rw [he]
  exact sum_take_insert_le pre a hpost hk

/-- A queue of 2^m + r nodes, r at most 2^m, is merged so that 2 r of the lightest get a depth of m + 1 at most, the others
of m. -/
theorem mergeLoop_cost {fuel next : Nat} {q : List QueueItem} {root : Node} (h : mergeLoop fuel next q = some root)
    (hq : Ascending q) {m r : Nat} (hlen : q.length = 2 ^ m + r) (hr : r ≤ 2 ^ m) :
    root.cost ≤ costs q + m * (weights q).sum + ((weights q).take (2 * r)).sum := by
  refine mergeLoop_induction (motive := fun _ q root => Ascending q → ∀ m r, q.length = 2 ^ m + r → r ≤ 2 ^ m →
    root.cost ≤ costs q + m * (weights q).sum + ((weights q).take (2 * r)).sum)
    (fun _ a _ m r _ _ => ?_) (fun next a b rest root ih hq m r hlen hr => ?_) fuel next q h hq m r hlen hr
  · exact (Nat.le_add_right _ _).trans (Nat.le_add_right _ _)
  · have hrest : Ascending rest := (List.pairwise_cons.1 (List.pairwise_cons.1 hq).2).2
    have hq'len : (enqueue (mergeItem a b next) rest).length = rest.length + 1 :=
      (enqueue_perm (mergeItem a b next) rest).length_eq
    have hmerge : ∀ m r, rest.length + 1 = 2 ^ m + r → r + 1 ≤ 2 ^ m → root.cost ≤ costs (a :: b :: rest) +
        m * (weights (a :: b :: rest)).sum + ((weights (a :: b :: rest)).take (2 * (r + 1))).sum := by
      intro m r hlen hr
      have hih := ih (hrest.enqueue _) m r (hq'len.trans hlen) (Nat.le_of_succ_le hr)
      have htake := sum_take_enqueue_le (mergeItem a b next) hrest (k := 2 * r) (by omega)
      have hfirst : ((weights (a :: b :: rest)).take (2 * (r + 1))).sum =
          a.weight + (b.weight + ((weights rest).take (2 * r)).sum) := by
        rw [Nat.mul_succ]
        rfl
      rw [costs_merge, sum_weights_merge] at hih
      omega
    rw [List.length_cons, List.length_cons] at hlen
    cases r with
    | succ r => exact hmerge m r (by omega) hr
    | zero =>
      cases m with
      | zero => exact absurd hlen (by simp)
      | succ m =>
        have hpow := Nat.two_pow_pos m
        rw [Nat.pow_succ] at hlen
        have hle := hmerge m (2 ^ m - 1) (by omega) (by omega)
        rw [Nat.sub_add_cancel hpow, List.take_of_length_le (by simp [weights]; omega)] at hle
        rw [Nat.succ_mul]
        omega

/-- A tree of 256 leaves at most costs 8 for each of its weights at most. -/
theorem mergeLoop_cost_le {fuel next : Nat} {q : List QueueItem} {root : Node} (h : mergeLoop fuel next q = some root)
    (hq : Ascending q) (hne : q ≠ []) (hlen : q.length ≤ 256) : root.cost ≤ costs q + 8 * (weights q).sum := by
  have hlow := Nat.pow_log_le_self 2 (List.length_pos_of_ne_nil hne).ne'
  have hhigh := Nat.lt_pow_succ_log_self (b := 2) (by decide) q.length
  generalize Nat.log 2 q.length = m at hlow hhigh
  rw [Nat.pow_succ] at hhigh
  have hcost := mergeLoop_cost h hq (m := m) (r := q.length - 2 ^ m) (by omega) (by omega)
  have hm : m ≤ 8 := (Nat.pow_le_pow_iff_right (by decide)).1 (hlow.trans hlen)
  rcases Nat.lt_or_eq_of_le hm with hm | rfl
  · have htake : ((weights q).take (2 * (q.length - 2 ^ m))).sum ≤ (weights q).sum := by
      conv_rhs => rw [← List.take_append_drop (2 * (q.length - 2 ^ m)) (weights q), List.sum_append]
      exact Nat.le_add_right _ _
    have hmul : (m + 1) * (weights q).sum ≤ 8 * (weights q).sum := Nat.mul_le_mul_right _ hm
    rw [Nat.succ_mul] at hmul
    omega
  · have hr : q.length - 2 ^ 8 = 0 := by omega
    rw [hr] at hcost
    exact hcost

/-! ### The length of the stream -/

/-- The bits the derived codes pack a sequence into. -/
theorem length_stream_codesOf (x : List Byte) : ((Codebook.ofCodes (codesOf (freq x))).stream x).length =
    ((codesOf (freq x)).map fun e => x.count e.1 * e.2.length).sum := by
  have hnodup := nodup_symbols_codesOf (nodup_symbols_freq x)
  have hlen : ∀ e ∈ codesOf (freq x), ((Codebook.ofCodes (codesOf (freq x))).get e.1).bits = e.2 := fun e he => by
    rw [Codebook.get_ofCodes_of_mem hnodup he, CbEntry.bits_ofBits (codesOf_length (nodup_symbols_freq x) he).2]
  rw [Codebook.stream, List.length_flatMap, sum_map_eq_sum_count x hnodup fun a => by
    rw [(codesOf_symbols (freq x)).mem_iff, mem_map_fst_freq], List.map_map]
  refine congrArg List.sum (List.map_congr_left fun e he => ?_)
  rw [Function.comp_apply, hlen e he]

theorem stream_le_of_two {x : List Byte} {a b : Byte} (ha : a ∈ x) (hb : b ∈ x) (hab : a ≠ b) :
    ((Codebook.ofCodes (codesOf (freq x))).stream x).length ≤ 8 * x.length := by
  rw [length_stream_codesOf]
  rcases codesOf_cases (freq x) with ⟨-, hcodes⟩ | ⟨c, w, hfreq, -⟩ | ⟨hf, root, hroot, hcodes⟩
  · simp [hcodes]
  · have hone : ∀ d ∈ x, d = c := fun d hd => by simpa [hfreq] using mem_map_fst_freq.2 hd
    exact absurd ((hone a ha).trans (hone b hb).symm) hab
  · have hcounts : root.Counts x.count := mergeLoop_counts hroot fun y hy => by
      obtain ⟨e, he, hnode, -⟩ := mem_leafQueue hy
      rw [hnode]
      exact (mem_freq.1 he).1.symm
    have hcosts : costs (leafQueue (freq x)) = 0 := List.sum_eq_zero fun c hc => by
      obtain ⟨y, hy, rfl⟩ := List.mem_map.1 hc
      obtain ⟨e, -, hnode, -⟩ := mem_leafQueue hy
      rw [hnode, Node.cost]
    have hweights : (weights (leafQueue (freq x))).sum = x.length := by
      rw [weights, ((leafQueue_perm (freq x)).map _).sum_eq, ← sum_freq, List.map_map]
      conv_rhs => rw [← List.zipIdx_map_fst 0 (freq x), List.map_map]
      rfl
    have hlen := length_leafQueue (freq x)
    have hle := length_le_of_nodup (nodup_symbols_freq x)
    rw [List.length_map] at hle
    have hcost := mergeLoop_cost_le hroot (leafQueue_ascending _) (List.ne_nil_of_length_pos (by omega)) (hlen ▸ hle)
    rw [hcosts, hweights, Nat.zero_add] at hcost
    rw [hcodes, hcounts.sum_codes, List.length_nil, Nat.zero_mul, Nat.add_zero]
    exact hcost

theorem stream_of_one {x : List Byte} {a : Byte} (hne : x ≠ []) (h : ∀ b ∈ x, b = a) :
    codesOf (freq x) = [(a, [false])] ∧ ((Codebook.ofCodes (codesOf (freq x))).stream x).length = x.length := by
  obtain ⟨w, hfreq⟩ := freq_of_forall_eq hne h
  have hcodes : codesOf (freq x) = [(a, [false])] := by rw [hfreq]; rfl
  refine ⟨hcodes, ?_⟩
  rw [length_stream_codesOf, hcodes]
  simpa using List.count_eq_length.2 fun b hb => (h b hb).symm

/-- Settles O59: a tree of 2^m + r leaves costs m or m + 1 for each of its weights. -/
theorem derivedCodesDoNotExpand : Obligations.DerivedCodesDoNotExpand :=
  ⟨fun _ _ _ ha hb hab => stream_le_of_two ha hb hab, fun _ _ hne h =>
    ⟨⟨[false], (stream_of_one hne h).1, rfl⟩, (stream_of_one hne h).2⟩⟩

end Sys2Proof.Machine
end

section
/-! PROOFS. The block run by a host program (R100-R104): a write, a read, a command waited for, and the loads and dumps of the
RAM windows. -/

namespace Sys2Proof.Machine

/-! ### Inputs one after another -/

theorem runInputs_append {is js : List Input} {s t : State} (h : runInputs is s = .ok t) :
    runInputs (is ++ js) s = runInputs js t := by
  induction is generalizing s with
  | nil => cases h; rfl
  | cons i is ih =>
    rw [List.cons_append, runInputs] at *
    split at h
    · exact ih h
    · cases h
    · cases h

theorem runInputs_cons {i : Input} {s t : State} (h : step { s with inputs := [i] } = .next t) (is : List Input) :
    runInputs (i :: is) s = runInputs is t := by
  rw [runInputs, h]

/-- The block when no input is to come. -/
def State.quiet (s : State) : State := { s with inputs := [] }

theorem step_wr (r : Reg) (v : Word) (s : State) :
    step { s with inputs := [wr r v] } = execBusWr (regAddr r) v s.quiet := rfl

theorem step_rd (r : Reg) (s : State) : step { s with inputs := [rd r] } = execBusRd (regAddr r) s.quiet := rfl

theorem step_engine_alone (s : State) : step { s with inputs := [.engine] } = engineTurn s.quiet := rfl

theorem readReg_quiet (s : State) (r : Reg) : readReg s.quiet r = readReg s r := by
  cases r <;> rfl

theorem State.Inv.withInputs {s : State} (hs : s.Inv) (is : List Input) : State.Inv { s with inputs := is } :=
  ⟨hs.cfgLegal, hs.payloadWf, hs.payloadWithin, hs.dataWf, hs.dataWithin, hs.codebookWf, hs.bitcnt, hs.partialByte,
    hs.padOpen, hs.padFinal, hs.datapos, hs.bitpos, hs.symcnt, hs.busyErr⟩

theorem runInputs_inv {is : List Input} {s t : State} (hs : s.Inv) (h : runInputs is s = .ok t) : t.Inv := by
  induction is generalizing s with
  | nil => cases h; exact hs
  | cons i is ih =>
    rw [runInputs] at h
    split at h
    · rename_i s' hstep
      exact ih (everyStepKeepsTheInvariant _ _ (hs.withInputs [i]) hstep) h
    · cases h
    · cases h

/-- A write to an idle block. -/
theorem runInputs_wr {s : State} (hp : s.pending = none) (r : Reg) (v : Word) (is : List Input) :
    runInputs (wr r v :: is) s = runInputs is (writeReg v s.quiet r) := by
  have hb : s.quiet.busy = false := (State.busy_eq_false_iff _).2 hp
  exact runInputs_cons ((step_wr r v s).trans (execBusWr_regAddr hb r v)) is

/-- A read from an idle block. -/
theorem runInputs_rd {s : State} (hp : s.pending = none) {r : Reg} {v : Word} (hv : readReg s r = .ok v)
    (is : List Input) : runInputs (rd r :: is) s = runInputs is (s.quiet.reply v) := by
  have hb : s.quiet.busy = false := (State.busy_eq_false_iff _).2 hp
  exact runInputs_cons ((step_rd r s).trans (execBusRd_of_readReg_ok hb ((readReg_quiet s r).trans hv))) is

theorem readWord_of_idle {s : State} (hp : s.pending = none) {r : Reg} {v : Word} (hv : readReg s r = .ok v) :
    readWord r s = .ok (v, s.quiet.reply v) := by
  rw [readWord, runInputs_rd hp hv]
  rfl

/-! ### A command given and waited for (R101, R102) -/

/-- The states agree on all that a command finds, the command in progress and the host's own record apart. -/
def State.SameBlock (s t : State) : Prop :=
  t = { s with pending := t.pending, err := t.err, inputs := t.inputs, replies := t.replies, draws := t.draws }

theorem State.SameBlock.trans {s t u : State} (h : s.SameBlock t) (h' : t.SameBlock u) : s.SameBlock u := by
  unfold State.SameBlock at *
  rw [h] at h'
  exact h'

theorem State.SameBlock.inv {s t : State} (h : s.SameBlock t) (hs : s.Inv) (herr : t.busy = true → t.err = .ok) :
    t.Inv := by
  rw [h] at herr ⊢
  exact ⟨hs.cfgLegal, hs.payloadWf, hs.payloadWithin, hs.dataWf, hs.dataWithin, hs.codebookWf, hs.bitcnt, hs.partialByte,
    hs.padOpen, hs.padFinal, hs.datapos, hs.bitpos, hs.symcnt, herr⟩

theorem State.SameBlock.inv_of_idle {s t : State} (h : s.SameBlock t) (hs : s.Inv) (hp : t.pending = none) : t.Inv :=
  h.inv hs fun hb => absurd hb (Bool.eq_false_iff.1 ((State.busy_eq_false_iff t).2 hp))

/-- A poll of STATUS while a command is in progress (R116). -/
theorem runInputs_poll {s : State} (hb : s.busy = true) (is : List Input) :
    ∃ t, runInputs (rd .status :: is) s = runInputs is t ∧ s.SameBlock t ∧ t.pending = s.pending ∧ t.err = s.err :=
  ⟨(s.quiet.reply (s.quiet.statusBusy (Config.freeNibble s.draws))).nextDraw,
    runInputs_cons ((step_rd .status s).trans (if_pos hb)) is, rfl, rfl, rfl⟩

theorem runInputs_polls (polls : Nat) {s : State} (hb : s.busy = true) (is : List Input) :
    ∃ t, runInputs (List.replicate polls (rd .status) ++ is) s = runInputs is t ∧ s.SameBlock t ∧
      t.pending = s.pending ∧ t.err = s.err := by
  induction polls generalizing s with
  | zero => exact ⟨s, rfl, rfl, rfl, rfl⟩
  | succ n ih =>
    obtain ⟨t, hrun, hst, hp, he⟩ := runInputs_poll hb (List.replicate n (rd .status) ++ is)
    obtain ⟨u, hrun', htu, hp', he'⟩ := ih (s := t) (by rw [State.busy, hp]; exact hb)
    exact ⟨u, hrun.trans hrun', hst.trans htu, hp'.trans hp, he'.trans he⟩

/-- The ERR field of STATUS read from an idle block. -/
theorem statusIdle_err (s : State) : s.statusIdle.extractLsb' 4 4 = s.err.code := by
  have hr := s.rstate.code.isLt
  have hw := s.wstate.code.isLt
  have he := s.err.code.isLt
  have hd := Bool.toNat_le s.dropped
  apply BitVec.eq_of_toNat_eq
  rw [BitVec.extractLsb'_toNat, statusIdle_eq, BitVec.toNat_ofNat, Nat.shiftRight_eq_div_pow]
  omega

theorem encode_eq_cmdw {i : Instr} (hi : (∀ a, i ≠ .busRd a) ∧ ∀ a d, i ≠ .busWr a d) : ∃ w, encode i = .cmdw w := by
  cases i with
  | busRd a => exact absurd rfl (hi.1 a)
  | busWr a d => exact absurd rfl (hi.2 a d)
  | _ => exact ⟨_, rfl⟩

/-- A command given to an idle block runs on the block as it is, with ERR cleared, and what it ends in is read from STATUS. -/
theorem exists_issued (polls : Nat) {i : Instr} (hi : (∀ a, i ≠ .busRd a) ∧ ∀ a d, i ≠ .busWr a d) {s : State}
    (hp : s.pending = none) :
    ∃ u, s.SameBlock u ∧ u.err = .ok ∧
      (∀ t, exec i u = .next t → t.pending = none ∧ runInputs (cmdw polls i) s = .ok (t.quiet.reply t.statusIdle)) ∧
      ∀ f, exec i u = .fault f → runInputs (cmdw polls i) s = .error (.stopped f) := by
  obtain ⟨w, hw⟩ := encode_eq_cmdw hi
  have hdec : decodeCmd w = .ok i := by
    have h := decode_encode i
    rwa [hw, decode] at h
  obtain ⟨u, hpolls, hsu, hpend, herr⟩ := runInputs_polls (s := s.quiet.issue w) polls rfl [.engine, rd .status]
  have hrun : runInputs (cmdw polls i) s = runInputs [.engine, rd .status] u := by
    rw [cmdw, give, hw]
    exact (runInputs_wr hp .cmd w _).trans hpolls
  have hturn : step { u with inputs := [.engine] } = exec i u.quiet := by
    rw [step_engine_alone, engineTurn_of_pending (s := u.quiet) hpend, perform_of_decode hdec]
  have hsame : s.SameBlock u.quiet := by
    rw [hsu]
    rfl
  refine ⟨u.quiet, hsame, herr, fun t ht => ?_, fun f hf => ?_⟩
  · have hidle : engineTurn u.quiet = .next t := by
      rw [engineTurn_of_pending (s := u.quiet) hpend, perform_of_decode hdec, ht]
    have htp : t.pending = none := (State.busy_eq_false_iff t).1 (engineTurn_idle hidle).1
    refine ⟨htp, ?_⟩
    rw [hrun, runInputs_cons (hturn.trans ht), runInputs_rd htp (r := .status) rfl]
    rfl
  · rw [hrun, runInputs, hturn, hf]

end Sys2Proof.Machine
end

section
/-! PROOFS. The firmware's helpers: a command whose ERR is checked (R221), the loads and dumps of the RAM windows (R104) and
the load of a codebook (R219). -/

namespace Sys2Proof.Machine

/-! ### A command whose error ends the call -/

theorem errorOf_eq_none_iff (e : ErrCode) : errorOf e.code = none ↔ e = .ok := by
  cases e <;> decide

/-- Command `i` given to the idle block `s` has ended with ERR = 0 and left the idle block `t`. -/
def State.Completes (i : Instr) (s t : State) : Prop :=
  ∃ u v, s.SameBlock u ∧ u.err = .ok ∧ exec i u = .next v ∧ v.err = .ok ∧ v.SameBlock t ∧ t.pending = none

theorem State.Completes.inv {i : Instr} {s t : State} (h : s.Completes i t) (hs : s.Inv) : t.Inv := by
  obtain ⟨u, v, hsu, huerr, hexec, -, hvt, htp⟩ := h
  exact hvt.inv_of_idle (exec_inv (hsu.inv hs fun _ => huerr) hexec) htp

theorem command_of_run {polls : Nat} {i : Instr} {s v : State}
    (hrun : runInputs (cmdw polls i) s = .ok (v.quiet.reply v.statusIdle)) :
    command polls i s = .ok (v.err.code, v.quiet.reply v.statusIdle) := by
  rw [command, hrun, ← statusIdle_err v]
  rfl

/-- A command that ends is done once the host has waited for it. -/
theorem exists_commanded (polls : Nat) {i : Instr} (hi : (∀ a, i ≠ .busRd a) ∧ ∀ a d, i ≠ .busWr a d) {s : State}
    (hp : s.pending = none) :
    ∃ u, s.SameBlock u ∧ ∀ v, exec i u = .next v →
      ∃ t, runInputs (cmdw polls i) s = .ok t ∧ v.SameBlock t ∧ t.pending = none := by
  obtain ⟨u, hsu, -, hnext, -⟩ := exists_issued polls hi hp
  refine ⟨u, hsu, fun v hexec => ?_⟩
  obtain ⟨hvp, hrun⟩ := hnext v hexec
  exact ⟨v.quiet.reply v.statusIdle, hrun, rfl, hvp⟩

/-- A checked command that ends with ERR = 0 goes on. -/
theorem exists_checked (polls : Nat) {i : Instr} (hi : (∀ a, i ≠ .busRd a) ∧ ∀ a d, i ≠ .busWr a d) {s : State}
    (hp : s.pending = none) :
    ∃ u, s.SameBlock u ∧ u.err = .ok ∧ ∀ v, exec i u = .next v → v.err = .ok →
      ∃ t, checked polls i s = .ok t ∧ v.SameBlock t ∧ t.pending = none := by
  obtain ⟨u, hsu, herr, hnext, -⟩ := exists_issued polls hi hp
  refine ⟨u, hsu, herr, fun v hexec hv => ?_⟩
  obtain ⟨hvp, hrun⟩ := hnext v hexec
  refine ⟨v.quiet.reply v.statusIdle, ?_, rfl, hvp⟩
  rw [checked, command_of_run hrun]
  simp only [(errorOf_eq_none_iff _).2 hv]

/-- A checked command that goes on has ended with ERR = 0. -/
theorem completes_of_checked {polls : Nat} {i : Instr} (hi : (∀ a, i ≠ .busRd a) ∧ ∀ a d, i ≠ .busWr a d) {s t : State}
    (hp : s.pending = none) (h : checked polls i s = .ok t) : s.Completes i t := by
  obtain ⟨u, hsu, herr, hnext, hfault⟩ := exists_issued polls hi hp
  cases hexec : exec i u with
  | next v =>
    obtain ⟨hvp, hrun⟩ := hnext v hexec
    rw [checked, command_of_run hrun] at h
    cases hv : errorOf v.err.code with
    | none =>
      simp only [hv, Except.ok.injEq] at h
      exact ⟨u, v, hsu, herr, hexec, (errorOf_eq_none_iff _).1 hv, h ▸ rfl, h ▸ hvp⟩
    | some e => simp [hv] at h
  | fault f => rw [checked, command, hfault f hexec] at h; cases h
  | refused r => exact absurd hexec (exec_ne_refused i u r)

/-! ### The RAM windows -/

/-- The low byte of a zero-extended byte. -/
theorem extractLsb'_setWidth_byte (b : Byte) : (b.setWidth 32).extractLsb' 0 8 = b := by
  rw [BitVec.extractLsb'_setWidth_of_le (by decide), BitVec.extractLsb'_eq_self]

/-- The address register of a RAM's window. -/
def Ram.addrReg : Ram → Reg
  | .payload => .plAddr
  | .data => .dtAddr

/-- The data register of a RAM's window. -/
def Ram.dataReg : Ram → Reg
  | .payload => .plData
  | .data => .dtData

/-- The contents of a RAM. -/
def State.ram (s : State) : Ram → Memory
  | .payload => s.payload
  | .data => s.data

/-- The number of a RAM's addresses. -/
def Ram.size (c : Config) : Ram → Nat
  | .payload => c.payloadBytes
  | .data => c.dataBytes

theorem Ram.size_lt {c : Config} (hc : c.Legal) (m : Ram) : m.size c < 2 ^ 32 := by
  obtain ⟨⟨-, hp⟩, -, hd⟩ := hc
  cases m
  · exact hp.trans_lt (by decide)
  · exact hd.trans_lt (by decide)

/-- PLLOAD or DTLOAD (R104). -/
def loadInputs (m : Ram) : Nat → List Byte → List Input
  | _, [] => []
  | a, b :: rest => wr m.addrReg (BitVec.ofNat 32 a) :: wr m.dataReg (b.setWidth 32) :: loadInputs m (a + 1) rest

theorem plload_eq (a : Nat) (bs : List Byte) : plload a bs = loadInputs .payload a bs := by
  induction bs generalizing a with
  | nil => rfl
  | cons b bs ih => rw [plload, ih, loadInputs]; rfl

theorem dtload_eq (a : Nat) (bs : List Byte) : dtload a bs = loadInputs .data a bs := by
  induction bs generalizing a with
  | nil => rfl
  | cons b bs ih => rw [dtload, ih, loadInputs]; rfl

/-- What the loads and dumps may change of a block. -/
def State.WindowFrame (s t : State) : Prop :=
  t = { s with plAddr := t.plAddr, dtAddr := t.dtAddr, payload := t.payload, data := t.data, inputs := t.inputs,
               replies := t.replies }

theorem State.WindowFrame.trans {s t u : State} (h : s.WindowFrame t) (h' : t.WindowFrame u) : s.WindowFrame u := by
  unfold State.WindowFrame at *
  rw [h] at h'
  exact h'

/-- One byte through a window. -/
theorem runInputs_store (m : Ram) {s : State} (hp : s.pending = none) (hc : s.cfg.Legal) {a : Nat}
    (ha : a < m.size s.cfg) (b : Byte) (is : List Input) :
    ∃ t, runInputs (wr m.addrReg (BitVec.ofNat 32 a) :: wr m.dataReg (b.setWidth 32) :: is) s = runInputs is t ∧
      s.WindowFrame t ∧ t.ram m = (s.ram m).write a b := by
  have haddr : (BitVec.ofNat 32 a).toNat = a := Nat.mod_eq_of_lt (ha.trans (Ram.size_lt hc m))
  cases m with
  | payload =>
    rw [Ram.addrReg, Ram.dataReg, runInputs_wr hp, runInputs_wr (s := writeReg (BitVec.ofNat 32 a) s.quiet .plAddr) hp]
    refine ⟨_, rfl, ?_⟩
    have hlt : a < s.cfg.payloadBytes := ha
    simp only [writeReg, State.quiet, haddr, if_pos hlt, extractLsb'_setWidth_byte]
    exact ⟨rfl, rfl⟩
  | data =>
    rw [Ram.addrReg, Ram.dataReg, runInputs_wr hp, runInputs_wr (s := writeReg (BitVec.ofNat 32 a) s.quiet .dtAddr) hp]
    refine ⟨_, rfl, ?_⟩
    have hlt : a < s.cfg.dataBytes := ha
    simp only [writeReg, State.quiet, haddr, if_pos hlt, extractLsb'_setWidth_byte]
    exact ⟨rfl, rfl⟩

/-- A load fills the RAM from its address on. -/
theorem runInputs_load (m : Ram) {s : State} (hp : s.pending = none) (hc : s.cfg.Legal) {a : Nat} (bs : List Byte)
    (ha : a + bs.length ≤ m.size s.cfg) :
    ∃ t, runInputs (loadInputs m a bs) s = .ok t ∧ s.WindowFrame t ∧
      (∀ i, i < bs.length → (t.ram m).read (a + i) = bs[i]?) ∧ ∀ j, j < a → (t.ram m).read j = (s.ram m).read j := by
  induction bs generalizing s a with
  | nil => exact ⟨s, rfl, rfl, fun i hi => absurd hi (Nat.not_lt_zero i), fun _ _ => rfl⟩
  | cons b bs ih =>
    rw [List.length_cons] at ha
    obtain ⟨u, hrun, hsu, hram⟩ := runInputs_store m hp hc (a := a) (by omega) b (loadInputs m (a + 1) bs)
    have hcfg : u.cfg = s.cfg := by rw [hsu]
    have hup : u.pending = none := by rw [hsu]; exact hp
    obtain ⟨t, hrun', hut, hread, hbelow⟩ := ih hup (hcfg ▸ hc) (a := a + 1) (by rw [hcfg]; omega)
    refine ⟨t, hrun.trans hrun', hsu.trans hut, fun i hi => ?_, fun j hj => ?_⟩
    · cases i with
      | zero => rw [Nat.add_zero, hbelow a (Nat.lt_succ_self a), hram, Memory.read_write_self]; rfl
      | succ i =>
        rw [Nat.add_left_comm a i 1, Nat.add_comm i, hread i (Nat.lt_of_succ_lt_succ hi)]
        rfl
    · rw [hbelow j (Nat.lt_succ_of_lt hj), hram, Memory.read_write_ne _ _ (Nat.ne_of_lt hj)]

/-- PLDUMP or DTDUMP from address 0 (R104). -/
def dumpInputs (m : Ram) (n : Nat) : List Input :=
  (List.range n).flatMap fun i => [wr m.addrReg (BitVec.ofNat 32 (0 + i)), rd m.dataReg]

/-- One byte read through a window. -/
theorem runInputs_fetch (m : Ram) {s : State} (hp : s.pending = none) (hc : s.cfg.Legal) {a : Nat}
    (ha : a < m.size s.cfg) {b : Byte} (hb : (s.ram m).read a = some b) :
    ∃ t, runInputs [wr m.addrReg (BitVec.ofNat 32 a), rd m.dataReg] s = .ok t ∧ s.WindowFrame t ∧
      t.ram m = s.ram m ∧ t.replies = b.setWidth 32 :: s.replies := by
  have haddr : (BitVec.ofNat 32 a).toNat = a := Nat.mod_eq_of_lt (ha.trans (Ram.size_lt hc m))
  cases m with
  | payload =>
    have hread : readReg (writeReg (BitVec.ofNat 32 a) s.quiet .plAddr) .plData = .ok (b.setWidth 32) :=
      windowRead_of_read_eq_some (a := BitVec.ofNat 32 a) (haddr.symm ▸ ha) (by rw [haddr]; exact hb)
    rw [Ram.addrReg, Ram.dataReg, runInputs_wr hp, runInputs_rd (s := writeReg _ s.quiet .plAddr) hp hread]
    refine ⟨_, rfl, ?_⟩
    simp only [writeReg, State.quiet, State.reply, and_true]
    exact ⟨rfl, rfl⟩
  | data =>
    have hread : readReg (writeReg (BitVec.ofNat 32 a) s.quiet .dtAddr) .dtData = .ok (b.setWidth 32) :=
      windowRead_of_read_eq_some (a := BitVec.ofNat 32 a) (haddr.symm ▸ ha) (by rw [haddr]; exact hb)
    rw [Ram.addrReg, Ram.dataReg, runInputs_wr hp, runInputs_rd (s := writeReg _ s.quiet .dtAddr) hp hread]
    refine ⟨_, rfl, ?_⟩
    simp only [writeReg, State.quiet, State.reply, and_true]
    exact ⟨rfl, rfl⟩

theorem runInputs_dump (m : Ram) {s : State} (hp : s.pending = none) (hc : s.cfg.Legal) (bs : List Byte)
    (hlen : bs.length ≤ m.size s.cfg) (hbs : ∀ i, i < bs.length → (s.ram m).read i = bs[i]?) :
    ∃ t, runInputs (dumpInputs m bs.length) s = .ok t ∧ s.WindowFrame t ∧ t.ram m = s.ram m ∧
      t.replies = (bs.map fun b => b.setWidth 32).reverse ++ s.replies := by
  induction bs using List.reverseRecOn with
  | nil => exact ⟨s, rfl, rfl, rfl, rfl⟩
  | append_singleton bs b ih =>
    rw [List.length_append, List.length_singleton] at hlen hbs ⊢
    obtain ⟨u, hrun, hsu, hram, hrep⟩ := ih (by omega) fun i hi => by
      rw [hbs i (by omega), List.getElem?_append_left hi]
    have hcfg : u.cfg = s.cfg := by rw [hsu]
    have hup : u.pending = none := by rw [hsu]; exact hp
    have hb : (u.ram m).read bs.length = some b := by rw [hram, hbs _ (Nat.lt_succ_self _), List.getElem?_concat_length]
    obtain ⟨t, hrun', hut, hram', hrep'⟩ := runInputs_fetch m hup (hcfg ▸ hc) (by rw [hcfg]; omega) hb
    refine ⟨t, ?_, hsu.trans hut, hram'.trans hram, by rw [hrep', hrep]; simp⟩
    rw [dumpInputs, List.range_succ, List.flatMap_append, List.flatMap_singleton, Nat.zero_add]
    exact (runInputs_append hrun).trans hrun'

/-- The bytes a dump has read are those of the RAM. -/
theorem dumped_of_replies {t : State} {bs : List Byte} {rest : List Word}
    (h : t.replies = (bs.map fun b => b.setWidth 32).reverse ++ rest) : dumped bs.length t = bs := by
  rw [dumped, h, List.take_append_of_le_length (by simp), List.take_of_length_le (by simp), List.reverse_reverse,
    List.map_map]
  exact (List.map_congr_left fun b _ => extractLsb'_setWidth_byte b).trans (List.map_id bs)

end Sys2Proof.Machine
end

section
/-! PROOFS. The load of a codebook (R103, R219) and the codebook RAM it leaves. -/

namespace Sys2Proof.Machine

/-! ### CBLOAD (R103) -/

/-- The staging words of a value make up the value (R33). -/
theorem stage_eq_of_words {codes : Vector Word 8} {v : BitVec 256}
    (h : ∀ k : Fin 8, codes[k] = v.extractLsb' (32 * k.val) 32) : stage codes = v := by
  refine BitVec.eq_of_getLsbD_eq fun i hi => ?_
  have hj : i % 32 < 32 := Nat.mod_lt i (by decide)
  have hbit := stage_getLsbD codes ⟨i / 32, by omega⟩ hj
  rw [h, BitVec.getLsbD_extractLsb', decide_eq_true hj, Bool.true_and, Nat.div_add_mod] at hbit
  exact hbit

/-- What the writes of CBLOAD change. -/
def State.StageFrame (s t : State) : Prop := t = { s with cbLen := t.cbLen, cbCode := t.cbCode, inputs := t.inputs }

/-- The writes of the staging words. -/
theorem runInputs_stage (v : BitVec 256) (ks : List (Fin 8)) {s : State} (hp : s.pending = none) (is : List Input) :
    ∃ t, runInputs ((ks.map fun k => wr (.cbCode k) (v.extractLsb' (32 * k.val) 32)) ++ is) s = runInputs is t ∧
      s.StageFrame t ∧ t.cbLen = s.cbLen ∧ ∀ k, k ∈ ks ∨ s.cbCode[k] = v.extractLsb' (32 * k.val) 32 →
        t.cbCode[k] = v.extractLsb' (32 * k.val) 32 := by
  induction ks generalizing s with
  | nil => exact ⟨s, rfl, rfl, rfl, fun k hk => hk.resolve_left List.not_mem_nil⟩
  | cons j ks ih =>
    obtain ⟨t, hrun, hframe, hlen, hcode⟩ := ih (s := writeReg (v.extractLsb' (32 * j.val) 32) s.quiet (.cbCode j)) hp
    refine ⟨t, (runInputs_wr hp (.cbCode j) _ _).trans hrun, ?_, hlen, fun k hk => hcode k ?_⟩
    · unfold State.StageFrame at *
      rw [hframe]
      rfl
    · by_cases hkj : k = j
      · subst hkj
        exact .inr (Vector.getElem_set_self k.isLt)
      · refine hk.imp (fun hmem => (List.mem_cons.1 hmem).resolve_left hkj) fun hs => ?_
        exact (Vector.getElem_set_ne (xs := s.cbCode) (x := v.extractLsb' (32 * j.val) 32) j.isLt k.isLt
          fun h => hkj (Fin.ext h.symm)).trans hs

/-- The entry CB_WRITE stores from a staged code. -/
theorem entryOfStage_codeValue {bits : List Bool} (h : bits.length ≤ 255) :
    entryOfStage (BitVec.ofNat 8 bits.length) (BitVec.ofNat 256 (codeValue bits)) = .ofBits bits := by
  have hvalue := codeValue_lt bits
  have hwide : codeValue bits < 2 ^ 256 := hvalue.trans_le (Nat.pow_le_pow_right (by decide) (h.trans (by decide)))
  have hlen : (BitVec.ofNat 8 bits.length).toNat = bits.length := Nat.mod_eq_of_lt (by omega)
  have hcode : (BitVec.ofNat 256 (codeValue bits)).toNat = codeValue bits := Nat.mod_eq_of_lt hwide
  rw [entryOfStage, hlen, hcode, Nat.mod_eq_of_lt hvalue]
  rfl

theorem runInputs_cbload (polls : Nat) (a : Symbol) {bits : List Bool} (hlen : bits.length ≤ 255) {s : State}
    (hp : s.pending = none) :
    ∃ t, runInputs (cbload polls a bits) s = .ok t ∧ t.pending = none ∧ t.cfg = s.cfg ∧
      t.codebook = s.codebook.put a (.ofBits bits) := by
  obtain ⟨t, hrun, hframe, hcbLen, hcode⟩ := runInputs_stage (BitVec.ofNat 256 (codeValue bits)) (List.finRange 8)
    (s := writeReg (BitVec.ofNat 32 bits.length) s.quiet .cbLen) hp (cmdw polls (.cbWrite a))
  have hstage : stage t.cbCode = BitVec.ofNat 256 (codeValue bits) :=
    stage_eq_of_words fun k => hcode k (.inl (List.mem_finRange k))
  have hl : t.cbLen = BitVec.ofNat 8 bits.length := by
    rw [hcbLen]
    exact BitVec.eq_of_toNat_eq (by simp [writeReg])
  have htp : t.pending = none := by rw [hframe]; exact hp
  obtain ⟨u, htu, hdone⟩ := exists_commanded polls (i := .cbWrite a) ⟨nofun, nofun⟩ htp
  obtain ⟨v, hrun', hv, hvp⟩ := hdone _ rfl
  refine ⟨v, ?_, hvp, ?_, ?_⟩
  · rw [cbload, List.ofFn_eq_map]
    exact (runInputs_wr hp .cbLen _ _).trans (hrun.trans hrun')
  · rw [hv, htu, hframe]
    rfl
  · have hput : v.codebook = t.codebook.put a (entryOfStage t.cbLen (stage t.cbCode)) := by
      rw [hv, htu]
      rfl
    rw [hput, hstage, hl, entryOfStage_codeValue hlen, hframe]
    rfl

/-! ### The load of a table (R219) -/

theorem runInputs_cbloads (polls : Nat) (c : CodeTable) (hlen : ∀ e ∈ c, e.2.length ≤ 255) {s : State}
    (hp : s.pending = none) :
    ∃ t, runInputs (c.flatMap fun e => cbload polls e.1 e.2) s = .ok t ∧ t.pending = none ∧ t.cfg = s.cfg ∧
      t.codebook = c.foldl (fun cb e => cb.put e.1 (.ofBits e.2)) s.codebook := by
  induction c generalizing s with
  | nil => exact ⟨s, rfl, hp, rfl, rfl⟩
  | cons e c ih =>
    obtain ⟨u, hrun, hup, hucfg, hucb⟩ := runInputs_cbload polls e.1 (hlen e List.mem_cons_self) hp
    obtain ⟨t, hrun', htp, htcfg, htcb⟩ := ih (fun d hd => hlen d (List.mem_cons_of_mem e hd)) hup
    refine ⟨t, (runInputs_append hrun).trans hrun', htp, htcfg.trans hucfg, ?_⟩
    rw [htcb, hucb]
    rfl

theorem loadCodebook_ok (polls : Nat) {c : CodeTable} (hlen : ∀ e ∈ CodeTable.ascending c, e.2.length ≤ 255) {s : State}
    (hp : s.pending = none) :
    ∃ t, loadCodebook polls c s = .ok t ∧ t.pending = none ∧ t.cfg = s.cfg ∧
      t.codebook = Codebook.ofCodes (CodeTable.ascending c) := by
  obtain ⟨u, hsu, hdone⟩ := exists_commanded polls (i := .cbClear) ⟨nofun, nofun⟩ hp
  obtain ⟨v, hrun, hv, hvp⟩ := hdone _ rfl
  obtain ⟨t, hrun', htp, htcfg, htcb⟩ := runInputs_cbloads polls (CodeTable.ascending c) hlen hvp
  refine ⟨t, (runInputs_append hrun).trans hrun', htp, ?_, ?_⟩
  · rw [htcfg, hv, hsu]
    rfl
  · rw [htcb, hv]
    rfl

/-! ### The codebook RAM of a frequency table -/

/-- The codebook RAM after the load of a table's codes. -/
def loadedCodebook (f : FrequencyTable) : Codebook := Codebook.ofCodes (CodeTable.ascending (codesOf f))

theorem nodup_ascending (c : CodeTable) : ((CodeTable.ascending c).map Prod.fst).Nodup :=
  List.pairwise_map.2 ((CodeTable.ascending_pairwise c).imp fun hlt heq =>
    absurd (congrArg BitVec.toNat heq) (Nat.ne_of_lt hlt))

theorem mem_ascending_codesOf {f : FrequencyTable} (hf : (f.map Prod.fst).Nodup) {e : Symbol × List Bool} :
    e ∈ CodeTable.ascending (codesOf f) ↔ e ∈ codesOf f :=
  CodeTable.mem_ascending (nodup_symbols_codesOf hf) e

/-- The codes of the RAM are those of the table. -/
theorem mem_codesOf_iff {f : FrequencyTable} (hf : (f.map Prod.fst).Nodup) (a : Symbol) (bs : List Bool) :
    (a, bs) ∈ codesOf f ↔ ((loadedCodebook f).get a).bits = bs ∧ bs ≠ [] := by
  rw [← mem_ascending_codesOf hf]
  exact Codebook.mem_table_iff_bits_ofCodes (nodup_ascending _)
    (fun e he => codesOf_length hf ((mem_ascending_codesOf hf).1 he)) a bs

theorem CbEntry.bits_ne_nil_iff {e : CbEntry} : e.bits ≠ [] ↔ e.len ≠ 0 := by
  rw [← not_iff_not, not_not, not_not, ← List.length_eq_zero_iff, CbEntry.length_bits]
  exact ⟨fun h => BitVec.eq_of_toNat_eq h, fun h => by rw [h]; rfl⟩

theorem loadedCodebook_coded {f : FrequencyTable} (hf : (f.map Prod.fst).Nodup) {a : Symbol} (ha : a ∈ f.map Prod.fst) :
    ((loadedCodebook f).get a).len ≠ 0 := by
  obtain ⟨e, he, rfl⟩ := List.mem_map.1 ((codesOf_symbols f).mem_iff.2 ha)
  obtain ⟨hbits, hne⟩ := (mem_codesOf_iff hf e.1 e.2).1 he
  exact CbEntry.bits_ne_nil_iff.1 (hbits ▸ hne)

theorem loadedCodebook_prefixFree {f : FrequencyTable} (hf : (f.map Prod.fst).Nodup) :
    (loadedCodebook f).PrefixFree := by
  intro a b ha hpre
  have hne := CbEntry.bits_ne_nil_iff.2 ha
  have hbne : ((loadedCodebook f).get b).bits ≠ [] := fun hnil => hne (List.prefix_nil.1 (hnil ▸ hpre))
  exact congrArg Prod.fst (codesOf_prefixFree f ((mem_codesOf_iff hf a _).2 ⟨rfl, hne⟩)
    ((mem_codesOf_iff hf b _).2 ⟨rfl, hbne⟩) hpre)

theorem loadCodebook_codesOf (polls : Nat) {f : FrequencyTable} (hf : (f.map Prod.fst).Nodup) {s : State}
    (hp : s.pending = none) :
    ∃ t, loadCodebook polls (codesOf f) s = .ok t ∧ t.pending = none ∧ t.cfg = s.cfg ∧
      t.codebook = loadedCodebook f :=
  loadCodebook_ok polls (fun _ he => (codesOf_length hf ((mem_ascending_codesOf hf).1 he)).2) hp

end Sys2Proof.Machine
end

section
/-! PROOFS. The reference firmware's encode (R221): the stream it packs, the bytes it dumps, and that the container depends on
the input only (R220). -/

namespace Sys2Proof.Machine

/-! ### The bytes of a packed stream -/

/-- `bs` holds `bits`, the first at the top of the first byte, and zeros after the last (R64, R162). -/
def PackedBytes (bits : List Bool) (bs : List Byte) : Prop :=
  bs.length = (bits.length + 7) / 8 ∧
    ∀ q, q < 8 * bs.length → (bs[q / 8]?.map fun v => bitOfByte v q) = some (bits.getD q false)

theorem eq_of_bitOfByte {v w : Byte} {i : Nat} (h : ∀ q, q / 8 = i → bitOfByte v q = bitOfByte w q) : v = w := by
  refine BitVec.eq_of_getLsbD_eq fun j hj => ?_
  have hbit := h (8 * i + (7 - j)) (by omega)
  rw [bitOfByte, bitOfByte, Nat.mul_add_mod, Nat.mod_eq_of_lt (by omega)] at hbit
  rwa [Nat.sub_sub_self (by omega)] at hbit

/-- A stream has one byte sequence that holds it. -/
theorem PackedBytes.unique {bits : List Bool} {bs bs' : List Byte} (h : PackedBytes bits bs)
    (h' : PackedBytes bits bs') : bs = bs' := by
  obtain ⟨hlen, hbits⟩ := h
  obtain ⟨hlen', hbits'⟩ := h'
  refine List.ext_getElem (hlen.trans hlen'.symm) fun i hi hi' => eq_of_bitOfByte (i := i) fun q hq => ?_
  have hb := hbits q (by omega)
  have hb' := hbits' q (by omega)
  rw [hq, List.getElem?_eq_getElem hi] at hb
  rw [hq, List.getElem?_eq_getElem hi'] at hb'
  exact Option.some.inj (hb.trans hb'.symm)

/-! ### The stream while it is packed -/

/-- The idle block `s` of build `c` has codebook `cb` and an open stream of `bits`. -/
structure State.Streaming (c : Config) (cb : Codebook) (bits : List Bool) (s : State) : Prop where
  inv : s.Inv
  idle : s.pending = none
  cfg : s.cfg = c
  codebook : s.codebook = cb
  wstate : s.wstate = .opened
  stream : s.streamBits = bits.map some
  tail : s.ZeroTail

section
variable {c : Config} {cb : Codebook} {bits : List Bool} {s t : State}

/-- A stream that holds nothing. -/
theorem State.Streaming.of_bitcnt_eq_zero (hs : s.Inv) (hp : s.pending = none) (hc : s.cfg = c) (hcb : s.codebook = cb)
    (hw : s.wstate = .opened) (hcnt : s.wBitcnt = 0) : s.Streaming c cb [] where
  inv := hs
  idle := hp
  cfg := hc
  codebook := hcb
  wstate := hw
  stream := by rw [State.streamBits, hcnt]; rfl
  tail := fun hm => absurd (by rw [hcnt]; rfl) hm

/-- W_PUTSYM and W_ENCODE append to the stream. -/
theorem State.Streaming.append {i : Instr} (h : s.Streaming c cb bits) (hi : (∃ a, i = .wPutsym a) ∨ i = .wEncode)
    (hdone : s.Completes i t) : t.Streaming c cb (bits ++ appendedBits i s) := by
  have htinv := hdone.inv h.inv
  obtain ⟨u, v, hsu, huerr, hexec, hverr, hvt, htp⟩ := hdone
  have huinv := hsu.inv h.inv fun _ => huerr
  have hbits : appendedBits i u = appendedBits i s := by rw [hsu]; cases i <;> rfl
  have hpacks := exec_packs (by rcases hi with ⟨a, rfl⟩ | rfl <;> exact ⟨nofun, nofun⟩) huinv hexec hverr
  have hustream : u.streamBits = bits.map some := by rw [← h.stream, hsu]; rfl
  have hutail : u.ZeroTail := h.tail.congr (by rw [hsu]) (by rw [hsu])
  obtain ⟨hframe, hvw⟩ : u.WriterFrame v ∧ v.wstate = u.wstate := by
    rcases hi with ⟨a, rfl⟩ | rfl
    · exact execWPutsym_keeps hexec
    · exact execWEncode_keeps hexec
  exact {
    inv := htinv
    idle := htp
    cfg := by rw [hvt, hframe, hsu]; exact h.cfg
    codebook := by rw [hvt, hframe, hsu]; exact h.codebook
    wstate := by
      have htw : t.wstate = v.wstate := by rw [hvt]
      rw [htw, hvw, hsu]
      exact h.wstate
    stream := by
      have htv : t.streamBits = v.streamBits := by rw [hvt]; rfl
      rw [htv, hpacks.streamBits hutail, hustream, hbits, List.map_append]
    tail := (hutail.appended hpacks).congr (by rw [hvt]) (by rw [hvt]) }

/-- The streamed encode (R223). -/
theorem State.Streaming.putsyms {polls : Nat} {x : List Byte} (h : s.Streaming c cb bits)
    (hrun : checkedAll polls (x.map .wPutsym) s = .ok t) : t.Streaming c cb (bits ++ cb.stream x) := by
  induction x generalizing s bits with
  | nil =>
    cases hrun
    rw [show cb.stream [] = [] from rfl, List.append_nil]
    exact h
  | cons a x ih =>
    rw [List.map_cons, checkedAll] at hrun
    cases hc : checked polls (.wPutsym a) s with
    | error e => rw [hc] at hrun; cases hrun
    | ok u =>
      rw [hc] at hrun
      have hu := h.append (.inl ⟨a, rfl⟩) (completes_of_checked (i := .wPutsym a) ⟨nofun, nofun⟩ h.idle hc)
      have hbits : appendedBits (.wPutsym a) s = (cb.get a).bits := by rw [appendedBits, h.codebook]
      rw [hbits] at hu
      have ht := ih hu hrun
      rwa [List.append_assoc] at ht

theorem State.Completes.idle {i : Instr} (h : s.Completes i t) : t.pending = none := by
  obtain ⟨-, -, -, -, -, -, -, hp⟩ := h
  exact hp

/-- W_INIT opens an empty stream. -/
theorem State.Completes.wInit (h : s.Completes .wInit t) :
    t.wBitcnt = 0 ∧ t.wstate = .opened ∧ t.cfg = s.cfg ∧ t.codebook = s.codebook := by
  obtain ⟨u, v, hsu, -, hexec, -, hvt, -⟩ := h
  cases hexec
  rw [hvt, hsu]
  exact ⟨rfl, rfl, rfl, rfl⟩

/-- W_FINAL closes the stream. -/
theorem State.Completes.wFinal (h : s.Completes .wFinal t) :
    t.payload = s.payload ∧ t.wBitcnt = s.wBitcnt ∧ t.wPad = padCount s.wBitcnt ∧ t.cfg = s.cfg := by
  obtain ⟨u, v, hsu, -, hexec, hverr, hvt, -⟩ := h
  obtain ⟨-, rfl⟩ | ⟨-, rfl⟩ := execWFinal_cases hexec
  · cases hverr
  · rw [hvt, hsu]
    exact ⟨rfl, rfl, rfl, rfl⟩

/-! ### The bytes dumped -/

theorem State.Streaming.wBitcnt_toNat (h : s.Streaming c cb bits) : s.wBitcnt.toNat = bits.length := by
  simpa [State.streamBits] using congrArg List.length h.stream

/-- Every bit of a byte of the stream, those after its end included. -/
theorem State.Streaming.payloadBit (h : s.Streaming c cb bits) {q : Nat} (hq : q < 8 * ((bits.length + 7) / 8)) :
    s.payloadBit q = some (bits.getD q false) := by
  have hcnt := h.wBitcnt_toNat
  by_cases hlt : q < bits.length
  · have hget := congrArg (·[q]?) h.stream
    simpa [State.streamBits, hcnt, hlt] using hget
  · rw [List.getD_eq_default _ _ (Nat.not_lt.1 hlt)]
    exact h.tail (by omega) q (by omega) (by omega)

/-- The bytes of the stream. -/
def State.streamBytes (s : State) (p : Nat) : List Byte := (List.range p).map fun i => (s.payload.read i).getD 0

theorem State.Streaming.read_streamBytes (h : s.Streaming c cb bits) {i : Nat} (hi : i < (bits.length + 7) / 8) :
    s.payload.read i = (s.streamBytes ((bits.length + 7) / 8))[i]? := by
  have hbit := h.payloadBit (q := 8 * i) (by omega)
  rw [State.payloadBit, Nat.mul_div_cancel_left i (by decide)] at hbit
  obtain ⟨v, hv, -⟩ := Option.map_eq_some_iff.1 hbit
  simp [State.streamBytes, hi, hv]

theorem State.Streaming.exists_packedBytes (h : s.Streaming c cb bits) :
    ∃ payload, PackedBytes bits payload ∧ ∀ i, i < payload.length → s.payload.read i = payload[i]? := by
  have hlen : (s.streamBytes ((bits.length + 7) / 8)).length = (bits.length + 7) / 8 := by simp [State.streamBytes]
  refine ⟨_, ⟨hlen, fun q hq => ?_⟩, fun i hi => h.read_streamBytes (hlen ▸ hi)⟩
  rw [hlen] at hq
  rw [← h.read_streamBytes (by omega)]
  exact h.payloadBit hq

/-! ### encode (R221) -/

theorem bind_eq_ok {α β : Type} {x : Except FwError α} {f : α → Except FwError β} {b : β} :
    (x >>= f) = .ok b ↔ ∃ a, x = .ok a ∧ f a = .ok b := by
  cases x with
  | error e => exact ⟨nofun, fun ⟨_, h, _⟩ => nomatch h⟩
  | ok a => exact ⟨fun h => ⟨a, rfl, h⟩, fun ⟨_, h, hb⟩ => by cases h; exact hb⟩

/-- The part of encode that packs the codes: W_ENCODE when the data RAM holds the input, else symbol by symbol. -/
def fwPack (polls : Nat) (x : List Byte) (s : State) : Except FwError State :=
  if x.length ≤ s.cfg.dataBytes then do
    let s ← runInputs (dtload 0 x ++ [wr .wDatalen (BitVec.ofNat 32 x.length)]) s
    checked polls .wEncode s
  else checkedAll polls (x.map .wPutsym) s

/-- The part of encode that reads the stream back and builds the container. -/
def fwClose (polls : Nat) (x : List Byte) (s : State) : Except FwError (List Byte × State) := do
  let s ← checked polls .wFinal s
  let (bitcnt, s) ← readWord .wBitcnt s
  let (pad, s) ← readWord .wPad s
  let p := (bitcnt.toNat + 7) / 8
  let s ← runInputs (pldump 0 p) s
  let c : Container :=
    { originalLength := BitVec.ofNat 64 x.length
      symbolTable := (freq x).map fun e => (e.1, BitVec.ofNat 32 e.2)
      paddingBits := pad.extractLsb' 0 8
      payload := dumped p s }
  return (c.bytes, s)

/-- The calls of an encode that succeeds. -/
theorem fwEncode_eq_ok {polls : Nat} {x bytes : List Byte} {s u : State} (h : fwEncode polls x s = .ok (bytes, u)) :
    (∀ e ∈ freq x, e.2 ≤ 2 ^ 32 - 1) ∧ ∃ s1 s2 s3, loadCodebook polls (codesOf (freq x)) s = .ok s1 ∧
      checked polls .wInit s1 = .ok s2 ∧ fwPack polls x s2 = .ok s3 ∧ fwClose polls x s3 = .ok (bytes, u) := by
  unfold fwEncode at h
  dsimp only at h
  split at h
  · cases h
  next hcounts =>
    refine ⟨fun e he => ?_, ?_⟩
    · by_contra hgt
      exact hcounts (List.any_eq_true.2 ⟨e, he, decide_eq_true (Nat.not_le.1 hgt)⟩)
    · obtain ⟨s1, hload, h⟩ := bind_eq_ok.1 h
      obtain ⟨s2, hinit, h⟩ := bind_eq_ok.1 h
      by_cases hle : x.length ≤ s2.cfg.dataBytes
      · rw [if_pos hle] at h
        obtain ⟨s', hdata, h⟩ := bind_eq_ok.1 h
        obtain ⟨s3, henc, h⟩ := bind_eq_ok.1 h
        exact ⟨s1, s2, s3, hload, hinit, (if_pos hle).trans (bind_eq_ok.2 ⟨s', hdata, henc⟩), h⟩
      · rw [if_neg hle] at h
        obtain ⟨s3, hput, h⟩ := bind_eq_ok.1 h
        exact ⟨s1, s2, s3, hload, hinit, (if_neg hle).trans hput, h⟩

/-- The input in the data RAM, with its length, for W_ENCODE. -/
theorem runInputs_dtload {x : List Byte} {s : State} (hs : s.Inv) (hp : s.pending = none)
    (hle : x.length ≤ s.cfg.dataBytes) :
    ∃ t, runInputs (dtload 0 x ++ [wr .wDatalen (BitVec.ofNat 32 x.length)]) s = .ok t ∧ t.pending = none ∧
      t.cfg = s.cfg ∧ t.codebook = s.codebook ∧ t.wstate = s.wstate ∧ t.wBitcnt = s.wBitcnt ∧
      t.wDatalen.toNat = x.length ∧ t.holdsData 0 x := by
  obtain ⟨u, hrun, hframe, hread, -⟩ := runInputs_load .data hp hs.cfgLegal (a := 0) x (by simpa [Ram.size] using hle)
  have hup : u.pending = none := by rw [hframe]; exact hp
  refine ⟨writeReg (BitVec.ofNat 32 x.length) u.quiet .wDatalen, ?_, hup, ?_, ?_, ?_, ?_, ?_, hread⟩
  · rw [dtload_eq, runInputs_append hrun, runInputs_wr hup]
    rfl
  · rw [hframe]; rfl
  · rw [hframe]; rfl
  · rw [hframe]; rfl
  · rw [hframe]; rfl
  · exact Nat.mod_eq_of_lt (hle.trans_lt (Ram.size_lt hs.cfgLegal .data))

theorem State.Streaming.pack {polls : Nat} {x : List Byte} (h : s.Streaming c cb []) (hcnt : s.wBitcnt = 0)
    (hrun : fwPack polls x s = .ok t) : t.Streaming c cb (cb.stream x) := by
  by_cases hle : x.length ≤ s.cfg.dataBytes
  · obtain ⟨u, hload, henc⟩ := bind_eq_ok.1 ((if_pos hle).symm.trans hrun)
    obtain ⟨v, hv, hvp, hvc, hvcb, hvw, hvcnt, hvlen, hvdata⟩ := runInputs_dtload h.inv h.idle hle
    obtain rfl : v = u := Except.ok.inj (hv.symm.trans hload)
    have hstream : v.Streaming c cb [] := .of_bitcnt_eq_zero (runInputs_inv h.inv hv) hvp (hvc.trans h.cfg)
      (hvcb.trans h.codebook) (hvw.trans h.wstate) (hvcnt.trans hcnt)
    have hdone := completes_of_checked (i := .wEncode) ⟨nofun, nofun⟩ hvp henc
    have hbits : appendedBits .wEncode v = cb.stream x := by
      rw [appendedBits, hvlen, hvdata.map_read, hstream.codebook]
    exact hbits ▸ hstream.append (.inr rfl) hdone
  · exact h.putsyms ((if_neg hle).symm.trans hrun)

/-- The container that encode builds for an input, packed into `bits` in the bytes of `payload`. -/
def containerOf (x : List Byte) (bits : List Bool) (payload : List Byte) : Container where
  originalLength := BitVec.ofNat 64 x.length
  symbolTable := (freq x).map fun e => (e.1, BitVec.ofNat 32 e.2)
  paddingBits := BitVec.ofNat 8 ((8 - bits.length % 8) % 8)
  payload := payload

theorem padCount_byte (w : Word) :
    ((padCount w).setWidth 32).extractLsb' 0 8 = BitVec.ofNat 8 ((8 - w.toNat % 8) % 8) := by
  rw [BitVec.extractLsb'_setWidth_of_le (by decide), padCount]
  apply BitVec.eq_of_toNat_eq
  rw [BitVec.extractLsb'_toNat, BitVec.toNat_ofNat, BitVec.toNat_ofNat, Nat.shiftRight_zero]
  omega

/-- A word read from an idle block. -/
theorem eq_of_readWord {s t : State} (hp : s.pending = none) {r : Reg} {v w : Word} (hv : readReg s r = .ok v)
    (h : readWord r s = .ok (w, t)) : w = v ∧ s.SameBlock t ∧ t.pending = none := by
  rw [readWord_of_idle hp hv] at h
  obtain ⟨rfl, rfl⟩ := Prod.mk.inj (Except.ok.inj h)
  exact ⟨rfl, rfl, hp⟩

/-- The calls of a close that succeeds. -/
theorem fwClose_eq_ok {polls : Nat} {x bytes : List Byte} {s u : State} (h : fwClose polls x s = .ok (bytes, u)) :
    ∃ s1 w s2 v s3, checked polls .wFinal s = .ok s1 ∧ readWord .wBitcnt s1 = .ok (w, s2) ∧
      readWord .wPad s2 = .ok (v, s3) ∧ runInputs (dumpInputs .payload ((w.toNat + 7) / 8)) s3 = .ok u ∧
      bytes = Container.bytes
        { originalLength := BitVec.ofNat 64 x.length
          symbolTable := (freq x).map fun e => (e.1, BitVec.ofNat 32 e.2)
          paddingBits := v.extractLsb' 0 8
          payload := dumped ((w.toNat + 7) / 8) u } := by
  obtain ⟨s1, hfinal, h⟩ := bind_eq_ok.1 h
  obtain ⟨⟨w, s2⟩, hcnt, h⟩ := bind_eq_ok.1 h
  obtain ⟨⟨v, s3⟩, hpad, h⟩ := bind_eq_ok.1 h
  obtain ⟨s4, hdump, h⟩ := bind_eq_ok.1 h
  obtain ⟨rfl, rfl⟩ := Prod.mk.inj (Except.ok.inj h)
  exact ⟨s1, w, s2, v, s3, hfinal, hcnt, hpad, hdump, rfl⟩

theorem State.Streaming.close {polls : Nat} {x bytes : List Byte} {u : State} (h : s.Streaming c cb bits)
    (hrun : fwClose polls x s = .ok (bytes, u)) :
    ∃ payload, PackedBytes bits payload ∧ payload.length ≤ c.payloadBytes ∧
      bytes = (containerOf x bits payload).bytes := by
  have hcnt := h.wBitcnt_toNat
  have hfits := h.inv.bitcnt
  rw [hcnt, h.cfg, Config.payloadBits] at hfits
  obtain ⟨payload, hpacked, hread⟩ := h.exists_packedBytes
  have hplen := hpacked.1
  obtain ⟨s1, w, s2, v, s3, hfinal, hw, hv, hdump, rfl⟩ := fwClose_eq_ok hrun
  have hdone := completes_of_checked (i := .wFinal) ⟨nofun, nofun⟩ h.idle hfinal
  obtain ⟨hpay, hbitcnt, hpad, hcfg⟩ := hdone.wFinal
  obtain ⟨rfl, hs2, hp2⟩ := eq_of_readWord hdone.idle (r := .wBitcnt) rfl hw
  obtain ⟨rfl, hs3, hp3⟩ := eq_of_readWord hp2 (r := .wPad) rfl hv
  have hs13 := hs2.trans hs3
  have hcfg3 : s3.cfg = c := by rw [hs13, ← h.cfg, ← hcfg]
  have hpay3 : s3.payload = s.payload := by rw [hs13, ← hpay]
  have hpad2 : s2.wPad = padCount s.wBitcnt := by rw [hs2, ← hpad]
  have hp : (s1.wBitcnt.toNat + 7) / 8 = payload.length := by rw [hbitcnt, hcnt, hplen]
  rw [hp] at hdump ⊢
  have hsize : payload.length ≤ c.payloadBytes := by omega
  obtain ⟨t, hdump', -, -, hreplies⟩ := runInputs_dump .payload hp3 (hcfg3.symm ▸ h.cfg ▸ h.inv.cfgLegal) payload
    (show payload.length ≤ s3.cfg.payloadBytes from hcfg3.symm ▸ hsize)
    (show ∀ i, i < payload.length → s3.payload.read i = payload[i]? from hpay3.symm ▸ hread)
  obtain rfl : t = u := Except.ok.inj (hdump'.symm.trans hdump)
  refine ⟨payload, hpacked, hsize, ?_⟩
  rw [dumped_of_replies hreplies, hpad2, padCount_byte, hcnt, containerOf]

end

/-- What encode gives when it gives a container: the fields of the input, with the one payload that holds its stream. -/
theorem fwEncode_spec {polls : Nat} {x bytes : List Byte} {s u : State} (hs : s.Inv) (hp : s.pending = none)
    (h : fwEncode polls x s = .ok (bytes, u)) :
    (∀ e ∈ freq x, e.2 ≤ 2 ^ 32 - 1) ∧ ∃ payload, PackedBytes ((loadedCodebook (freq x)).stream x) payload ∧
      payload.length ≤ s.cfg.payloadBytes ∧ bytes = (containerOf x ((loadedCodebook (freq x)).stream x) payload).bytes := by
  obtain ⟨hcounts, s1, s2, s3, hload, hinit, hpack, hclose⟩ := fwEncode_eq_ok h
  obtain ⟨t1, hload', hp1, hc1, hcb1⟩ := loadCodebook_codesOf polls (nodup_symbols_freq x) hp
  obtain rfl := Except.ok.inj (hload'.symm.trans hload)
  have hdone := completes_of_checked (i := .wInit) ⟨nofun, nofun⟩ hp1 hinit
  obtain ⟨hcnt, hw, hc2, hcb2⟩ := hdone.wInit
  have hopen : s2.Streaming s.cfg (loadedCodebook (freq x)) [] := .of_bitcnt_eq_zero
    (hdone.inv (runInputs_inv hs hload)) hdone.idle (hc2.trans hc1) (hcb2.trans hcb1) hw hcnt
  exact ⟨hcounts, (hopen.pack hcnt hpack).close hclose⟩

/-- Settles O60: the container is built from the input alone, and its payload is the one that holds the stream. -/
theorem encodingIsDeterministic : Obligations.EncodingIsDeterministic := by
  intro polls polls' x bytes bytes' s s' u u' hs hs' hp hp' h h'
  obtain ⟨-, payload, hpacked, -, rfl⟩ := fwEncode_spec hs hp h
  obtain ⟨-, payload', hpacked', -, rfl⟩ := fwEncode_spec hs' hp' h'
  rw [hpacked.unique hpacked']

end Sys2Proof.Machine
end

section
/-! PROOFS. The reference firmware's decode (R226) of what encode gave, and the round trip. -/

namespace Sys2Proof.Machine

/-! ### The header of an encoded container -/

theorem map_toNat_table {x : List Byte} (hcounts : ∀ e ∈ freq x, e.2 ≤ 2 ^ 32 - 1) (bits : List Bool)
    (payload : List Byte) : ((containerOf x bits payload).symbolTable.map fun e => (e.1, e.2.toNat)) = freq x := by
  rw [containerOf, List.map_map]
  refine (List.map_congr_left fun e he => ?_).trans (List.map_id _)
  have hle := hcounts e he
  exact Prod.ext rfl (Nat.mod_eq_of_lt (by omega))

/-- A byte sequence whose counts have 32 bits has a length of 64. -/
theorem length_lt_of_counts {x : List Byte} (hcounts : ∀ e ∈ freq x, e.2 ≤ 2 ^ 32 - 1) : x.length < 2 ^ 64 := by
  have hentries := length_le_of_nodup (nodup_symbols_freq x)
  rw [List.length_map] at hentries
  have hsum := List.sum_le_card_nsmul ((freq x).map Prod.snd) (2 ^ 32 - 1) fun w hw => by
    obtain ⟨e, he, rfl⟩ := List.mem_map.1 hw
    exact hcounts e he
  rw [sum_freq, List.length_map, smul_eq_mul] at hsum
  omega

theorem parse_containerOf {x : List Byte} (hcounts : ∀ e ∈ freq x, e.2 ≤ 2 ^ 32 - 1) (bits : List Bool)
    (payload : List Byte) : parseContainer (containerOf x bits payload).bytes = .ok (containerOf x bits payload) := by
  refine containerParsesBack _ ?_ ?_ ?_ ?_
  · refine decide_eq_true ?_
    have hasc := List.pairwise_map.1 (freq_ascending x)
    exact List.pairwise_map.2 hasc
  · intro e he hzero
    obtain ⟨⟨a, w⟩, hd, rfl⟩ := List.mem_map.1 he
    have hle := hcounts _ hd
    have hpos := List.count_pos_iff.2 (mem_freq.1 hd).2
    rw [(mem_freq.1 hd).1] at hpos
    have hmod : w % 2 ^ 32 = 0 := congrArg BitVec.toNat hzero
    rw [Nat.mod_eq_of_lt (show w < 2 ^ 32 by omega)] at hmod
    omega
  · have htable := congrArg (List.map Prod.snd) (map_toNat_table hcounts bits payload)
    rw [List.map_map] at htable
    refine (congrArg List.sum htable).trans ((sum_freq x).trans ?_)
    exact (Nat.mod_eq_of_lt (length_lt_of_counts hcounts)).symm
  · rw [containerOf, BitVec.toNat_ofNat]
    omega

/-- The valid-bit count the firmware declares is the length of the stream (R230). -/
theorem nbits_of_packed {bits : List Bool} {payload : List Byte} (h : PackedBytes bits payload) :
    nbits payload.length (BitVec.ofNat 8 ((8 - bits.length % 8) % 8)).toNat = bits.length := by
  rw [nbits, h.1, BitVec.toNat_ofNat]
  split <;> omega

/-! ### A reader that has symbols to decode -/

/-- The reader is active at the codes of `x`, and `x` is what it has still to decode. -/
structure State.ReadyFor (cb : Codebook) (x : List Symbol) (s : State) : Prop where
  active : s.rstate = .active
  codebook : s.codebook = cb
  bits : s.holdsBits s.rBitpos.toNat (cb.stream x)
  nbits : s.rBitpos.toNat + (cb.stream x).length ≤ s.rNbits.toNat
  size : s.rBitpos.toNat + (cb.stream x).length ≤ 8 * s.cfg.payloadBytes
  count : s.rSymcnt.toNat + x.length = s.origLen.toNat

section
variable {cb : Codebook} {x : List Symbol} {s t : State}

theorem State.ReadyFor.sameBlock (h : s.ReadyFor cb x) (hst : s.SameBlock t) : t.ReadyFor cb x := by
  rw [hst]
  exact ⟨h.active, h.codebook, h.bits, h.nbits, h.size, h.count⟩

/-- R_DECSYM decodes the first of them. -/
theorem State.ReadyFor.rDecsym {a : Symbol} (hs : s.Inv) (h : s.ReadyFor cb (a :: x)) (hcb : cb.PrefixFree)
    (ha : (cb.get a).len ≠ 0) :
    ∃ t, exec .rDecsym s = .next t ∧ t.err = .ok ∧ t.rSym = a ∧ t.ReadyFor cb x := by
  obtain ⟨hact, rfl, hbits, hn, hp, hcount⟩ := h
  have hstream : s.codebook.stream (a :: x) = (s.codebook.get a).bits ++ s.codebook.stream x := rfl
  rw [hstream, List.length_append, CbEntry.length_bits] at hn hp
  rw [List.length_cons] at hcount
  obtain ⟨t, hexec, ht, hpos, hcnt, -⟩ := decsymDecodesOneSymbol s a hs hact (by omega) (hcb.decodes ha)
    (fun j hj => by
      rw [hbits j (by rw [hstream, List.length_append]; omega), hstream, List.getElem?_append_left hj])
    (by omega) (by omega)
  have hpayload : t.payload = s.payload := by rw [ht]
  refine ⟨t, hexec, by rw [ht], by rw [ht], by rw [ht]; exact hact, by rw [ht], fun j hj => ?_, ?_, ?_, ?_⟩
  · have hj' := hbits ((s.codebook.get a).len.toNat + j) (by rw [hstream, List.length_append, CbEntry.length_bits]; omega)
    rw [hstream, List.getElem?_append_right (by simp), CbEntry.length_bits, Nat.add_sub_cancel_left] at hj'
    rw [hpos, Nat.add_assoc, State.payloadBit, hpayload]
    exact hj'
  · have hrn : t.rNbits = s.rNbits := by rw [ht]
    rw [hpos, hrn]
    omega
  · have hcfg : t.cfg = s.cfg := by rw [ht]
    rw [hpos, hcfg]
    omega
  · have horig : t.origLen = s.origLen := by rw [ht]
    rw [hcnt, horig]
    omega

/-- R_DECODE decodes them all. -/
theorem State.ReadyFor.rDecode (hs : s.Inv) (h : s.ReadyFor cb x) (hcb : cb.PrefixFree)
    (hcoded : ∀ a ∈ x, (cb.get a).len ≠ 0) (hzero : s.rSymcnt = 0) (hsize : x.length ≤ s.cfg.dataBytes) :
    ∃ t, exec .rDecode s = .next t ∧ t.err = .ok ∧ t.cfg = s.cfg ∧ t.holdsData 0 x := by
  obtain ⟨hact, rfl, hbits, hn, hp, hcount⟩ := h
  have hcnt : s.rSymcnt.toNat = 0 := by rw [hzero]; rfl
  obtain ⟨t, hexec, ht, -, -, hdata, -⟩ := decodeRecoversTheSymbols s x hs hact (by omega) (by omega)
    (fun a ha => hcb.decodes (hcoded a ha)) hbits (.inl hn) hp
  exact ⟨t, hexec, by rw [ht], by rw [ht], hcnt ▸ hdata⟩

/-- The streamed decode (R226). -/
theorem State.ReadyFor.decodeStream (polls : Nat) (hs : s.Inv) (hp : s.pending = none) (h : s.ReadyFor cb x)
    (hcb : cb.PrefixFree) (hcoded : ∀ a ∈ x, (cb.get a).len ≠ 0) :
    ∃ t, Machine.decodeStream polls x.length s = .ok (x, t) := by
  induction x generalizing s with
  | nil => exact ⟨s, rfl⟩
  | cons a x ih =>
    obtain ⟨u, hsu, huerr, hgo⟩ := exists_checked polls (i := .rDecsym) ⟨nofun, nofun⟩ hp
    obtain ⟨v, hexec, hverr, hsym, hv⟩ :=
      (h.sameBlock hsu).rDecsym (hsu.inv hs fun _ => huerr) hcb (hcoded a List.mem_cons_self)
    obtain ⟨s1, hchecked, hvs1, hp1⟩ := hgo v hexec hverr
    have hinv1 := (completes_of_checked (i := .rDecsym) ⟨nofun, nofun⟩ hp hchecked).inv hs
    have hread := readWord_of_idle hp1 (r := .rSym) rfl
    obtain ⟨-, hs12, hp2⟩ := eq_of_readWord hp1 rfl hread
    obtain ⟨t, hrest⟩ := ih (hs12.inv_of_idle hinv1 hp2) hp2
      ((hv.sameBlock hvs1).sameBlock hs12) fun b hb => hcoded b (List.mem_cons_of_mem a hb)
    refine ⟨t, bind_eq_ok.2 ⟨s1, hchecked, bind_eq_ok.2 ⟨_, hread, bind_eq_ok.2 ⟨_, hrest, ?_⟩⟩⟩⟩
    have hs1sym : s1.rSym = a := by rw [hvs1, ← hsym]
    change Except.ok ((s1.rSym.setWidth 32).extractLsb' 0 8 :: x, t) = _
    rw [extractLsb'_setWidth_byte, hs1sym]

/-! ### decode (R226) -/

/-- The part of decode that reads the symbols: R_DECODE when the data RAM can hold them, else one by one. -/
def fwRead (polls n : Nat) (s : State) : Except FwError (List Byte × State) :=
  if n ≤ s.cfg.dataBytes then do
    let s ← checked polls .rDecode s
    let s ← runInputs (dtdump 0 n) s
    return (dumped n s, s)
  else Machine.decodeStream polls n s

/-- A decode whose calls succeed. -/
theorem fwDecode_of_calls {polls : Nat} {b : List Byte} {d : Container} {s s1 s2 s3 s4 : State}
    {r : List Byte × State} (hparse : parseContainer b = .ok d) (hfits : d.payload.length ≤ s.cfg.payloadBytes)
    (hload : loadCodebook polls (codesOf (d.symbolTable.map fun e => (e.1, e.2.toNat))) s = .ok s1)
    (hpay : runInputs (plload 0 d.payload) s1 = .ok s2)
    (hregs : runInputs (wr .rNbits (BitVec.ofNat 32 (nbits d.payload.length d.paddingBits.toNat))
      :: wr64OrigLen d.originalLength) s2 = .ok s3)
    (hinit : checked polls .rInit s3 = .ok s4) (hread : fwRead polls d.originalLength.toNat s4 = .ok r) :
    fwDecode polls b s = .ok r := by
  refine bind_eq_ok.2 ⟨d, hparse, ?_⟩
  dsimp only
  rw [if_neg (Nat.not_lt.2 hfits)]
  exact bind_eq_ok.2 ⟨s1, hload, bind_eq_ok.2 ⟨s2, hpay, bind_eq_ok.2 ⟨s3, hregs, bind_eq_ok.2 ⟨s4, hinit, hread⟩⟩⟩⟩

/-- ORIG_LEN written in its two halves (R104). -/
theorem origLen_of_halves (o v : BitVec 64) :
    v.extractLsb' 32 32 ++ (o.extractLsb' 32 32 ++ v.extractLsb' 0 32).extractLsb' 0 32 = v := by
  rw [BitVec.extractLsb'_append_eq_right]
  apply BitVec.eq_of_toNat_eq
  rw [append_toNat, extractLsb'_high, extractLsb'_low, BitVec.toNat_ofNat, BitVec.toNat_ofNat]
  omega

/-- The registers the decoder writes (R226). -/
theorem runInputs_regs (n : Word) (v : BitVec 64) (hp : s.pending = none) :
    ∃ t, runInputs (wr .rNbits n :: wr64OrigLen v) s = .ok t ∧ t.pending = none ∧ t.rNbits = n ∧ t.origLen = v ∧
      t.cfg = s.cfg ∧ t.codebook = s.codebook ∧ t.payload = s.payload := by
  rw [wr64OrigLen, runInputs_wr hp, runInputs_wr (s := writeReg n s.quiet .rNbits) hp,
    runInputs_wr (s := writeReg _ (State.quiet (writeReg n s.quiet .rNbits)) .origLenLo) hp]
  refine ⟨_, rfl, ?_⟩
  simp only [writeReg, State.quiet, origLen_of_halves, and_true]
  exact hp

/-- The decoder's session once R_INIT has started it. -/
theorem State.readyFor_of_rInit (polls : Nat) (hs : s.Inv) (hp : s.pending = none) (hcb : s.codebook = cb)
    (hbits : s.holdsBits 0 (cb.stream x)) (hn : s.rNbits.toNat = (cb.stream x).length)
    (hfits : (cb.stream x).length ≤ 8 * s.cfg.payloadBytes) (hlen : s.origLen.toNat = x.length) :
    ∃ t, checked polls .rInit s = .ok t ∧ t.Inv ∧ t.pending = none ∧ t.ReadyFor cb x ∧ t.rSymcnt = 0 ∧ t.cfg = s.cfg := by
  obtain ⟨u, hsu, -, hgo⟩ := exists_checked polls (i := .rInit) ⟨nofun, nofun⟩ hp
  have hle : u.rNbits.toNat ≤ u.cfg.payloadBits := by
    rw [hsu]
    exact hn.trans_le hfits
  obtain ⟨t, hchecked, hvt, htp⟩ := hgo _ (execRInit_of_le hle) rfl
  refine ⟨t, hchecked, (completes_of_checked (i := .rInit) ⟨nofun, nofun⟩ hp hchecked).inv hs, htp,
    State.ReadyFor.sameBlock ?_ hvt, by rw [hvt], by rw [hvt, hsu]⟩
  rw [hsu]
  exact ⟨rfl, hcb, hbits, by rw [hn]; exact (Nat.zero_add _).le, by exact (Nat.zero_add _).trans_le hfits,
    (Nat.zero_add _).trans hlen.symm⟩

theorem State.ReadyFor.fwRead (polls : Nat) (hs : s.Inv) (hp : s.pending = none) (h : s.ReadyFor cb x)
    (hcb : cb.PrefixFree) (hcoded : ∀ a ∈ x, (cb.get a).len ≠ 0) (hzero : s.rSymcnt = 0) :
    ∃ t, Machine.fwRead polls x.length s = .ok (x, t) := by
  by_cases hle : x.length ≤ s.cfg.dataBytes
  · obtain ⟨u, hsu, huerr, hgo⟩ := exists_checked polls (i := .rDecode) ⟨nofun, nofun⟩ hp
    have hucfg : u.cfg = s.cfg := by rw [hsu]
    obtain ⟨v, hexec, hverr, hvcfg, hdata⟩ := (h.sameBlock hsu).rDecode (hsu.inv hs fun _ => huerr) hcb hcoded
      (by rw [hsu]; exact hzero) (hucfg.symm ▸ hle)
    obtain ⟨s1, hchecked, hvs1, hp1⟩ := hgo v hexec hverr
    have hcfg1 : s1.cfg = s.cfg := by rw [hvs1, ← hucfg, ← hvcfg]
    have hdata1 : s1.data = v.data := by rw [hvs1]
    obtain ⟨t, hdump, -, -, hreplies⟩ := runInputs_dump .data hp1 (hcfg1.symm ▸ hs.cfgLegal) x
      (show x.length ≤ s1.cfg.dataBytes from hcfg1.symm ▸ hle)
      (fun i hi => by simpa [State.ram, hdata1] using hdata i hi)
    refine ⟨t, (if_pos hle).trans (bind_eq_ok.2 ⟨s1, hchecked, bind_eq_ok.2 ⟨t, hdump, ?_⟩⟩)⟩
    rw [dumped_of_replies hreplies]
    rfl
  · obtain ⟨t, ht⟩ := h.decodeStream polls hs hp hcb hcoded
    exact ⟨t, (if_neg hle).trans ht⟩

/-- The bits of a packed stream in the payload RAM. -/
theorem PackedBytes.holdsBits {bits : List Bool} {bs : List Byte} (h : PackedBytes bits bs)
    (hread : ∀ i, i < bs.length → s.payload.read i = bs[i]?) : s.holdsBits 0 bits := by
  obtain ⟨hlen, hbits⟩ := h
  intro j hj
  rw [Nat.zero_add, State.payloadBit, hread _ (by omega), hbits j (by omega), List.getElem?_eq_getElem hj,
    List.getD_eq_getElem _ _ hj]

theorem fwDecode_containerOf (polls : Nat) {payload : List Byte} (hcounts : ∀ e ∈ freq x, e.2 ≤ 2 ^ 32 - 1)
    (hpacked : PackedBytes ((loadedCodebook (freq x)).stream x) payload) (hs : s.Inv) (hp : s.pending = none)
    (hfits : payload.length ≤ s.cfg.payloadBytes) :
    ∃ t, fwDecode polls (containerOf x ((loadedCodebook (freq x)).stream x) payload).bytes s = .ok (x, t) := by
  have hnodup := nodup_symbols_freq x
  have hlen := hpacked.1
  obtain ⟨s1, hload, hp1, hc1, hcb1⟩ := loadCodebook_codesOf polls hnodup hp
  have hinv1 := runInputs_inv hs hload
  obtain ⟨s2, hpay, hframe, hread, -⟩ := runInputs_load .payload hp1 hinv1.cfgLegal (a := 0) payload
    (show 0 + payload.length ≤ s1.cfg.payloadBytes by rw [hc1]; omega)
  have hp2 : s2.pending = none := by rw [hframe]; exact hp1
  obtain ⟨s3, hregs, hp3, hn3, ho3, hc3, hcb3, hpay3⟩ := runInputs_regs
    (BitVec.ofNat 32 (nbits payload.length (BitVec.ofNat 8
      ((8 - ((loadedCodebook (freq x)).stream x).length % 8) % 8)).toNat)) (BitVec.ofNat 64 x.length) hp2
  have hcfg3 : s3.cfg = s.cfg := by rw [hc3, ← hc1, hframe]
  have hholds : s3.holdsBits 0 ((loadedCodebook (freq x)).stream x) := hpacked.holdsBits fun i hi => by
    rw [hpay3, ← hread i hi, Nat.zero_add]
    rfl
  have hpb := hs.cfgLegal.1.2
  have hstream : ((loadedCodebook (freq x)).stream x).length ≤ 8 * s.cfg.payloadBytes := by omega
  obtain ⟨s4, hinit, hinv4, hp4, hready, hzero, hc4⟩ := State.readyFor_of_rInit polls
    (runInputs_inv (runInputs_inv hinv1 hpay) hregs) hp3 (hcb3.trans (by rw [hframe]; exact hcb1)) hholds
    (by rw [hn3, nbits_of_packed hpacked]; exact Nat.mod_eq_of_lt (by omega)) (hcfg3.symm ▸ hstream)
    (by rw [ho3]; exact Nat.mod_eq_of_lt (length_lt_of_counts hcounts))
  obtain ⟨t, hrest⟩ := hready.fwRead polls hinv4 hp4 (loadedCodebook_prefixFree hnodup)
    (fun a ha => loadedCodebook_coded hnodup (mem_map_fst_freq.2 ha)) hzero
  have horig : (BitVec.ofNat 64 x.length).toNat = x.length := Nat.mod_eq_of_lt (length_lt_of_counts hcounts)
  refine ⟨t, fwDecode_of_calls (parse_containerOf hcounts _ _) hfits ?_ ((plload_eq 0 payload).symm ▸ hpay) hregs hinit
    (horig.symm ▸ hrest)⟩
  rw [map_toNat_table hcounts]
  exact hload

end

/-- Settles O57: the container parses back to the fields of the input, and its payload holds the codes of the input. -/
theorem firmwareRoundTrip : Obligations.FirmwareRoundTrip := by
  intro polls polls' x bytes s s' t hs ht hp htp hcfg h
  obtain ⟨hcounts, payload, hpacked, hfits, rfl⟩ := fwEncode_spec hs hp h
  exact fwDecode_containerOf polls' hcounts hpacked ht htp (hcfg.symm ▸ hfits)

end Sys2Proof.Machine
end
